-- ==== Sys2Proof/Word.lean ====
section
/-! DEFINITION. The value types of the core: bytes, 32-bit words and pixels (spec/00_scope.md R3). -/

namespace Sys2Proof

/-- `u8`: an element of a byte stream, a channel value (00_scope.md section 5, R3). -/
abbrev Byte := BitVec 8

/-- A 32-bit value: a control or status register, a packed pixel (R30, R124). -/
abbrev Word := BitVec 32

/-- A pixel: four unsigned 8-bit channels (R3). Equality is exact on all four (R125). -/
structure Pixel where
  r : Byte
  g : Byte
  b : Byte
  a : Byte
deriving DecidableEq, Repr

end Sys2Proof
end

