-- ==== Sys2Proof/Syntax.lean ====
section
/-! DEFINITION. The instructions of the core: the six block variants (spec/42_block_codec.md R170). -/

namespace Sys2Proof

/-- A block. The fields are the VALUES of 30_encoding.md R95 (biases removed), as integers with no bound, so that
the validation of R173 is a check that can fail; `Instr.wellFormed` is that check. -/
inductive Instr where
  /-- `RGB r, g, b` (R175). -/
  | rgb (r g b : Int)
  /-- `RGBA r, g, b, a` (R176). -/
  | rgba (r g b a : Int)
  /-- `INDEX i` (R177). -/
  | index (k : Int)
  /-- `DIFF dr, dg, db` (R178). -/
  | diff (dr dg db : Int)
  /-- `LUMA dg, drdg, dbdg`: the source's `dr_minus_dg` and `db_minus_dg` (R179, 90_conflicts.md C6). -/
  | luma (dg drdg dbdg : Int)
  /-- `RUN n` (R180). -/
  | run (n : Int)
deriving DecidableEq, Repr

/-- The six variants a tag byte can select (30_encoding.md R96). -/
inductive Variant where
  | rgb
  | rgba
  | index
  | diff
  | luma
  | run
deriving DecidableEq, Repr

/-- The variant of a block. -/
def Instr.variant : Instr → Variant
  | .rgb _ _ _ => .rgb
  | .rgba _ _ _ _ => .rgba
  | .index _ => .index
  | .diff _ _ _ => .diff
  | .luma _ _ _ => .luma
  | .run _ => .run

end Sys2Proof
end

