-- ==== Sys2Proof/WellFormed.lean ====
section
/-! DEFINITION. Block validation: every field of a block in its range (spec/30_encoding.md R95, 42_block_codec.md R173). -/

namespace Sys2Proof

/-- `x` lies in `lo..hi`, both ends included. -/
abbrev inRange (lo hi x : Int) : Prop := lo ≤ x ∧ x ≤ hi

/-- A channel value carried by a block: 0..255 (R95; D24 for RGB and RGBA). -/
abbrev isChannel (x : Int) : Prop := inRange 0 255 x

/-- Every field of the block is in its range of R95. -/
def Instr.wellFormed : Instr → Bool
  | .rgb r g b => decide (isChannel r ∧ isChannel g ∧ isChannel b)
  | .rgba r g b a => decide (isChannel r ∧ isChannel g ∧ isChannel b ∧ isChannel a)
  | .index k => decide (inRange 0 63 k)
  | .diff dr dg db => decide (inRange (-2) 1 dr ∧ inRange (-2) 1 dg ∧ inRange (-2) 1 db)
  | .luma dg drdg dbdg => decide (inRange (-32) 31 dg ∧ inRange (-8) 7 drdg ∧ inRange (-8) 7 dbdg)
  | .run n => decide (inRange 1 62 n)

end Sys2Proof
end

