-- ==== Sys2Proof/Decode.lean ====
section
/-! DEFINITION. Tag dispatch, block decode and block encode (spec/30_encoding.md R93 to R101, 42_block_codec.md R171 to
R174), the decoder of a byte stream's next block, and the word forms the host asks about. -/

namespace Sys2Proof

/-- `t[lo+w-1 : lo]`, the field of `w` bits whose lowest is bit `lo`, as an unsigned number (00_scope.md section 5). -/
def bitField (t : Byte) (lo w : Nat) : Nat := t.toNat / 2 ^ lo % 2 ^ w

/-- Concatenation of bit fields, given as (width, value), the first in the high bits (00_scope.md section 5). -/
def packFields (fs : List (Nat × Int)) : Byte :=
  BitVec.ofInt 8 (fs.foldl (fun acc f => acc * 2 ^ f.1 + f.2) 0)

/-- Tag dispatch: the tests of R96, in its order, the first that holds winning. -/
def variantOf (t : Byte) : Variant :=
  if t = 0xFE#8 then .rgb
  else if t = 0xFF#8 then .rgba
  else if bitField t 6 2 = 0 then .index
  else if bitField t 6 2 = 1 then .diff
  else if bitField t 6 2 = 2 then .luma
  else .run

/-- `len(t)`: the length of the block, tag byte included (R97). -/
def blockLength (t : Byte) : Nat :=
  if t = 0xFE#8 then 4
  else if t = 0xFF#8 then 5
  else if bitField t 6 2 = 2 then 2
  else 1

/-- Extra byte number `k` of a block. -/
def extraByte (x : List Byte) (k : Nat) : Byte := x.getD k 0#8

/-- `decode_block(t, x)`: the block with tag byte `t` and extra bytes `x`, of which there are `len(t) - 1` (R171). -/
def decodeBlock (t : Byte) (x : List Byte) : Instr :=
  match variantOf t with
  | .rgb => .rgb (extraByte x 0).toNat (extraByte x 1).toNat (extraByte x 2).toNat
  | .rgba => .rgba (extraByte x 0).toNat (extraByte x 1).toNat (extraByte x 2).toNat (extraByte x 3).toNat
  | .index => .index (bitField t 0 6)
  | .diff => .diff ((bitField t 4 2 : Int) - 2) ((bitField t 2 2 : Int) - 2) ((bitField t 0 2 : Int) - 2)
  | .luma =>
    .luma ((bitField t 0 6 : Int) - 32) ((bitField (extraByte x 0) 4 4 : Int) - 8) ((bitField (extraByte x 0) 0 4 : Int) - 8)
  | .run => .run ((bitField t 0 6 : Int) + 1)

/-- Why no block can be read from the pending bytes. No byte string is illegal (R99): a block is only ever incomplete. -/
inductive Reject where
  /-- There is no tag byte. -/
  | noTag
  /-- The tag byte selects a variant of `need` bytes and only `have_` are there. -/
  | incomplete (v : Variant) (need have_ : Nat)
deriving DecidableEq, Repr

/-- The next block of a byte stream with the bytes after it, or why there is none yet. -/
inductive Decoded where
  | block (i : Instr) (rest : List Byte)
  | rejected (why : Reject)
deriving DecidableEq, Repr

/-- Reads the next block: the tag byte, then the extra bytes its length asks for (R97, R223). Total on any bytes. -/
def decode : List Byte → Decoded
  | [] => .rejected .noTag
  | t :: bs =>
    if bs.length + 1 < blockLength t then .rejected (.incomplete (variantOf t) (blockLength t) (bs.length + 1))
    else .block (decodeBlock t (bs.take (blockLength t - 1))) (bs.drop (blockLength t - 1))

/-- The bytes of a block whose fields are in range, from the layouts of R93 and R94 and the biases of R95. -/
def encode : Instr → List Byte
  | .rgb r g b => [0xFE#8, BitVec.ofInt 8 r, BitVec.ofInt 8 g, BitVec.ofInt 8 b]
  | .rgba r g b a => [0xFF#8, BitVec.ofInt 8 r, BitVec.ofInt 8 g, BitVec.ofInt 8 b, BitVec.ofInt 8 a]
  | .index k => [packFields [(2, 0), (6, k)]]
  | .diff dr dg db => [packFields [(2, 1), (2, dr + 2), (2, dg + 2), (2, db + 2)]]
  | .luma dg drdg dbdg => [packFields [(2, 2), (6, dg + 32)], packFields [(4, drdg + 8), (4, dbdg + 8)]]
  | .run n => [packFields [(2, 3), (6, n - 1)]]

/-- `encode_block(B)`: `none` is the failed validation of R173, which the caller raises as V_FIELD_RANGE; else the block's
bytes (R174). -/
def encodeBlock (i : Instr) : Option (List Byte) := if i.wellFormed then some (encode i) else none

/-- The longest block, RGBA (R93). -/
abbrev longestBlock : Nat := 5

/-- An instruction's bits, numbered as spec/opcode_table.json numbers them, laid out as stream bytes: byte `k` is bits
`8k+7..8k`, every bit from `nbits` up is 0, and the bytes go up to the longest block. -/
def tableBytes (nbits w : Nat) : List Byte :=
  (List.range longestBlock).map fun k => BitVec.ofNat 8 (w % 2 ^ nbits / 2 ^ (8 * k))

/-- The block the decoder reads from a table word (its bytes laid out by `tableBytes`). -/
def decodeTableWord (nbits w : Nat) : Option Instr :=
  match decode (tableBytes nbits w) with
  | .block i _ => some i
  | .rejected _ => none

end Sys2Proof
end

