-- ==== Sys2Proof/Config.lean ====
section
/-! DEFINITION. What the source fixes for every core (spec/00_scope.md R2, R5, R7; 10_state.md R21, R23).
The two configuration values of R7, ENFORCE_END and ENC_RGB, are per-pass control bits and stand in
`Machine.State`. 92_eei_decisions.md leaves no point open, so there is no free value here. -/

namespace Sys2Proof.Config

/-- The identifier of this configuration record (D1). -/
def coreId : String := "qoi-kotlin-core"

/-- The colour cache has exactly 64 slots (R2). -/
abbrev cacheSlots : Nat := 64

/-- The longest run one RUN block carries (R5). -/
abbrev maxRun : Nat := 62

/-- What a cache slot holds before any pixel of the pass was written to it (R21). -/
def cacheSentinel : Pixel := ⟨0#8, 0#8, 0#8, 0#8⟩

/-- What LAST holds before any pixel of a pass (R23). -/
def lastSentinel : Pixel := ⟨0#8, 0#8, 0#8, 255#8⟩

end Sys2Proof.Config
end

