-- ==== Sys2Proof/Machine/State.lean ====
section
/-! DEFINITION. The state of the core (spec/10_state.md), the turns of its environment (20_memory.md R64), the reasons a
step can stop, and the state after reset (10_state.md R39). -/

namespace Sys2Proof.Machine

/-- A slot of the colour cache, 0..63 (R2). -/
abbrev Slot := Fin Config.cacheSlots

/-- PHASE (R26). Its codes are `Phase.code`; the values 6 and 7 are never held and are not representable (U7). -/
inductive Phase where
  /-- 0: no pass has run since reset, or the last pass was aborted. -/
  | idle
  /-- 1: the header is to be read or written. -/
  | header
  /-- 2: blocks are being decoded, or pixels encoded. -/
  | blocks
  /-- 3: the end marker is to be read or written. -/
  | trailer
  /-- 4: the pass ended without error. -/
  | done
  /-- 5: the pass ended with an error; CAUSE says which. -/
  | error
deriving DecidableEq, Repr

/-- CTRL.MODE: which pass START begins (R31). -/
inductive Mode where
  /-- MODE = 0. -/
  | decode
  /-- MODE = 1. -/
  | encode
deriving DecidableEq, Repr

/-- CAUSE (60_exceptions.md R301). Its codes are `Cause.code`; no other value is ever held (U7). -/
inductive Cause where
  /-- 0x00: PHASE is not ERROR. -/
  | noCause
  /-- 0x01: a byte of offsets 0..3 differs from "qoif". -/
  | fBadMagic
  /-- 0x02: byte 12 of the header is not 3 or 4. -/
  | fBadChannels
  /-- 0x03: byte 13 of the header is not 0 or 1. -/
  | fBadColorspace
  /-- 0x04: the header's width or height is negative. -/
  | fBadDimension
  /-- 0x05: the input ends before byte 13. -/
  | fTruncHeader
  /-- 0x06: the input ends before a needed block is complete. -/
  | fTruncBlock
  /-- 0x07: RUN(n) with n > REMAIN. -/
  | fRunOvershoot
  /-- 0x08: the end marker is wrong or short. -/
  | fEndMarker
  /-- 0x09: the pixel input ends with REMAIN > 0. -/
  | fPixelShort
  /-- 0x10: a block field out of range. -/
  | vFieldRange
  /-- 0x11: the encoder's configuration is out of range. -/
  | vConfig
  /-- 0x20: RUN_CNT ≥ 62 at the start of a pixel step. -/
  | iRunInvariant
deriving DecidableEq, Repr

/-- The input ports (R60). -/
inductive InPort where
  | inByte
  | inPix
deriving DecidableEq, Repr

/-- The output ports (R60). -/
inductive OutPort where
  | outByte
  | outPix
deriving DecidableEq, Repr

/-- The host's atomic actions (R64). -/
inductive HostAction where
  /-- `csr_read(index)` (R30). -/
  | csrRead (index : Nat)
  /-- `csr_write(index, v)` (R30). -/
  | csrWrite (index : Nat) (v : Word)
  /-- `supply(IN_BYTE, x)`. -/
  | supplyByte (x : Byte)
  /-- `supply(IN_PIX, v)`, `v` a packed pixel. -/
  | supplyPix (v : Word)
  /-- `end_input(port)`. -/
  | endInput (p : InPort)
  /-- `take(port)`. -/
  | take (p : OutPort)
deriving DecidableEq, Repr

/-- What a host action returns to the host (R64): a register's value, or the element taken from an output port. -/
inductive HostValue where
  | csr (index : Nat) (v : Word)
  | byte (x : Byte)
  | pixel (v : Word)
deriving DecidableEq, Repr

/-- Whose turn it is: the core's, the host's with one action, or a reset from outside (R64, R340; DESIGN CHOICE, log entry 1). -/
inductive Turn where
  | core
  | host (act : HostAction)
  | reset
deriving DecidableEq, Repr

/-- Everything the spec gives the core (10_state.md), and two fields of the model's own, `agenda` and `received`. -/
structure State where
  /-- CACHE[0..63] (R20). -/
  cache : Vector Pixel Config.cacheSlots
  /-- LAST (R23). -/
  last : Pixel
  /-- RUN_CNT, 6 bits (R24). -/
  runCnt : BitVec 6
  /-- REMAIN, 64 bits (R25). -/
  remain : BitVec 64
  /-- PHASE (R26). -/
  phase : Phase
  /-- CAUSE (R32, R301). -/
  cause : Cause
  /-- CTRL.MODE (R31). -/
  mode : Mode
  /-- CTRL.ENFORCE_END (R31). -/
  enforceEnd : Bool
  /-- CTRL.ENC_RGB (R31). -/
  encRgb : Bool
  /-- WIDTH (R33). -/
  width : Word
  /-- HEIGHT (R34). -/
  height : Word
  /-- FORMAT.CHANNELS (R35). -/
  channels : Byte
  /-- FORMAT.COLORSPACE (R35). -/
  colorspace : Byte
  /-- IN_BYTE: bytes supplied and not yet taken, oldest first (R37). -/
  inByte : List Byte
  /-- The END flag of IN_BYTE (R37). -/
  inByteEnd : Bool
  /-- IN_PIX: packed pixels supplied and not yet taken, oldest first (R37). -/
  inPix : List Word
  /-- The END flag of IN_PIX (R37). -/
  inPixEnd : Bool
  /-- OUT_BYTE: bytes emitted and not yet taken by the host, oldest first (R37). -/
  outByte : List Byte
  /-- OUT_PIX: packed pixels emitted and not yet taken by the host, oldest first (R37). -/
  outPix : List Word
  /-- The model's own: the turns to come, next first; when it is empty every turn is the core's (log entry 1). -/
  agenda : List Turn
  /-- The model's own: what the host's reads and takes returned to it, oldest first (log entry 2). -/
  received : List HostValue
deriving DecidableEq, Repr

/-- The model's only stop. -/
inductive Fault where
  /-- Raised by a block's meaning and by the encoder's pixel step when REMAIN is smaller than the pixels the step accounts
  for. The spec gives REMAIN no value there: these steps run only with REMAIN > 0, and RUN checks its length (R223, R225,
  R252). No run reaches it. Safe (log entry 5). -/
  | remainUnderflow
deriving DecidableEq, Repr

/-- Why the model gives an instruction no meaning. -/
inductive Refusal where
  /-- Raised by `exec` for an instruction whose meaning is not written. Safe. No arm of `exec` raises it. -/
  | notModelled (mnemonic : String)
deriving DecidableEq, Repr

/-- What one step of this machine answers. -/
abbrev Outcome := Host.Outcome State Fault Refusal

/-- The state after reset: the table of R39. -/
def State.reset : State where
  cache := Vector.replicate Config.cacheSlots Config.cacheSentinel
  last := Config.lastSentinel
  runCnt := 0#6
  remain := 0#64
  phase := .idle
  cause := .noCause
  mode := .decode
  enforceEnd := false
  encRgb := false
  width := 0#32
  height := 0#32
  channels := 4#8
  colorspace := 0#8
  inByte := []
  inByteEnd := false
  inPix := []
  inPixEnd := false
  outByte := []
  outPix := []
  agenda := []
  received := []

end Sys2Proof.Machine
end

