-- ==== Sys2Proof/Machine/Operands.lean ====
section
/-! DEFINITION. Operand forms: pixel packing (spec/40_header_pixel.md R124), channel arithmetic (R128, R129), the colour
hash (41_prediction.md R150), and the pixel each single-pixel block stands for (42_block_codec.md R175 to R179). -/

namespace Sys2Proof.Machine

/-- `fromPacked(v)`: `(v[23:16], v[15:8], v[7:0], v[31:24])` (R124). -/
def fromPacked (v : Word) : Pixel where
  r := v.extractLsb' 16 8
  g := v.extractLsb' 8 8
  b := v.extractLsb' 0 8
  a := v.extractLsb' 24 8

/-- `toPacked((r, g, b, a))`: the concatenation of a, r, g, b, a in the high bits (R124). -/
def toPacked (p : Pixel) : Word := p.a ++ p.r ++ p.g ++ p.b

/-- `sext_8(v)` for `v` in 0..255 (00_scope.md section 5). -/
def sext8 (v : Int) : Int := if v < 128 then v else v - 256

/-- `sdiff8(x, y)`: the wraparound difference, in −128..127 (R128). -/
def sdiff8 (x y : Byte) : Int := sext8 (((x.toNat : Int) - y.toNat) % 256)

/-- `addc(x, d) = (x + d) mod 256` (R129). -/
def addc (x : Byte) (d : Int) : Byte := BitVec.ofInt 8 (((x.toNat : Int) + d) % 256)

/-- `hash(p)`: the slot of a pixel (R150). -/
def pixelHash (p : Pixel) : Slot :=
  Fin.ofNat Config.cacheSlots (p.r.toNat * 3 + p.g.toNat * 5 + p.b.toNat * 7 + p.a.toNat * 11)

/-- The slot an INDEX block names (R177). -/
def slotOf (k : Int) : Slot := Fin.ofNat Config.cacheSlots k.toNat

/-- A channel value carried by a block, as the channel (R93). -/
def channelOf (x : Int) : Byte := BitVec.ofInt 8 x

/-- `pixel_of(RGB(r, g, b))`: alpha is carried over from LAST (R175). -/
def pixelOfRgb (r g b : Int) (last : Pixel) : Pixel := ⟨channelOf r, channelOf g, channelOf b, last.a⟩

/-- `pixel_of(RGBA(r, g, b, a))` (R176). -/
def pixelOfRgba (r g b a : Int) : Pixel := ⟨channelOf r, channelOf g, channelOf b, channelOf a⟩

/-- `pixel_of(DIFF(dr, dg, db))`: alpha is unchanged (R178). -/
def pixelOfDiff (dr dg db : Int) (last : Pixel) : Pixel := ⟨addc last.r dr, addc last.g dg, addc last.b db, last.a⟩

/-- `pixel_of(LUMA(dg, drdg, dbdg))`: with `dr = dg + drdg` and `db = dg + dbdg` (R179). -/
def pixelOfLuma (dg drdg dbdg : Int) (last : Pixel) : Pixel :=
  ⟨addc last.r (dg + drdg), addc last.g dg, addc last.b (dg + dbdg), last.a⟩

end Sys2Proof.Machine
end

