-- ==== Sys2Proof/Machine/Flags.lean ====
section
/-! DEFINITION. The two transient flags, REPEAT and HIT (spec/10_state.md R29), which exist only within a step, and the
codes, classes and signals computed from PHASE and CAUSE (R26, R32, 60_exceptions.md R300, R301, R307). -/

namespace Sys2Proof.Machine

/-- REPEAT, the result of `advance(p)`: the pixel equals LAST (R153). -/
def repeatFlag (p : Pixel) (s : State) : Bool := decide (p = s.last)

/-- HIT, the result of `observe(p)`: the slot that already holds the pixel, or no match (R152). -/
def hitFlag (p : Pixel) (s : State) : Option Slot := if s.cache.get (pixelHash p) = p then some (pixelHash p) else none

/-- The code of PHASE (R26). -/
def Phase.code : Phase → BitVec 3
  | .idle => 0#3
  | .header => 1#3
  | .blocks => 2#3
  | .trailer => 3#3
  | .done => 4#3
  | .error => 5#3

/-- The code of CAUSE (R301). -/
def Cause.code : Cause → Byte
  | .noCause => 0x00#8
  | .fBadMagic => 0x01#8
  | .fBadChannels => 0x02#8
  | .fBadColorspace => 0x03#8
  | .fBadDimension => 0x04#8
  | .fTruncHeader => 0x05#8
  | .fTruncBlock => 0x06#8
  | .fRunOvershoot => 0x07#8
  | .fEndMarker => 0x08#8
  | .fPixelShort => 0x09#8
  | .vFieldRange => 0x10#8
  | .vConfig => 0x11#8
  | .iRunInvariant => 0x20#8

/-- The three classes of errors (R300). -/
inductive ErrorClass where
  /-- A malformed input. -/
  | formatError
  /-- An out-of-range value given to the core. -/
  | valueError
  /-- A failed internal invariant. -/
  | internalFault
deriving DecidableEq, Repr

/-- The class of a cause, from bits 7:4 of its code (R300); no cause has no class. -/
def Cause.errorClass (c : Cause) : Option ErrorClass :=
  if c = .noCause then none
  else
    match c.code.toNat / 16 with
    | 0 => some .formatError
    | 1 => some .valueError
    | _ => some .internalFault

/-- STATUS.BUSY: 1 exactly when PHASE is HEADER, BLOCKS or TRAILER (R32). -/
def Phase.isBusy : Phase → Bool
  | .idle => false
  | .header => true
  | .blocks => true
  | .trailer => true
  | .done => false
  | .error => false

/-- The level signal a platform may wire as an interrupt: PHASE is DONE or ERROR (R307). -/
def passEnded (s : State) : Bool := decide (s.phase = .done ∨ s.phase = .error)

end Sys2Proof.Machine
end

