-- ==== Sys2Proof/Machine/Ops.lean ====
section
/-! DEFINITION. The operations every step is built from: error entry (spec/60_exceptions.md R302) and the ways out of an
error (R304), the prediction state's operations (41_prediction.md), the stream primitives (00_scope.md section 5), and the
end of the block stream (43_decoder.md R226). -/

namespace Sys2Proof.Machine

/-! ### Error entry, and what ends an error -/

/-- `raise E(c)`: PHASE ← ERROR, CAUSE ← c, and nothing else (R302). The rest of the step is not run by its caller. -/
def raise (c : Cause) (s : State) : State := { s with phase := .error, cause := c }

/-- Empties all four port lists and clears both END flags (R343, R345). -/
def clearPorts (s : State) : State :=
  { s with inByte := [], inByteEnd := false, inPix := [], inPixEnd := false, outByte := [], outPix := [] }

/-- What START does after it has latched the options: the prediction state and the counters of a fresh pass, no cause, empty
ports, PHASE ← HEADER (R343). -/
def startPass (s : State) : State :=
  { clearPorts s with
    cache := Vector.replicate Config.cacheSlots Config.cacheSentinel
    last := Config.lastSentinel
    runCnt := 0#6
    remain := 0#64
    cause := .noCause
    phase := .header }

/-- ABORT: PHASE ← IDLE, CAUSE ← 0, empty ports, nothing else (R345). -/
def abortPass (s : State) : State := { clearPorts s with phase := .idle, cause := .noCause }

/-- Reset, in any phase: every piece of the core's state takes its reset value (R340). The two fields of the model's own
belong to the environment and stay (log entry 1). -/
def resetCore (s : State) : State := { State.reset with agenda := s.agenda, received := s.received }

/-! ### Prediction state -/

/-- `CacheRead(i)`, which is also `lookup(i)` (R151). -/
def cacheRead (k : Slot) (s : State) : Pixel := s.cache.get k

/-- `CacheWrite(i, p)` (00_scope.md section 5). -/
def cacheWrite (k : Slot) (p : Pixel) (s : State) : State := { s with cache := s.cache.set k p }

/-- `LAST ← p`. -/
def setLast (p : Pixel) (s : State) : State := { s with last := p }

/-- `observe(p)`: HIT, and the state after it (R152). -/
def observe (p : Pixel) (s : State) : Option Slot × State :=
  (hitFlag p s, if (hitFlag p s).isSome then s else cacheWrite (pixelHash p) p s)

/-- `advance(p)`: REPEAT, and the state after it (R153). -/
def advance (p : Pixel) (s : State) : Bool × State :=
  (repeatFlag p s, if repeatFlag p s then s else setLast p s)

/-! ### Streams -/

/-- `emit_bytes(bs)` (R66). -/
def emitBytes (bs : List Byte) (s : State) : State := { s with outByte := s.outByte ++ bs }

/-- `emit_pixel(toPacked(p))` for each pixel in order (R66, R124). -/
def emitPixels (ps : List Pixel) (s : State) : State := { s with outPix := s.outPix ++ ps.map toPacked }

/-- Removes the `n` oldest bytes of IN_BYTE (`take_bytes`, R70). -/
def dropBytes (n : Nat) (s : State) : State := { s with inByte := s.inByte.drop n }

/-- Removes the oldest pixel of IN_PIX (`take_pixel`, R70). -/
def dropPixel (s : State) : State := { s with inPix := s.inPix.drop 1 }

/-- `emit B`: the validated bytes of the block, then the rest of the step; a field out of range raises V_FIELD_RANGE, emits
nothing and ends the step (R173). -/
def emitBlock (i : Instr) (s : State) (rest : State → State) : State :=
  match encodeBlock i with
  | some bs => rest (emitBytes bs s)
  | none => raise .vFieldRange s

/-- The end-of-stream marker (30_encoding.md R92). -/
def endMarker : List Byte := [0x00#8, 0x00#8, 0x00#8, 0x00#8, 0x00#8, 0x00#8, 0x00#8, 0x01#8]

/-! ### Counters and phases -/

/-- `REMAIN ← v`. -/
def setRemain (v : BitVec 64) (s : State) : State := { s with remain := v }

/-- `RUN_CNT ← v`. -/
def setRunCnt (v : BitVec 6) (s : State) : State := { s with runCnt := v }

/-- `PHASE ← ph`. -/
def setPhase (ph : Phase) (s : State) : State := { s with phase := ph }

/-- `finish_blocks()` (R226). -/
def finishBlocks (s : State) : State := setPhase (if s.enforceEnd then .trailer else .done) s

/-- The end of a block step: emit the block's pixels, decrease REMAIN by their number, and end the block stream when it
reaches 0 (R223). -/
def retire (ps : List Pixel) (s : State) : Outcome :=
  if s.remain.toNat < ps.length then .fault .remainUnderflow
  else
    let s1 := setRemain (s.remain - BitVec.ofNat 64 ps.length) (emitPixels ps s)
    .next (if s1.remain = 0#64 then finishBlocks s1 else s1)

/-- A block of one pixel `p`: `observe(p)`, then `advance(p)`, both results ignored, then the end of the step (R172, R223). -/
def producePixel (p : Pixel) (s : State) : Outcome := retire [p] (advance p (observe p s).2).2

/-- Runs `k` for a block whose fields are in range. Any other term is no block (R170): the decoder never answers one, and
an out-of-range block field given to the core is V_FIELD_RANGE (R300; DESIGN CHOICE, log entry 6). -/
def validated (i : Instr) (s : State) (k : State → Outcome) : Outcome :=
  if i.wellFormed then k s else .next (raise .vFieldRange s)

end Sys2Proof.Machine
end

