-- ==== Sys2Proof/Machine/Cached.lean ====
section
/-! DEFINITION. The block that reads the colour cache: INDEX (spec/42_block_codec.md R177). -/

namespace Sys2Proof.Machine

/-- `INDEX i`: the colour in slot `i`, whether or not the slot was ever written (R177). -/
def execIndex (k : Int) (s : State) : Outcome :=
  validated (.index k) s fun s => producePixel (cacheRead (slotOf k) s) s

end Sys2Proof.Machine
end

