-- ==== Sys2Proof/Machine/Delta.lean ====
section
/-! DEFINITION. The blocks that change LAST by channel deltas: DIFF and LUMA (spec/42_block_codec.md R178, R179). -/

namespace Sys2Proof.Machine

/-- `DIFF dr, dg, db`: a small change of r, g and b from LAST (R178). -/
def execDiff (dr dg db : Int) (s : State) : Outcome :=
  validated (.diff dr dg db) s fun s => producePixel (pixelOfDiff dr dg db s.last) s

/-- `LUMA dg, drdg, dbdg`: a change of green, with red and blue relative to it (R179). -/
def execLuma (dg drdg dbdg : Int) (s : State) : Outcome :=
  validated (.luma dg drdg dbdg) s fun s => producePixel (pixelOfLuma dg drdg dbdg s.last) s

end Sys2Proof.Machine
end

