-- ==== Sys2Proof/Machine/Literal.lean ====
section
/-! DEFINITION. The blocks that carry a full colour: RGB and RGBA (spec/42_block_codec.md R175, R176). -/

namespace Sys2Proof.Machine

/-- `RGB r, g, b`: a full colour with the alpha of LAST (R175). -/
def execRgb (r g b : Int) (s : State) : Outcome :=
  validated (.rgb r g b) s fun s => producePixel (pixelOfRgb r g b s.last) s

/-- `RGBA r, g, b, a`: a full colour with its own alpha (R176). -/
def execRgba (r g b a : Int) (s : State) : Outcome :=
  validated (.rgba r g b a) s fun s => producePixel (pixelOfRgba r g b a) s

end Sys2Proof.Machine
end

