-- ==== Sys2Proof/Machine/Run.lean ====
section
/-! DEFINITION. The block that repeats LAST: RUN (spec/42_block_codec.md R180, 43_decoder.md R225). -/

namespace Sys2Proof.Machine

/-- `RUN n`: `n` copies of LAST, no update of CACHE or LAST; a run longer than REMAIN raises F_RUN_OVERSHOOT before any of
its pixels is emitted (R180, R225). -/
def execRun (n : Int) (s : State) : Outcome :=
  validated (.run n) s fun s =>
    if s.remain.toNat < n.toNat then .next (raise .fRunOvershoot s) else retire (List.replicate n.toNat s.last) s

end Sys2Proof.Machine
end

