-- ==== Sys2Proof/Machine/Dispatch.lean ====
section
/-! DEFINITION. One arm per block variant (spec/opcode_table.json, 42_block_codec.md R172). -/

namespace Sys2Proof.Machine

/-- The effect of a block in a decode pass, its bytes already taken from IN_BYTE (43_decoder.md R223). -/
def exec (i : Instr) (s : State) : Host.Outcome State Fault Refusal :=
  match i with
  | .rgb r g b => Sys2Proof.Machine.execRgb r g b s
  | .rgba r g b a => Sys2Proof.Machine.execRgba r g b a s
  | .index k => Sys2Proof.Machine.execIndex k s
  | .diff dr dg db => Sys2Proof.Machine.execDiff dr dg db s
  | .luma dg drdg dbdg => Sys2Proof.Machine.execLuma dg drdg dbdg s
  | .run n => Sys2Proof.Machine.execRun n s

end Sys2Proof.Machine
end

