-- ==== Sys2Proof/Machine/Header.lean ====
section
/-! DEFINITION. The header codec and its checks (spec/30_encoding.md R91, 40_header_pixel.md R120 to R123, R127). -/

namespace Sys2Proof.Machine

/-- The bytes of "qoif" (R91). -/
def magic : List Byte := [0x71#8, 0x6F#8, 0x69#8, 0x66#8]

/-- The length of the header (R90). -/
abbrev headerLength : Nat := 14

/-- `be32(v)`: most significant byte first (R120). -/
def be32 (v : Word) : List Byte := [v.extractLsb' 24 8, v.extractLsb' 16 8, v.extractLsb' 8 8, v.extractLsb' 0 8]

/-- The 32-bit value of four bytes, most significant first (R121). -/
def ofBe32 (b0 b1 b2 b3 : Byte) : Word := b0 ++ b1 ++ b2 ++ b3

/-- `encode_header(w, h, ch, cs)`, `w` and `h` as the two's-complement words of their values (R120). -/
def encodeHeader (w h : Word) (ch cs : Byte) : List Byte := magic ++ be32 w ++ be32 h ++ [ch, cs]

/-- The fields of a header (R121). -/
structure HeaderFields where
  width : Word
  height : Word
  channels : Byte
  colorspace : Byte
deriving DecidableEq, Repr

/-- `decode_header(b)` of 14 header bytes (R121). -/
def decodeHeader (b : List Byte) : HeaderFields where
  width := ofBe32 (b.getD 4 0#8) (b.getD 5 0#8) (b.getD 6 0#8) (b.getD 7 0#8)
  height := ofBe32 (b.getD 8 0#8) (b.getD 9 0#8) (b.getD 10 0#8) (b.getD 11 0#8)
  channels := b.getD 12 0#8
  colorspace := b.getD 13 0#8

/-- CHANNELS is 3 (RGB) or 4 (RGBA) (R91, R35). -/
abbrev legalChannels (ch : Byte) : Prop := ch = 3#8 ∨ ch = 4#8

/-- COLORSPACE is 0 (sRGB) or 1 (Linear) (R91, R35). -/
abbrev legalColorspace (cs : Byte) : Prop := cs = 0#8 ∨ cs = 1#8

/-- The value of a dimension register, read as s32 (R4, R121). -/
def s32 (v : Word) : Int := v.toInt

/-- A dimension that is negative as s32 (R123, R251). -/
abbrev negative (v : Word) : Prop := s32 v < 0

/-- The check R221 makes at offset `k` of the header bytes `b`: the truncation first, then the field the byte belongs to. -/
def headerProblemAt (b : List Byte) (k : Nat) : Option Cause :=
  match b[k]? with
  | none => some .fTruncHeader
  | some x =>
    if k ≤ 3 ∧ x ≠ magic.getD k 0#8 then some .fBadMagic
    else if k = 12 ∧ ¬ legalChannels x then some .fBadChannels
    else if k = 13 ∧ ¬ legalColorspace x then some .fBadColorspace
    else none

/-- The first problem a sequential reader of the header meets (R221): the bytes in stream order, then the dimensions. -/
def headerProblem (b : List Byte) : Option Cause :=
  match (List.range headerLength).findSome? (headerProblemAt b) with
  | some c => some c
  | none => if negative (decodeHeader b).width ∨ negative (decodeHeader b).height then some .fBadDimension else none

/-- The exact product of two dimensions, as REMAIN holds it (R127). -/
def pixelCount (w h : Word) : BitVec 64 := BitVec.ofInt 64 (s32 w * s32 h)

/-- `WIDTH, HEIGHT, FORMAT ←` the header's fields (R222). -/
def writeHeader (f : HeaderFields) (s : State) : State :=
  { s with width := f.width, height := f.height, channels := f.channels, colorspace := f.colorspace }

end Sys2Proof.Machine
end

