-- ==== Sys2Proof/Machine/DecodePass.lean ====
section
/-! DEFINITION. The steps of a decode pass (spec/43_decoder.md). A step that is not enabled holds: the core's turn passes
and no state changes (20_memory.md R63, 60_exceptions.md R313; DEDUCED, log entry 3). -/

namespace Sys2Proof.Machine

/-- `accept_header` (R222). -/
def acceptHeader (f : HeaderFields) (s : State) : State :=
  let s1 := setRemain (pixelCount f.width f.height) (writeHeader f s)
  if s1.remain = 0#64 then finishBlocks s1 else setPhase .blocks s1

/-- The decode header step (R221): it holds for 14 bytes or END, takes at most 14 bytes, and raises the first problem or
accepts the header. -/
def headerStep (s : State) : State :=
  if s.inByte.length < headerLength ∧ ¬ s.inByteEnd then s
  else
    let b := s.inByte.take headerLength
    let s1 := dropBytes headerLength s
    match headerProblem b with
    | some c => raise c s1
    | none => acceptHeader (decodeHeader b) s1

/-- The decode block step (R223): when the whole next block is pending, its bytes are taken and the block runs; when it is
not, the step raises F_TRUNC_BLOCK after END (R224; the incomplete bytes are not taken, log entry 9) and holds before it. -/
def blockStep (s : State) : Outcome :=
  match decode s.inByte with
  | .block i rest => exec i { s with inByte := rest }
  | .rejected _ => .next (if s.inByteEnd then raise .fTruncBlock s else s)

/-- The decode trailer step (R227). -/
def trailerStep (s : State) : State :=
  if s.inByte.length < endMarker.length ∧ ¬ s.inByteEnd then s
  else
    let e := s.inByte.take endMarker.length
    let s1 := dropBytes endMarker.length s
    if e = endMarker then setPhase .done s1 else raise .fEndMarker s1

end Sys2Proof.Machine
end

