-- ==== Sys2Proof/Machine/EncodePass.lean ====
section
/-! DEFINITION. The steps of an encode pass, the delta unit and the block selection (spec/44_encoder.md). -/

namespace Sys2Proof.Machine

/-- `check_config` passes (R251). -/
abbrev legalConfig (s : State) : Prop :=
  ¬ negative s.width ∧ ¬ negative s.height ∧ legalChannels s.channels ∧ legalColorspace s.colorspace

/-- The encode header step (R250); it needs no input. -/
def encHeaderStep (s : State) : State :=
  if legalConfig s then
    let s1 := emitBytes (encodeHeader s.width s.height s.channels s.colorspace) s
    let s2 := setRunCnt 0#6 (setRemain (pixelCount s.width s.height) s1)
    setPhase (if s2.remain = 0#64 then .trailer else .blocks) s2
  else raise .vConfig s

/-- All three deltas fit a DIFF block (R259). -/
abbrev fitsDiff (dr dg db : Int) : Prop := inRange (-2) 1 dr ∧ inRange (-2) 1 dg ∧ inRange (-2) 1 db

/-- The deltas fit a LUMA block; the two differences are plain integers (R258, R260). -/
abbrev fitsLuma (dr dg db : Int) : Prop := inRange (-32) 31 dg ∧ inRange (-8) 7 (dr - dg) ∧ inRange (-8) 7 (db - dg)

/-- Steps 5 to 7 of the selection, for a pixel with LAST's alpha and deltas `dr`, `dg`, `db` (R259 to R261). -/
def selectByDeltas (p : Pixel) (dr dg db : Int) (encRgb : Bool) : Instr :=
  if fitsDiff dr dg db then .diff dr dg db
  else if fitsLuma dr dg db then .luma dg (dr - dg) (db - dg)
  else if encRgb then .rgb p.r.toNat p.g.toNat p.b.toNat
  else .rgba p.r.toNat p.g.toNat p.b.toNat p.a.toNat

/-- The block of a pixel `p` that is not a repeat, from HIT, LAST as it stood before `p`, and CTRL.ENC_RGB: steps 3 to 7 of
the selection, in order (R256 to R261). The delta unit is three independent lanes, each a signed 8-bit wraparound difference
(R258, R130). -/
def selectBlock (hit : Option Slot) (p last : Pixel) (encRgb : Bool) : Instr :=
  match hit with
  | some k => .index k.val
  | none =>
    if p.a ≠ last.a then .rgba p.r.toNat p.g.toNat p.b.toNat p.a.toNat
    else selectByDeltas p (sdiff8 p.r last.r) (sdiff8 p.g last.g) (sdiff8 p.b last.b) encRgb

/-- Emits the pending RUN block, if there is one, and clears RUN_CNT; then the rest of the step (R255, R264). -/
def flushRun (s : State) (rest : State → State) : State :=
  if s.runCnt = 0#6 then rest s else emitBlock (.run s.runCnt.toNat) s fun s1 => rest (setRunCnt 0#6 s1)

/-- A repeat: RUN_CNT counts it, and at 62 the same step emits RUN(62) and clears RUN_CNT; then the rest of the step (R254). -/
def countRepeat (s : State) (rest : State → State) : State :=
  let s1 := setRunCnt (s.runCnt + 1#6) s
  if s1.runCnt = 62#6 then flushRun s1 rest else rest s1

/-- The end of a pixel step (R262). -/
def endPixel (s : State) : State := if s.remain = 0#64 then setPhase .trailer s else s

/-- Steps 1 to 7 for one taken pixel (R252 to R261). -/
def encodePixel (p : Pixel) (s : State) : State :=
  let (isRepeat, s1) := advance p s
  if isRepeat then countRepeat s1 endPixel
  else flushRun s1 fun s2 => emitBlock (selectBlock (observe p s2).1 p s.last s.encRgb) (observe p s2).2 endPixel

/-- The encode pixel step (R252): it holds for a pixel or END (log entry 4 for the order of the hold and the invariant's
check), checks the run counter, raises F_PIXEL_SHORT when the input has ended (R263), else takes and encodes one pixel. -/
def pixelStep (s : State) : Outcome :=
  if s.inPix = [] ∧ ¬ s.inPixEnd then .next s
  else if Config.maxRun ≤ s.runCnt.toNat then .next (raise .iRunInvariant s)
  else
    match s.inPix with
    | [] => .next (raise .fPixelShort s)
    | v :: _ =>
      if s.remain = 0#64 then .fault .remainUnderflow
      else .next (encodePixel (fromPacked v) (setRemain (s.remain - 1#64) (dropPixel s)))

/-- The encode trailer step (R264); it needs no input. -/
def encTrailerStep (s : State) : State := flushRun s fun s1 => setPhase .done (emitBytes endMarker s1)

end Sys2Proof.Machine
end

