-- ==== Sys2Proof/Machine/HostPort.lean ====
section
/-! DEFINITION. The host's actions: control and status registers (spec/10_state.md R30 to R36, 70_reset_and_hazards.md R343
to R346) and the stream ports (20_memory.md R64). -/

namespace Sys2Proof.Machine

/-- MODE as its bit (R31). -/
def Mode.bit : Mode → Bool
  | .decode => false
  | .encode => true

/-- MODE of its bit (R31). -/
def modeOfBit (b : Bool) : Mode := if b then .encode else .decode

/-- CTRL as it is read: bits 4, 3 and 2 are ENC_RGB, ENFORCE_END and MODE; START, ABORT and the reserved bits read 0 (R31). -/
def readCtrl (s : State) : Word :=
  0#27 ++ BitVec.ofBool s.encRgb ++ BitVec.ofBool s.enforceEnd ++ BitVec.ofBool s.mode.bit ++ 0#2

/-- STATUS.CAUSE: 0 when PHASE is not ERROR (R32). -/
def statusCause (s : State) : Byte := if s.phase = .error then s.cause.code else 0#8

/-- STATUS: CAUSE in bits 15:8, BUSY in bit 3, PHASE in bits 2:0 (R32). -/
def readStatus (s : State) : Word :=
  0#16 ++ statusCause s ++ 0#4 ++ BitVec.ofBool s.phase.isBusy ++ s.phase.code

/-- FORMAT: COLORSPACE in bits 15:8, CHANNELS in bits 7:0 (R35). -/
def readFormat (s : State) : Word := 0#16 ++ s.colorspace ++ s.channels

/-- `csr_read(index)`; an index not in the table reads 0 (R30 to R36). -/
def csrRead (index : Nat) (s : State) : Word :=
  match index with
  | 0 => readCtrl s
  | 1 => readStatus s
  | 2 => s.width
  | 3 => s.height
  | 4 => readFormat s
  | 5 => s.remain.extractLsb' 0 32
  | 6 => s.remain.extractLsb' 32 32
  | _ => 0#32

/-- MODE, ENFORCE_END and ENC_RGB from bits 2, 3 and 4 of a CTRL write (R31). -/
def writeOptions (v : Word) (s : State) : State :=
  { s with mode := modeOfBit (v.getLsbD 2), enforceEnd := v.getLsbD 3, encRgb := v.getLsbD 4 }

/-- A write of CTRL: ABORT (bit 1) acts in any phase and wins over START (R344, R345); while BUSY nothing else acts (R31);
otherwise the options are latched and START (bit 0) begins a pass (R343). -/
def writeCtrl (v : Word) (s : State) : State :=
  if v.getLsbD 1 then abortPass s
  else if s.phase.isBusy then s
  else if v.getLsbD 0 then startPass (writeOptions v s)
  else writeOptions v s

/-- `csr_write(index, v)`: STATUS, REMAIN_LO, REMAIN_HI and any index not in the table ignore writes (R30, R32, R36), and WIDTH,
HEIGHT and FORMAT ignore them while BUSY (R346). -/
def csrWrite (index : Nat) (v : Word) (s : State) : State :=
  match index with
  | 0 => writeCtrl v s
  | 2 => if s.phase.isBusy then s else { s with width := v }
  | 3 => if s.phase.isBusy then s else { s with height := v }
  | 4 => if s.phase.isBusy then s else { s with channels := v.extractLsb' 0 8, colorspace := v.extractLsb' 8 8 }
  | _ => s

/-- Gives the host a value. -/
def giveHost (v : HostValue) (s : State) : State := { s with received := s.received ++ [v] }

/-- `supply(IN_BYTE, x)`: ignored once END is set (R64). -/
def supplyByte (x : Byte) (s : State) : State := if s.inByteEnd then s else { s with inByte := s.inByte ++ [x] }

/-- `supply(IN_PIX, v)`: ignored once END is set (R64). -/
def supplyPix (v : Word) (s : State) : State := if s.inPixEnd then s else { s with inPix := s.inPix ++ [v] }

/-- `end_input(port)` (R64). -/
def endInput (p : InPort) (s : State) : State :=
  match p with
  | .inByte => { s with inByteEnd := true }
  | .inPix => { s with inPixEnd := true }

/-- `take(port)`: the oldest element, if there is one (R64). -/
def takeOutput (p : OutPort) (s : State) : State :=
  match p with
  | .outByte =>
    match s.outByte with
    | [] => s
    | x :: rest => giveHost (.byte x) { s with outByte := rest }
  | .outPix =>
    match s.outPix with
    | [] => s
    | v :: rest => giveHost (.pixel v) { s with outPix := rest }

/-- One host action, atomic (R64). -/
def hostStep (act : HostAction) (s : State) : State :=
  match act with
  | .csrRead k => giveHost (.csr k (csrRead k s)) s
  | .csrWrite k v => csrWrite k v s
  | .supplyByte x => supplyByte x s
  | .supplyPix v => supplyPix v s
  | .endInput p => endInput p s
  | .take p => takeOutput p s

end Sys2Proof.Machine
end

