-- ==== Sys2Proof/Machine/Turns.lean ====
section
/-! DEFINITION. Whose turn it is and what happens in it (spec/20_memory.md R64, R65, R67; DESIGN CHOICE, log entry 1). -/

namespace Sys2Proof.Machine

/-- One core step: the step of the phase and mode; in IDLE, DONE and ERROR none is enabled (R65, R71). -/
def coreStep (s : State) : Outcome :=
  match s.phase, s.mode with
  | .header, .decode => .next (headerStep s)
  | .blocks, .decode => blockStep s
  | .trailer, .decode => .next (trailerStep s)
  | .header, .encode => .next (encHeaderStep s)
  | .blocks, .encode => pixelStep s
  | .trailer, .encode => .next (encTrailerStep s)
  | .idle, _ => .next s
  | .done, _ => .next s
  | .error, _ => .next s

/-- One turn: the next of the agenda, or the core's when the agenda is empty. -/
def takeTurn (s : State) : Outcome :=
  match s.agenda with
  | [] => coreStep s
  | .core :: later => coreStep { s with agenda := later }
  | .host act :: later => .next (hostStep act { s with agenda := later })
  | .reset :: later => .next (resetCore { s with agenda := later })

/-- Lays bytes where the block step reads its next block: over the oldest pending bytes of IN_BYTE. -/
def placeBytes (bs : List Byte) (s : State) : State := { s with inByte := bs ++ s.inByte.drop bs.length }

/-- Makes the very next step a decode block step: the core's turn, PHASE BLOCKS of a decode pass, and at least 62 pixels
remaining, so that every block may run (log entry 8). -/
def readyForBlock (s : State) : State :=
  { s with
    agenda := .core :: s.agenda
    phase := .blocks
    cause := .noCause
    mode := .decode
    remain := if s.remain.toNat < Config.maxRun then BitVec.ofNat 64 Config.maxRun else s.remain }

end Sys2Proof.Machine
end

