-- ==== Sys2Proof/Machine/Step.lean ====
section
/-! DEFINITION. The step function of the machine (spec/20_memory.md R64, R65), and where the host lays the next instruction. -/

namespace Sys2Proof.Machine

/-- One step: a core step, a host action or a reset, as the agenda says. -/
def step (s : State) : Host.Outcome State Fault Refusal := takeTurn s

/-- `s` with a table word laid out as the next block of the input stream, in a decode pass that is decoding blocks. -/
def State.withFetchWord (s : State) (nbits w : Nat) : State := placeBytes (tableBytes nbits w) (readyForBlock s)

end Sys2Proof.Machine
end

