-- ==== Sys2Proof/Machine/Assembler.lean ====
section
/-! DEFINITION. The assembler syntax (spec/30_encoding.md R102 to R104): one line of text to the bytes it stands for. What the
rules leave open (blanks, letter case, the operand ranges of `.header`) is log entry 13. -/

namespace Sys2Proof.Machine

/-- A line: one block, or one of the two framing directives (R102, R103). -/
inductive AsmLine where
  | block (i : Instr)
  /-- `.header w, h, ch, cs`. -/
  | headerLine (w h ch cs : Int)
  /-- `.end`. -/
  | endLine
deriving DecidableEq, Repr

/-- The bytes of a line; `none` is the refusal of an operand out of range (R104). -/
def assembleLine : AsmLine → Option (List Byte)
  | .block i => encodeBlock i
  | .headerLine w h ch cs =>
    if inRange (-2147483648) 2147483647 w ∧ inRange (-2147483648) 2147483647 h ∧ inRange 0 255 ch ∧ inRange 0 255 cs then
      some (encodeHeader (BitVec.ofInt 32 w) (BitVec.ofInt 32 h) (BitVec.ofInt 8 ch) (BitVec.ofInt 8 cs))
    else none
  | .endLine => some endMarker

/-! ### From a line to its text -/

/-- The decimal digits of `n`, most significant first; `k` bounds their number. -/
def digitsText : Nat → Nat → List Char
  | 0, _ => []
  | k + 1, n => (if n < 10 then [] else digitsText k (n / 10)) ++ [Char.ofNat (48 + n % 10)]

/-- An operand in decimal, with a leading `-` for negatives (R102). -/
def operandText (x : Int) : List Char :=
  if x < 0 then '-' :: digitsText (x.natAbs + 1) x.natAbs else digitsText (x.natAbs + 1) x.natAbs

/-- A hexadecimal digit in capital or small letters. -/
def hexDigit (capital : Bool) (d : Fin 16) : Char :=
  if d.val < 10 then Char.ofNat (48 + d.val) else if capital then Char.ofNat (55 + d.val) else Char.ofNat (87 + d.val)

/-- Hexadecimal digits, each with its letter case, after `0x` (R102). -/
def hexText (ds : List (Bool × Fin 16)) : List Char := '0' :: 'x' :: ds.map fun d => hexDigit d.1 d.2

/-- The number of hexadecimal digits, most significant first. -/
def hexValue (ds : List (Bool × Fin 16)) : Nat := ds.foldl (fun acc d => acc * 16 + d.2.val) 0

/-- `cs` is a text of the operand `x` in one of the two forms of R102: decimal, or hexadecimal with at least one digit. -/
def SpellsOperand (cs : List Char) (x : Int) : Prop :=
  cs = operandText x ∨ ∃ ds, ds ≠ [] ∧ cs = hexText ds ∧ x = hexValue ds

/-- The operands of a line, each after a blank and separated by commas (R102). -/
def operandsText : List (List Char) → List Char
  | [] => []
  | [x] => ' ' :: x
  | x :: y :: xs => ' ' :: x ++ ',' :: operandsText (y :: xs)

/-- A line as R102 and R103 write it: the mnemonic or directive, then the operands, operand number `k` written by `w k`. -/
def lineTextBy (w : Nat → Int → List Char) : AsmLine → List Char
  | .block (.rgb r g b) => ['R', 'G', 'B'] ++ operandsText [w 0 r, w 1 g, w 2 b]
  | .block (.rgba r g b a) => ['R', 'G', 'B', 'A'] ++ operandsText [w 0 r, w 1 g, w 2 b, w 3 a]
  | .block (.index k) => ['I', 'N', 'D', 'E', 'X'] ++ operandsText [w 0 k]
  | .block (.diff dr dg db) => ['D', 'I', 'F', 'F'] ++ operandsText [w 0 dr, w 1 dg, w 2 db]
  | .block (.luma dg drdg dbdg) => ['L', 'U', 'M', 'A'] ++ operandsText [w 0 dg, w 1 drdg, w 2 dbdg]
  | .block (.run n) => ['R', 'U', 'N'] ++ operandsText [w 0 n]
  | .headerLine wd h ch cs => ['.', 'h', 'e', 'a', 'd', 'e', 'r'] ++ operandsText [w 0 wd, w 1 h, w 2 ch, w 3 cs]
  | .endLine => ['.', 'e', 'n', 'd']

/-- A line with its operands in decimal. -/
def lineText (l : AsmLine) : List Char := lineTextBy (fun _ => operandText) l

/-! ### From the text of a line to the line -/

/-- Removes blanks at both ends. -/
def trimBlanks (cs : List Char) : List Char :=
  ((cs.dropWhile (fun c => c == ' ')).reverse.dropWhile (fun c => c == ' ')).reverse

/-- The pieces of a text between its commas. -/
def splitCommas : List Char → List (List Char)
  | [] => [[]]
  | c :: cs =>
    if c = ',' then [] :: splitCommas cs
    else
      match splitCommas cs with
      | [] => [[c]]
      | piece :: more => (c :: piece) :: more

/-- A digit of the given base, 10 or 16. -/
def digitOf (base : Nat) (c : Char) : Option Nat :=
  let n := c.toNat
  if 48 ≤ n ∧ n ≤ 57 then some (n - 48)
  else if base = 16 ∧ 97 ≤ n ∧ n ≤ 102 then some (n - 87)
  else if base = 16 ∧ 65 ≤ n ∧ n ≤ 70 then some (n - 55)
  else none

/-- The value of a string of digits read after `acc`. -/
def digitsValue (base : Nat) : Nat → List Char → Option Nat
  | acc, [] => some acc
  | acc, c :: cs =>
    match digitOf base c with
    | some d => digitsValue base (acc * base + d) cs
    | none => none

/-- A non-negative operand: hexadecimal with `0x`, else decimal (R102). -/
def parseNat : List Char → Option Nat
  | [] => none
  | '0' :: 'x' :: c :: cs => digitsValue 16 0 (c :: cs)
  | c :: cs => digitsValue 10 0 (c :: cs)

/-- An operand: decimal, with a leading `-` for negatives, or hexadecimal with `0x` (R102). -/
def parseOperand (cs : List Char) : Option Int :=
  match trimBlanks cs with
  | '-' :: ds => (digitsValue 10 0 ds).bind fun n => if ds = [] then none else some (-(n : Int))
  | ds => (parseNat ds).map fun n : Nat => (n : Int)

/-- All operands of a line; no text is no operand. -/
def parseOperands (cs : List Char) : Option (List Int) :=
  if trimBlanks cs = [] then some [] else (splitCommas cs).mapM parseOperand

/-- The line a mnemonic or directive and its operands stand for (R102, R103). -/
def lineOf (word : List Char) (xs : List Int) : Option AsmLine :=
  if word = ['R', 'G', 'B'] then
    match xs with
    | [r, g, b] => some (.block (.rgb r g b))
    | _ => none
  else if word = ['R', 'G', 'B', 'A'] then
    match xs with
    | [r, g, b, a] => some (.block (.rgba r g b a))
    | _ => none
  else if word = ['I', 'N', 'D', 'E', 'X'] then
    match xs with
    | [k] => some (.block (.index k))
    | _ => none
  else if word = ['D', 'I', 'F', 'F'] then
    match xs with
    | [dr, dg, db] => some (.block (.diff dr dg db))
    | _ => none
  else if word = ['L', 'U', 'M', 'A'] then
    match xs with
    | [dg, drdg, dbdg] => some (.block (.luma dg drdg dbdg))
    | _ => none
  else if word = ['R', 'U', 'N'] then
    match xs with
    | [n] => some (.block (.run n))
    | _ => none
  else if word = ['.', 'h', 'e', 'a', 'd', 'e', 'r'] then
    match xs with
    | [w, h, ch, cs] => some (.headerLine w h ch cs)
    | _ => none
  else if word = ['.', 'e', 'n', 'd'] then
    match xs with
    | [] => some .endLine
    | _ => none
  else none

/-- Reads one line of text. -/
def parseLine (cs : List Char) : Option AsmLine :=
  let t := trimBlanks cs
  (parseOperands (t.dropWhile (fun c => c != ' '))).bind (lineOf (t.takeWhile (fun c => c != ' ')))

/-- The bytes of one line of text, or `none` where the assembler refuses it (R102 to R104). -/
def assemble (cs : List Char) : Option (List Byte) := (parseLine cs).bind assembleLine

end Sys2Proof.Machine
end

