-- ==== Sys2Proof/Safety.lean ====
section
/-! DEFINITION. What counts as a sound state and a safe run, in the terms claims use. -/

namespace Sys2Proof.Machine

/-- Every slot holds the sentinel or a pixel that hashes to it (spec/10_state.md R22). -/
def CacheSound (s : State) : Prop :=
  ∀ k : Slot, s.cache.get k = Config.cacheSentinel ∨ pixelHash (s.cache.get k) = k

/-- LAST is the initial sentinel, or the cache holds it at its own slot (41_prediction.md R155). -/
def LastSound (s : State) : Prop := s.last = Config.lastSentinel ∨ s.cache.get (pixelHash s.last) = s.last

/-- RUN_CNT between steps is 0..61 (R24), and 0 wherever no run can be pending: in HEADER and DONE, and in a decode pass. -/
def RunSound (s : State) : Prop :=
  s.runCnt.toNat < Config.maxRun ∧
    (s.phase = .header ∨ s.phase = .done ∨ (s.phase.isBusy = true ∧ s.mode = .decode) → s.runCnt = 0#6)

/-- REMAIN is positive in BLOCKS (R223, R252), 0 in HEADER, TRAILER and DONE, and never above the largest product of two
dimensions (00_scope.md R6). -/
def RemainSound (s : State) : Prop :=
  (s.phase = .blocks → s.remain ≠ 0#64) ∧
    (s.phase = .header ∨ s.phase = .trailer ∨ s.phase = .done → s.remain = 0#64) ∧
      s.remain.toNat ≤ (2 ^ 31 - 1) ^ 2

/-- CAUSE is 0 exactly when PHASE is not ERROR (R32, 60_exceptions.md R301). -/
def CauseSound (s : State) : Prop := s.cause = .noCause ↔ s.phase ≠ .error

/-- In BLOCKS and TRAILER, WIDTH, HEIGHT and FORMAT hold a legal header: the one accepted (43_decoder.md R222) or the one
checked (44_encoder.md R251), which no host write can change (70_reset_and_hazards.md R346). -/
def HeaderSound (s : State) : Prop := s.phase = .blocks ∨ s.phase = .trailer → legalConfig s

/-- The invariant of the machine: what holds at reset and every step keeps. -/
structure SoundState (s : State) : Prop where
  cache : CacheSound s
  last : LastSound s
  run : RunSound s
  remain : RemainSound s
  cause : CauseSound s
  header : HeaderSound s

/-- It is the core's turn in `s`, and `s1` is `s` with that turn used up (log entry 1). -/
def CoreTurn (s s1 : State) : Prop :=
  (s.agenda = [] ∧ s1 = s) ∨ ∃ later, s.agenda = .core :: later ∧ s1 = { s with agenda := later }

/-- It is the host's turn in `s` to do `act`, and `s1` is `s` with that turn used up. -/
def HostTurn (act : HostAction) (s s1 : State) : Prop :=
  ∃ later, s.agenda = .host act :: later ∧ s1 = { s with agenda := later }

/-- The state right after START, but for its ports, options and configuration (R343). -/
structure FreshPass (s : State) : Prop where
  cache : s.cache = Vector.replicate Config.cacheSlots Config.cacheSentinel
  last : s.last = Config.lastSentinel
  runCnt : s.runCnt = 0#6
  phase : s.phase = .header

/-- `t` is `s` after a block of the one pixel `p` (42_block_codec.md R172, 43_decoder.md R223, R226): the pixel in its cache
slot, in LAST and on OUT_PIX, one pixel fewer to go, the block stream ended when none is left, and nothing else changed. -/
structure ProducedPixel (p : Pixel) (s t : State) : Prop where
  last : t.last = p
  cache : ∀ k : Slot, t.cache.get k = if k = pixelHash p then p else s.cache.get k
  outPix : t.outPix = s.outPix ++ [toPacked p]
  remain : t.remain.toNat + 1 = s.remain.toNat
  phase : t.phase = if s.remain.toNat = 1 then (if s.enforceEnd then .trailer else .done) else s.phase
  frame : t = { s with cache := t.cache, last := t.last, outPix := t.outPix, remain := t.remain, phase := t.phase }

/-- Runs blocks one after the other, stopping where one does not answer a next state. -/
def execAll : List Instr → State → Outcome
  | [], s => .next s
  | i :: is, s =>
    match exec i s with
    | .next t => execAll is t
    | .fault r => .fault r
    | .refused r => .refused r

/-- `n` steps, stopping at the first that does not answer a next state. -/
def runSteps : Nat → State → Outcome
  | 0, s => .next s
  | n + 1, s =>
    match step s with
    | .next t => runSteps n t
    | .fault r => .fault r
    | .refused r => .refused r

/-- A run of `n` steps that no fault stops. -/
def SafeRun (n : Nat) (s t : State) : Prop := runSteps n s = .next t

end Sys2Proof.Machine
end

