-- ==== Sys2Proof/Certificates/Slice0/Obligations.lean ====
section
/-! DEFINITION. The statements for the provers. Each docstring names the rules of spec/ it formalises. `CoreTurn s s1` says it
is the core's turn in `s` (`s1` is `s` with the turn used up); `HostTurn act s s1` the same for a host action. -/

open Sys2Proof Sys2Proof.Machine

/-! ### Encoding -/

/-- R174, an inference the spec marks as its own ("derived: from rule R171, rule R173 and 30_encoding.md rule R95"):
block encode gives the bytes of R93 to R95, and block encode and block decode are inverse both ways, on every valid
block and on every tag byte with extra bytes of the right length; every block the integrated encoder builds is valid. -/
def Obligations.BlockCodecIsABijection : Prop :=
  (∀ i : Instr, i.wellFormed = true →
    ∃ bs, encodeBlock i = some bs ∧ (∀ rest, decode (bs ++ rest) = .block i rest) ∧
      bs.map (fun b => (b.toNat : Int)) =
        (match i with
         | .rgb r g b => [0xFE, r, g, b]
         | .rgba r g b a => [0xFF, r, g, b, a]
         | .index k => [k]
         | .diff dr dg db => [0x40 + (dr + 2) * 16 + (dg + 2) * 4 + (db + 2)]
         | .luma dg drdg dbdg => [0x80 + (dg + 32), (drdg + 8) * 16 + (dbdg + 8)]
         | .run n => [0xC0 + (n - 1)])) ∧
  (∀ (t : Byte) (x : List Byte), x.length + 1 = blockLength t → encodeBlock (decodeBlock t x) = some (t :: x)) ∧
  (∀ (hit : Option Slot) (p last : Pixel) (encRgb : Bool), (encodeBlock (selectBlock hit p last encRgb)).isSome = true) ∧
  (∀ n : BitVec 6, n ≠ 0#6 → n.toNat ≤ 62 → (encodeBlock (.run n.toNat)).isSome = true)

/-- R171, an inference the spec marks as its own ("derived: from 30_encoding.md rules R95, R96 and R99"): the fields of
the block for every tag byte and extra bytes of the right length, all in range. -/
def Obligations.BlockFieldsFromBytes : Prop :=
  (∀ r g b : Byte, decodeBlock 0xFE#8 [r, g, b] = .rgb r.toNat g.toNat b.toNat) ∧
  (∀ r g b a : Byte, decodeBlock 0xFF#8 [r, g, b, a] = .rgba r.toNat g.toNat b.toNat a.toNat) ∧
  (∀ t : Byte, t.toNat < 64 → decodeBlock t [] = .index t.toNat) ∧
  (∀ t : Byte, 64 ≤ t.toNat → t.toNat < 128 →
    decodeBlock t [] =
      .diff ((t.toNat / 16 % 4 : Nat) - 2 : Int) ((t.toNat / 4 % 4 : Nat) - 2 : Int) ((t.toNat % 4 : Nat) - 2 : Int)) ∧
  (∀ t x : Byte, 128 ≤ t.toNat → t.toNat < 192 →
    decodeBlock t [x] =
      .luma ((t.toNat % 64 : Nat) - 32 : Int) ((x.toNat / 16 : Nat) - 8 : Int) ((x.toNat % 16 : Nat) - 8 : Int)) ∧
  (∀ t : Byte, 192 ≤ t.toNat → t.toNat < 254 → decodeBlock t [] = .run ((t.toNat % 64 : Nat) + 1 : Int)) ∧
  (∀ (t : Byte) (x : List Byte), x.length + 1 = blockLength t → (decodeBlock t x).wellFormed = true)

/-- R97 and R98, inferences the spec marks as its own ("derived: from rule R93, rule R94 and rule R96"): the map of the
256 tag bytes, and the length of each block. -/
def Obligations.TagByteMap : Prop :=
  ∀ t : Byte,
    (variantOf t = .index ↔ t.toNat ≤ 0x3F) ∧
    (variantOf t = .diff ↔ 0x40 ≤ t.toNat ∧ t.toNat ≤ 0x7F) ∧
    (variantOf t = .luma ↔ 0x80 ≤ t.toNat ∧ t.toNat ≤ 0xBF) ∧
    (variantOf t = .run ↔ 0xC0 ≤ t.toNat ∧ t.toNat ≤ 0xFD) ∧
    (variantOf t = .rgb ↔ t.toNat = 0xFE) ∧
    (variantOf t = .rgba ↔ t.toNat = 0xFF) ∧
    blockLength t =
      (match variantOf t with
       | .rgb => 4
       | .rgba => 5
       | .luma => 2
       | .index => 1
       | .diff => 1
       | .run => 1)

/-- R173: the block encoder refuses a block exactly when a field is out of its range; emitting such a block raises
V_FIELD_RANGE and emits nothing, and any other block's bytes are emitted as they are. -/
def Obligations.FieldValidation : Prop :=
  (∀ k, encodeBlock (.index k) = none ↔ k < 0 ∨ 63 < k) ∧
  (∀ dr dg db, encodeBlock (.diff dr dg db) = none ↔ dr < -2 ∨ 1 < dr ∨ dg < -2 ∨ 1 < dg ∨ db < -2 ∨ 1 < db) ∧
  (∀ dg drdg dbdg, encodeBlock (.luma dg drdg dbdg) = none ↔
    dg < -32 ∨ 31 < dg ∨ drdg < -8 ∨ 7 < drdg ∨ dbdg < -8 ∨ 7 < dbdg) ∧
  (∀ n, encodeBlock (.run n) = none ↔ n < 1 ∨ 62 < n) ∧
  (∀ r g b, encodeBlock (.rgb r g b) = none ↔ r < 0 ∨ 255 < r ∨ g < 0 ∨ 255 < g ∨ b < 0 ∨ 255 < b) ∧
  (∀ r g b a, encodeBlock (.rgba r g b a) = none ↔
    r < 0 ∨ 255 < r ∨ g < 0 ∨ 255 < g ∨ b < 0 ∨ 255 < b ∨ a < 0 ∨ 255 < a) ∧
  (∀ (i : Instr) (s : State) (rest : State → State),
    (encodeBlock i = none → emitBlock i s rest = { s with phase := .error, cause := .vFieldRange }) ∧
    (∀ bs, encodeBlock i = some bs → emitBlock i s rest = rest { s with outByte := s.outByte ++ bs }))

/-- Sanity: words written out from the encodings of R93 to R95 (the vectors of 95_test_vectors.md section 2.6). -/
def Obligations.SpecWordsDecode : Prop :=
  decode [0xFE#8, 0x0A#8, 0x14#8, 0x1E#8] = .block (.rgb 10 20 30) [] ∧
  decode [0xFF#8, 1#8, 2#8, 3#8, 4#8, 9#8] = .block (.rgba 1 2 3 4) [9#8] ∧
  decode [0x35#8] = .block (.index 53) [] ∧
  decode [0x5E#8] = .block (.diff (-1) 1 0) [] ∧
  decode [0x9D#8, 0xA0#8] = .block (.luma (-3) 2 (-8)) [] ∧
  decode [0xFD#8, 0xC0#8] = .block (.run 62) [0xC0#8]

/-- R99 (the block decoder is total) with the lengths of R97: any byte string either starts with a block, well-formed and with
exactly its bytes consumed, or is too short for the block its tag byte asks for. -/
def Obligations.DecoderReadsAnyBytes : Prop :=
  ∀ bs : List Byte,
    (∃ i rest, decode bs = .block i rest ∧ i.wellFormed = true ∧ bs = encode i ++ rest) ∨
    (∃ why, decode bs = .rejected why ∧ (bs = [] ∨ ∃ t x, bs = t :: x ∧ x.length + 1 < blockLength t))

/-! ### Values -/

/-- R124: the fields of a packed pixel by their bits; packing and unpacking are exact inverses; OUT_PIX carries the packed
produced pixel, and the encoder takes the unpacked pixel from IN_PIX. -/
def Obligations.PackedPixelInverse : Prop :=
  (∀ v : Word,
    (fromPacked v).a.toNat = v.toNat / 2 ^ 24 ∧ (fromPacked v).r.toNat = v.toNat / 2 ^ 16 % 256 ∧
    (fromPacked v).g.toNat = v.toNat / 2 ^ 8 % 256 ∧ (fromPacked v).b.toNat = v.toNat % 256) ∧
  (∀ p : Pixel, (toPacked p).toNat = p.a.toNat * 2 ^ 24 + p.r.toNat * 2 ^ 16 + p.g.toNat * 2 ^ 8 + p.b.toNat) ∧
  (∀ p : Pixel, fromPacked (toPacked p) = p) ∧ (∀ v : Word, toPacked (fromPacked v) = v) ∧
  (∀ (p : Pixel) (s : State), s.remain ≠ 0#64 → ∃ t, producePixel p s = .next t ∧ t.outPix = s.outPix ++ [toPacked p]) ∧
  (∀ (v : Word) (vs : List Word) (s : State), s.inPix = v :: vs → s.runCnt.toNat < 62 → s.remain ≠ 0#64 →
    ∃ t, pixelStep s = .next t ∧ t.last = fromPacked v ∧ t.inPix = vs)

/-- R150, whose sum, corner cases and worked values are an inference the spec marks as its own ("derived: arithmetic of the
formula"): the hash, its exact sum, its five worked values, and the collision of pixels that differ by 64 in one channel. -/
def Obligations.HashFormula : Prop :=
  ∀ p : Pixel,
    (pixelHash p).val = (p.r.toNat * 3 + p.g.toNat * 5 + p.b.toNat * 7 + p.a.toNat * 11) % 64 ∧
    p.r.toNat * 3 + p.g.toNat * 5 + p.b.toNat * 7 + p.a.toNat * 11 ≤ 6630 ∧
    pixelHash { p with r := p.r + 64#8 } = pixelHash p ∧ pixelHash { p with g := p.g + 64#8 } = pixelHash p ∧
    pixelHash { p with b := p.b + 64#8 } = pixelHash p ∧ pixelHash { p with a := p.a + 64#8 } = pixelHash p ∧
    pixelHash ⟨0#8, 0#8, 0#8, 0#8⟩ = 0 ∧ pixelHash ⟨0#8, 0#8, 0#8, 255#8⟩ = 53 ∧ pixelHash ⟨255#8, 255#8, 255#8, 255#8⟩ = 38 ∧
    pixelHash ⟨10#8, 20#8, 30#8, 255#8⟩ = 9 ∧ pixelHash ⟨74#8, 20#8, 30#8, 255#8⟩ = 9

/-- R128: `sdiff8` is the value in −128..127 congruent to the difference modulo 256. -/
def Obligations.SignedDifference : Prop :=
  (∀ x y : Byte, -128 ≤ sdiff8 x y ∧ sdiff8 x y ≤ 127 ∧ (sdiff8 x y - ((x.toNat : Int) - y.toNat)) % 256 = 0) ∧
  sdiff8 0#8 255#8 = 1 ∧ sdiff8 255#8 0#8 = -1 ∧ sdiff8 128#8 0#8 = -128 ∧ sdiff8 0#8 128#8 = -128 ∧ sdiff8 127#8 0#8 = 127 ∧
  ∀ x : Byte, sdiff8 x x = 0

/-- R129: channel reconstruction wraps modulo 256 and never saturates. -/
def Obligations.ChannelReconstruction : Prop :=
  (∀ (x : Byte) (d : Int), ((addc x d).toNat : Int) = ((x.toNat : Int) + d) % 256) ∧
  addc 255#8 1 = 0#8 ∧ addc 0#8 (-2) = 254#8 ∧ addc 0#8 (-40) = 216#8

/-- R131, an inference the spec marks as its own ("derived: from rule R128 and rule R129"): the delta datapath round-
trips, channel by channel and for the DIFF and LUMA blocks the encoder selects. -/
def Obligations.DeltaRoundTrip : Prop :=
  (∀ x y : Byte, addc y (sdiff8 x y) = x) ∧
  (∀ (x y : Byte) (d : Int), (d - sdiff8 x y) % 256 = 0 → addc y d = x) ∧
  (∀ (p last : Pixel) (encRgb : Bool) (dr dg db : Int),
    selectBlock none p last encRgb = .diff dr dg db → pixelOfDiff dr dg db last = p) ∧
  (∀ (p last : Pixel) (encRgb : Bool) (dg drdg dbdg : Int),
    selectBlock none p last encRgb = .luma dg drdg dbdg → pixelOfLuma dg drdg dbdg last = p)

/-! ### Prediction state -/

/-- R152: `observe` hits and changes nothing when the slot holds the pixel; otherwise it reports no match and writes exactly
that slot. -/
def Obligations.ObserveRule : Prop :=
  ∀ (p : Pixel) (s : State),
    (s.cache.get (pixelHash p) = p → observe p s = (some (pixelHash p), s)) ∧
    (s.cache.get (pixelHash p) ≠ p →
      (observe p s).1 = none ∧
      (∀ k : Slot, (observe p s).2.cache.get k = if k = pixelHash p then p else s.cache.get k) ∧
      (observe p s).2 = { s with cache := (observe p s).2.cache })

/-- R153: `advance` reports a repeat and changes nothing when the pixel is LAST; otherwise it writes LAST alone. -/
def Obligations.AdvanceRule : Prop :=
  ∀ (p : Pixel) (s : State),
    (p = s.last → advance p s = (true, s)) ∧ (p ≠ s.last → advance p s = (false, { s with last := p })) ∧
    (advance p s).2.last = p

/-! ### The six blocks -/

/-- R175: RGB, its four bytes, its pixel (the alpha of LAST), its effect, its range errors, and when the encoder emits it. -/
def Obligations.RgbBlock : Prop :=
  (∀ r g b : Byte, encodeBlock (.rgb r.toNat g.toNat b.toNat) = some [0xFE#8, r, g, b]) ∧
  (∀ r g b : Int, ¬ (0 ≤ r ∧ r ≤ 255 ∧ 0 ≤ g ∧ g ≤ 255 ∧ 0 ≤ b ∧ b ≤ 255) → encodeBlock (.rgb r g b) = none) ∧
  (∀ (r g b : Byte) (rest : List Byte),
    decode (0xFE#8 :: r :: g :: b :: rest) = .block (.rgb r.toNat g.toNat b.toNat) rest) ∧
  (∀ (r g b : Byte) (s : State), s.remain ≠ 0#64 →
    ∃ t, exec (.rgb r.toNat g.toNat b.toNat) s = .next t ∧ ProducedPixel ⟨r, g, b, s.last.a⟩ s t) ∧
  (∀ (hit : Option Slot) (p last : Pixel) (encRgb : Bool) (r g b : Int),
    selectBlock hit p last encRgb = .rgb r g b → encRgb = true)

/-- R176: RGBA, its five bytes, its pixel, its effect and its range errors. -/
def Obligations.RgbaBlock : Prop :=
  (∀ r g b a : Byte, encodeBlock (.rgba r.toNat g.toNat b.toNat a.toNat) = some [0xFF#8, r, g, b, a]) ∧
  (∀ r g b a : Int, ¬ (0 ≤ r ∧ r ≤ 255 ∧ 0 ≤ g ∧ g ≤ 255 ∧ 0 ≤ b ∧ b ≤ 255 ∧ 0 ≤ a ∧ a ≤ 255) →
    encodeBlock (.rgba r g b a) = none) ∧
  (∀ (r g b a : Byte) (rest : List Byte),
    decode (0xFF#8 :: r :: g :: b :: a :: rest) = .block (.rgba r.toNat g.toNat b.toNat a.toNat) rest) ∧
  (∀ (r g b a : Byte) (s : State), s.remain ≠ 0#64 →
    ∃ t, exec (.rgba r.toNat g.toNat b.toNat a.toNat) s = .next t ∧ ProducedPixel ⟨r, g, b, a⟩ s t)

/-- R177: INDEX, its byte, its pixel (whatever the slot holds), its effect and its range errors; the cache does not change
when the slot's pixel hashes to the slot. -/
def Obligations.IndexBlock : Prop :=
  (∀ k : Slot, encodeBlock (.index k.val) = some [BitVec.ofNat 8 k.val]) ∧
  (∀ k : Int, ¬ (0 ≤ k ∧ k ≤ 63) → encodeBlock (.index k) = none) ∧
  (∀ (k : Slot) (rest : List Byte), decode (BitVec.ofNat 8 k.val :: rest) = .block (.index k.val) rest) ∧
  (∀ (k : Slot) (s : State), s.remain ≠ 0#64 →
    ∃ t, exec (.index k.val) s = .next t ∧ ProducedPixel (s.cache.get k) s t ∧
      (pixelHash (s.cache.get k) = k → t.cache = s.cache))

/-- R178: DIFF, its byte, its pixel (each colour channel of LAST plus its delta, modulo 256, alpha kept), its effect and its
range errors. -/
def Obligations.DiffBlock : Prop :=
  (∀ dr dg db : Int, ¬ (-2 ≤ dr ∧ dr ≤ 1 ∧ -2 ≤ dg ∧ dg ≤ 1 ∧ -2 ≤ db ∧ db ≤ 1) → encodeBlock (.diff dr dg db) = none) ∧
  (∀ dr dg db : Int, -2 ≤ dr → dr ≤ 1 → -2 ≤ dg → dg ≤ 1 → -2 ≤ db → db ≤ 1 →
    ∃ t : Byte,
      (t.toNat : Int) = 0x40 + (dr + 2) * 16 + (dg + 2) * 4 + (db + 2) ∧
      encodeBlock (.diff dr dg db) = some [t] ∧ (∀ rest, decode (t :: rest) = .block (.diff dr dg db) rest) ∧
      ∀ s : State, s.remain ≠ 0#64 →
        ∃ (p : Pixel) (u : State),
          exec (.diff dr dg db) s = .next u ∧ ProducedPixel p s u ∧ p.a = s.last.a ∧
          (p.r.toNat : Int) = ((s.last.r.toNat : Int) + dr) % 256 ∧
          (p.g.toNat : Int) = ((s.last.g.toNat : Int) + dg) % 256 ∧
          (p.b.toNat : Int) = ((s.last.b.toNat : Int) + db) % 256)

/-- R179: LUMA, its two bytes, its pixel (red and blue change by dg plus their own field), its effect and its range errors. -/
def Obligations.LumaBlock : Prop :=
  (∀ dg drdg dbdg : Int, ¬ (-32 ≤ dg ∧ dg ≤ 31 ∧ -8 ≤ drdg ∧ drdg ≤ 7 ∧ -8 ≤ dbdg ∧ dbdg ≤ 7) →
    encodeBlock (.luma dg drdg dbdg) = none) ∧
  (∀ dg drdg dbdg : Int, -32 ≤ dg → dg ≤ 31 → -8 ≤ drdg → drdg ≤ 7 → -8 ≤ dbdg → dbdg ≤ 7 →
    ∃ t x : Byte,
      (t.toNat : Int) = 0x80 + (dg + 32) ∧ (x.toNat : Int) = (drdg + 8) * 16 + (dbdg + 8) ∧
      encodeBlock (.luma dg drdg dbdg) = some [t, x] ∧
      (∀ rest, decode (t :: x :: rest) = .block (.luma dg drdg dbdg) rest) ∧
      ∀ s : State, s.remain ≠ 0#64 →
        ∃ (p : Pixel) (u : State),
          exec (.luma dg drdg dbdg) s = .next u ∧ ProducedPixel p s u ∧ p.a = s.last.a ∧
          (p.r.toNat : Int) = ((s.last.r.toNat : Int) + (dg + drdg)) % 256 ∧
          (p.g.toNat : Int) = ((s.last.g.toNat : Int) + dg) % 256 ∧
          (p.b.toNat : Int) = ((s.last.b.toNat : Int) + (dg + dbdg)) % 256)

/-- R180, R225: RUN, its byte, its `n` copies of LAST with CACHE and LAST unchanged, the overshoot error before any pixel, and
its range errors. -/
def Obligations.RunBlock : Prop :=
  (∀ n : Int, ¬ (1 ≤ n ∧ n ≤ 62) → encodeBlock (.run n) = none) ∧
  (∀ n : Nat, 1 ≤ n → n ≤ 62 →
    encodeBlock (.run n) = some [BitVec.ofNat 8 (0xC0 + (n - 1))] ∧
    (∀ rest, decode (BitVec.ofNat 8 (0xC0 + (n - 1)) :: rest) = .block (.run n) rest) ∧
    ∀ s : State,
      (s.remain.toNat < n → exec (.run n) s = .next { s with phase := .error, cause := .fRunOvershoot }) ∧
      (n ≤ s.remain.toNat →
        ∃ t, exec (.run n) s = .next t ∧
          t.outPix = s.outPix ++ List.replicate n (toPacked s.last) ∧ t.remain.toNat + n = s.remain.toNat ∧
          t.phase = (if s.remain.toNat = n then (if s.enforceEnd then .trailer else .done) else s.phase) ∧
          t = { s with outPix := t.outPix, remain := t.remain, phase := t.phase }))

/-- The model's choice (log entry 6): `exec` on a term with a field out of range, which no decoder answers, is the error entry
of V_FIELD_RANGE and nothing else. -/
def Obligations.OutOfRangeBlockIsAnError : Prop :=
  ∀ (i : Instr) (s : State), i.wellFormed = false → exec i s = .next { s with phase := .error, cause := .vFieldRange }

/-- R155, its first case, an inference the spec marks as its own ("derived: from rule R152, rule R153, rule R154 and
10_state.md rule R23"): in a decode pass that is decoding blocks and whose CACHE and LAST are still those of the pass's start,
a run of the initial colour leaves slot 53 unwritten, so INDEX 53 then gives (0,0,0,0). -/
def Obligations.InitialRunIsNotCached : Prop :=
  ∀ (n : Nat) (s : State), 1 ≤ n → n ≤ 62 → s.phase = .blocks → s.mode = .decode →
    s.cache = Vector.replicate 64 ⟨0#8, 0#8, 0#8, 0#8⟩ → s.last = ⟨0#8, 0#8, 0#8, 255#8⟩ → n < s.remain.toNat →
      ∃ t u, exec (.run n) s = .next t ∧ t.last = ⟨0#8, 0#8, 0#8, 255#8⟩ ∧ t.cache.get 53 = ⟨0#8, 0#8, 0#8, 0#8⟩ ∧
        exec (.index 53) t = .next u ∧ u.last = ⟨0#8, 0#8, 0#8, 0#8⟩ ∧
        u.outPix = s.outPix ++ List.replicate n 0xFF000000#32 ++ [0x00000000#32]

/-! ### Decode pass -/

/-- R223 with the turns of log entry 1: when it is the core's turn in a decode pass that is decoding blocks, and the pending
bytes start with a block, the step takes the block's bytes and is `exec` of the block. -/
def Obligations.StepRunsDecodedBlock : Prop :=
  ∀ (s s1 : State) (i : Instr) (rest : List Byte),
    CoreTurn s s1 → s.phase = .blocks → s.mode = .decode → decode s.inByte = .block i rest →
      step s = exec i { s1 with inByte := rest }

/-- R224: with END set and the next block incomplete, the block step raises F_TRUNC_BLOCK and emits no pixel. That it takes
no byte of the incomplete block is the model's reading (log entry 9, DEDUCED from the order of R223's pseudocode and from R302). -/
def Obligations.TruncatedBlockRaises : Prop :=
  ∀ s s1 : State, CoreTurn s s1 → s.phase = .blocks → s.mode = .decode → s.inByteEnd = true →
    (s.inByte = [] ∨ ∃ t x, s.inByte = t :: x ∧ x.length + 1 < blockLength t) →
      step s = .next { s1 with phase := .error, cause := .fTruncBlock }

/-- R63, and R313 that no state changes: a step whose input is not all there holds while END is clear (log entry 3 for the
model's reading of a held turn as an unchanged next state). That the pixel step holds whatever RUN_CNT is, 62 or more included,
is the model's reading too (log entry 4, DEDUCED: the hold comes before the check that R252 lists first). -/
def Obligations.HeldStepChangesNothing : Prop :=
  ∀ s s1 : State, CoreTurn s s1 →
    (s.phase = .header → s.mode = .decode → s.inByteEnd = false → s.inByte.length < 14 → step s = .next s1) ∧
    (s.phase = .blocks → s.mode = .decode → s.inByteEnd = false →
      (s.inByte = [] ∨ ∃ t x, s.inByte = t :: x ∧ x.length + 1 < blockLength t) → step s = .next s1) ∧
    (s.phase = .trailer → s.mode = .decode → s.inByteEnd = false → s.inByte.length < 8 → step s = .next s1) ∧
    (s.phase = .blocks → s.mode = .encode → s.inPixEnd = false → s.inPix = [] → step s = .next s1)

/-- R71: in IDLE, DONE and ERROR the core takes no input, and changes nothing (R313; log entry 3 for the
model's reading of such a turn as an unchanged next state). -/
def Obligations.IdleCoreTakesNothing : Prop :=
  ∀ s s1 : State, CoreTurn s s1 → (s.phase = .idle ∨ s.phase = .done ∨ s.phase = .error) → step s = .next s1

/-- R120: the fourteen bytes of a header, numbers most significant byte first. -/
def Obligations.HeaderBytes : Prop :=
  ∀ (w h : Word) (ch cs : Byte),
    (encodeHeader w h ch cs).map BitVec.toNat =
      [0x71, 0x6F, 0x69, 0x66,
        w.toNat / 2 ^ 24 % 256, w.toNat / 2 ^ 16 % 256, w.toNat / 2 ^ 8 % 256, w.toNat % 256,
        h.toNat / 2 ^ 24 % 256, h.toNat / 2 ^ 16 % 256, h.toNat / 2 ^ 8 % 256, h.toNat % 256,
        ch.toNat, cs.toNat]

/-- R121: the fields of fourteen header bytes, and that reading a written header gives its fields back. -/
def Obligations.HeaderFieldsFromBytes : Prop :=
  (∀ b0 b1 b2 b3 b4 b5 b6 b7 b8 b9 b10 b11 b12 b13 : Byte,
    let f := decodeHeader [b0, b1, b2, b3, b4, b5, b6, b7, b8, b9, b10, b11, b12, b13]
    let w : Nat := b4.toNat * 2 ^ 24 + b5.toNat * 2 ^ 16 + b6.toNat * 2 ^ 8 + b7.toNat
    let h : Nat := b8.toNat * 2 ^ 24 + b9.toNat * 2 ^ 16 + b10.toNat * 2 ^ 8 + b11.toNat
    s32 f.width = (if w < 2 ^ 31 then (w : Int) else (w : Int) - 2 ^ 32) ∧
    s32 f.height = (if h < 2 ^ 31 then (h : Int) else (h : Int) - 2 ^ 32) ∧
    f.channels = b12 ∧ f.colorspace = b13) ∧
  (∀ (w h : Word) (ch cs : Byte), decodeHeader (encodeHeader w h ch cs) = ⟨w, h, ch, cs⟩)

/-- R221, R305: the header step reports the problem at the lowest offset, truncation before the byte's own check and the
dimensions last, and takes at most fourteen bytes; without a problem it accepts the header. `ok k x` says that byte `x` is
legal at offset `k`. -/
def Obligations.HeaderStepReportsFirstProblem : Prop :=
  ∀ (s s1 : State) (ok : Nat → Byte → Prop),
    (∀ k x, ok k x ↔
      (k = 0 → x = 0x71#8) ∧ (k = 1 → x = 0x6F#8) ∧ (k = 2 → x = 0x69#8) ∧ (k = 3 → x = 0x66#8) ∧
      (k = 12 → x = 3#8 ∨ x = 4#8) ∧ (k = 13 → x = 0#8 ∨ x = 1#8)) →
    CoreTurn s s1 → s.phase = .header → s.mode = .decode → (14 ≤ s.inByte.length ∨ s.inByteEnd = true) →
    (∀ k < 14, s.inByte.length = k → (∀ j x, j < k → s.inByte[j]? = some x → ok j x) →
      step s = .next { s1 with phase := .error, cause := .fTruncHeader, inByte := [] }) ∧
    (∀ k y, k < 14 → s.inByte[k]? = some y → ¬ ok k y → (∀ j x, j < k → s.inByte[j]? = some x → ok j x) →
      step s =
        .next
          { s1 with
            phase := .error
            cause := if k ≤ 3 then .fBadMagic else if k = 12 then .fBadChannels else .fBadColorspace
            inByte := s.inByte.drop 14 }) ∧
    (14 ≤ s.inByte.length → (∀ j x, j < 14 → s.inByte[j]? = some x → ok j x) →
      let f := decodeHeader (s.inByte.take 14)
      (s32 f.width < 0 ∨ s32 f.height < 0 →
        step s = .next { s1 with phase := .error, cause := .fBadDimension, inByte := s.inByte.drop 14 }) ∧
      (0 ≤ s32 f.width → 0 ≤ s32 f.height →
        step s = .next (acceptHeader f { s1 with inByte := s.inByte.drop 14 })))

/-- R222 with R127: accepting a header writes its fields and REMAIN, the exact product, and goes to BLOCKS only when there is
a pixel to produce; a rejected header writes none of these registers. -/
def Obligations.HeaderAcceptance : Prop :=
  (∀ (s s1 : State) (w h : Word) (ch cs : Byte) (rest : List Byte),
    CoreTurn s s1 → s.phase = .header → s.mode = .decode → s.inByte = encodeHeader w h ch cs ++ rest →
    0 ≤ s32 w → 0 ≤ s32 h → (ch = 3#8 ∨ ch = 4#8) → (cs = 0#8 ∨ cs = 1#8) →
      ∃ t, step s = .next t ∧
        t.width = w ∧ t.height = h ∧ t.channels = ch ∧ t.colorspace = cs ∧ t.inByte = rest ∧
        (t.remain.toNat : Int) = s32 w * s32 h ∧
        t.phase = (if s32 w * s32 h = 0 then (if s.enforceEnd then .trailer else .done) else .blocks) ∧
        t = { s1 with
              width := t.width, height := t.height, channels := t.channels, colorspace := t.colorspace
              inByte := t.inByte, remain := t.remain, phase := t.phase }) ∧
  (∀ s s1 t : State, CoreTurn s s1 → s.phase = .header → s.mode = .decode → step s = .next t → t.phase = .error →
    t.width = s.width ∧ t.height = s.height ∧ t.channels = s.channels ∧ t.colorspace = s.colorspace ∧ t.remain = s.remain)

/-- R227: the trailer step takes exactly eight bytes (all that are left, if fewer) and ends the pass, in DONE when they are the
end marker and with F_END_MARKER otherwise. -/
def Obligations.EndMarkerStep : Prop :=
  ∀ s s1 : State, CoreTurn s s1 → s.phase = .trailer → s.mode = .decode → (8 ≤ s.inByte.length ∨ s.inByteEnd = true) →
    (s.inByte.take 8 = [0#8, 0#8, 0#8, 0#8, 0#8, 0#8, 0#8, 1#8] →
      step s = .next { s1 with phase := .done, inByte := s.inByte.drop 8 }) ∧
    (s.inByte.take 8 ≠ [0#8, 0#8, 0#8, 0#8, 0#8, 0#8, 0#8, 1#8] →
      step s = .next { s1 with phase := .error, cause := .fEndMarker, inByte := s.inByte.drop 8 })

/-- R228, from R223 and R226: a decode block step that neither holds nor raises emits exactly the pixels it takes off REMAIN, at
least one; BLOCKS ends when REMAIN is 0 and not before. -/
def Obligations.DecodeBlockAccounting : Prop :=
  ∀ s s1 t : State, CoreTurn s s1 → s.phase = .blocks → s.mode = .decode → step s = .next t → t.phase ≠ .error →
    t = s1 ∨
      ((∃ vs, vs ≠ [] ∧ t.outPix = s.outPix ++ vs ∧ t.remain.toNat + vs.length = s.remain.toNat) ∧
        t.phase = if t.remain = 0#64 then (if s.enforceEnd then .trailer else .done) else .blocks)

/-! ### Encode pass -/

/-- R250, R251: the encoder's header step emits the header and sets REMAIN, or raises V_CONFIG and emits nothing. -/
def Obligations.EncoderHeaderStep : Prop :=
  ∀ s s1 : State, CoreTurn s s1 → s.phase = .header → s.mode = .encode →
    (s32 s.width < 0 ∨ s32 s.height < 0 ∨ (s.channels ≠ 3#8 ∧ s.channels ≠ 4#8) ∨ (s.colorspace ≠ 0#8 ∧ s.colorspace ≠ 1#8) →
      step s = .next { s1 with phase := .error, cause := .vConfig }) ∧
    (0 ≤ s32 s.width → 0 ≤ s32 s.height → (s.channels = 3#8 ∨ s.channels = 4#8) →
      (s.colorspace = 0#8 ∨ s.colorspace = 1#8) →
      ∃ t, step s = .next t ∧
        t.outByte = s.outByte ++ encodeHeader s.width s.height s.channels s.colorspace ∧
        (t.remain.toNat : Int) = s32 s.width * s32 s.height ∧ t.runCnt = 0#6 ∧
        t.phase = (if s32 s.width * s32 s.height = 0 then .trailer else .blocks) ∧
        t = { s1 with outByte := t.outByte, remain := t.remain, runCnt := t.runCnt, phase := t.phase })

/-- R253, R254, R262: a pixel equal to LAST is only counted, and the 62nd of a run emits RUN(62), byte FD, in the same step; a
run counter of 62 or more at the start of a step is I_RUN_INVARIANT. -/
def Obligations.RepeatPixelIsCounted : Prop :=
  ∀ (s s1 : State) (v : Word) (vs : List Word),
    CoreTurn s s1 → s.phase = .blocks → s.mode = .encode → s.inPix = v :: vs →
    (62 ≤ s.runCnt.toNat → step s = .next { s1 with phase := .error, cause := .iRunInvariant }) ∧
    (s.runCnt.toNat < 62 → s.remain ≠ 0#64 → fromPacked v = s.last →
      ∃ t, step s = .next t ∧
        t.inPix = vs ∧ t.remain.toNat + 1 = s.remain.toNat ∧
        t.runCnt.toNat = (if s.runCnt.toNat = 61 then 0 else s.runCnt.toNat + 1) ∧
        t.outByte = s.outByte ++ (if s.runCnt.toNat = 61 then [0xFD#8] else []) ∧
        t.phase = (if s.remain.toNat = 1 then .trailer else .blocks) ∧
        t = { s1 with inPix := t.inPix, remain := t.remain, runCnt := t.runCnt, outByte := t.outByte, phase := t.phase })

/-- R252, R255 to R262: a pixel that is not a repeat first flushes the pending run, then emits exactly one block, the first of
INDEX, RGBA for an alpha change, DIFF, LUMA and the fallback that applies; it goes to its cache slot and to LAST. -/
def Obligations.NonRepeatPixelIsEncoded : Prop :=
  ∀ (s s1 : State) (v : Word) (vs : List Word) (p : Pixel) (dr dg db : Int),
    CoreTurn s s1 → s.phase = .blocks → s.mode = .encode → s.inPix = v :: vs → p = fromPacked v → p ≠ s.last →
    s.runCnt.toNat < 62 → s.remain ≠ 0#64 →
    dr = sdiff8 p.r s.last.r → dg = sdiff8 p.g s.last.g → db = sdiff8 p.b s.last.b →
      ∃ (t : State) (i : Instr), step s = .next t ∧ i.wellFormed = true ∧
        t.outByte =
          s.outByte ++ (if s.runCnt = 0#6 then [] else [BitVec.ofNat 8 (0xC0 + (s.runCnt.toNat - 1))]) ++ encode i ∧
        (s.cache.get (pixelHash p) = p → i = .index (pixelHash p).val) ∧
        (s.cache.get (pixelHash p) ≠ p → p.a ≠ s.last.a → i = .rgba p.r.toNat p.g.toNat p.b.toNat p.a.toNat) ∧
        (s.cache.get (pixelHash p) ≠ p → p.a = s.last.a →
          ((-2 ≤ dr ∧ dr ≤ 1 ∧ -2 ≤ dg ∧ dg ≤ 1 ∧ -2 ≤ db ∧ db ≤ 1) → i = .diff dr dg db) ∧
          (¬ (-2 ≤ dr ∧ dr ≤ 1 ∧ -2 ≤ dg ∧ dg ≤ 1 ∧ -2 ≤ db ∧ db ≤ 1) →
            ((-32 ≤ dg ∧ dg ≤ 31 ∧ -8 ≤ dr - dg ∧ dr - dg ≤ 7 ∧ -8 ≤ db - dg ∧ db - dg ≤ 7) →
              i = .luma dg (dr - dg) (db - dg)) ∧
            (¬ (-32 ≤ dg ∧ dg ≤ 31 ∧ -8 ≤ dr - dg ∧ dr - dg ≤ 7 ∧ -8 ≤ db - dg ∧ db - dg ≤ 7) →
              i = if s.encRgb then .rgb p.r.toNat p.g.toNat p.b.toNat
                  else .rgba p.r.toNat p.g.toNat p.b.toNat p.a.toNat))) ∧
        t.last = p ∧ (∀ k : Slot, t.cache.get k = if k = pixelHash p then p else s.cache.get k) ∧
        t.runCnt = 0#6 ∧ t.inPix = vs ∧ t.remain.toNat + 1 = s.remain.toNat ∧
        t.phase = (if s.remain.toNat = 1 then .trailer else .blocks) ∧
        t = { s1 with
              cache := t.cache, last := t.last, runCnt := t.runCnt, remain := t.remain, phase := t.phase
              inPix := t.inPix, outByte := t.outByte }

/-- R264: the encoder's trailer step flushes a pending run, emits the end marker and ends the pass. -/
def Obligations.EncoderTrailerStep : Prop :=
  ∀ s s1 : State, CoreTurn s s1 → s.phase = .trailer → s.mode = .encode → s.runCnt.toNat < 62 →
    step s =
      .next
        { s1 with
          outByte :=
            s.outByte ++ (if s.runCnt = 0#6 then [] else [BitVec.ofNat 8 (0xC0 + (s.runCnt.toNat - 1))]) ++
              [0#8, 0#8, 0#8, 0#8, 0#8, 0#8, 0#8, 1#8]
          runCnt := 0#6
          phase := .done }

/-- R263: pixel input that ends with REMAIN > 0 is F_PIXEL_SHORT; no run is flushed and no marker written. -/
def Obligations.ShortPixelInputRaises : Prop :=
  ∀ s s1 : State, CoreTurn s s1 → s.phase = .blocks → s.mode = .encode → s.inPix = [] → s.inPixEnd = true →
    s.runCnt.toNat < 62 → s.remain ≠ 0#64 → step s = .next { s1 with phase := .error, cause := .fPixelShort }

/-- R267, up to its last flush (that is `NonRepeatPixelIsEncoded` or `EncoderTrailerStep`): `k` repeats of LAST emit one RUN(62),
byte FD, for every 62 of them, leave `k mod 62` pending, and change neither CACHE nor LAST. -/
def Obligations.RunSplitting : Prop :=
  ∀ (k : Nat) (s : State) (vs : List Word),
    s.phase = .blocks → s.mode = .encode → s.agenda = [] → s.runCnt = 0#6 →
    s.inPix = List.replicate k (toPacked s.last) ++ vs → k < s.remain.toNat →
      ∃ t, SafeRun k s t ∧ t.outByte = s.outByte ++ List.replicate (k / 62) 0xFD#8 ∧ t.runCnt.toNat = k % 62 ∧
        t.inPix = vs ∧ t.remain.toNat + k = s.remain.toNat ∧ t.cache = s.cache ∧ t.last = s.last ∧ t.phase = .blocks

/-- R269, its induction step: whatever blocks an encode pixel step emits, a decoder that holds the same CACHE and LAST runs them
to the same CACHE and LAST, and its pixels then lag the encoder's by exactly the run still pending. -/
def Obligations.EncoderLockstep : Prop :=
  ∀ (s s1 t : State) (v : Word) (vs : List Word),
    CoreTurn s s1 → SoundState s → s.phase = .blocks → s.mode = .encode → s.inPix = v :: vs → step s = .next t →
      ∃ blocks : List Instr,
        (∀ i ∈ blocks, i.wellFormed = true) ∧ t.outByte = s.outByte ++ blocks.flatMap encode ∧
        ∀ d : State, d.cache = s.cache → d.last = s.last → s.runCnt.toNat + 1 ≤ d.remain.toNat →
          ∃ u, execAll blocks d = .next u ∧ u.cache = t.cache ∧ u.last = t.last ∧
            u.outPix ++ List.replicate t.runCnt.toNat (toPacked t.last) =
              d.outPix ++ List.replicate s.runCnt.toNat (toPacked s.last) ++ [v]

/-- R231, R269: for every image, decoding what an encode pass wrote gives exactly its pixels, its header, and the encoder's
CACHE and LAST, with either fallback of the encoder and either end-marker option of the decoder, whatever bytes follow. -/
def Obligations.DecodeOfEncodedImageIsTheImage : Prop :=
  ∀ (s : State) (pixels : List Word),
    FreshPass s → s.mode = .encode → s.agenda = [] → s.outByte = [] → s.inPix = pixels → legalConfig s →
    (pixels.length : Int) = s32 s.width * s32 s.height →
      ∃ n t, SafeRun n s t ∧ t.phase = .done ∧
        ∀ (d : State) (more : List Byte),
          FreshPass d → d.mode = .decode → d.agenda = [] → d.outPix = [] → d.inByte = t.outByte ++ more →
            ∃ m u, SafeRun m d u ∧ u.phase = .done ∧ u.outPix = pixels ∧
              u.width = s.width ∧ u.height = s.height ∧ u.channels = s.channels ∧ u.colorspace = s.colorspace ∧
              u.cache = t.cache ∧ u.last = t.last

/-- R228, over whole passes: whatever bytes a decode pass is given, if it reaches DONE then it has emitted exactly
`width * height` pixels, and WIDTH, HEIGHT and FORMAT hold a legal header. -/
def Obligations.DoneMeansAllPixels : Prop :=
  ∀ (n : Nat) (s t : State),
    FreshPass s → s.mode = .decode → s.agenda = [] → s.outPix = [] → SafeRun n s t → t.phase = .done →
      (t.outPix.length : Int) = s32 t.width * s32 t.height ∧ legalConfig t

/-! ### Errors -/

/-- R302, R303: a core step that raises sets PHASE and CAUSE, keeps consumed exactly the input its rule had taken before the
raise, and changes nothing else: no output, no prediction state, no counter, no configuration. Taken are the header's bytes, at
most 14 (R221), the end marker's, at most 8 (R227), the one byte of the RUN block of an overshoot (R223, R225), and no pixel
(R251, R263). That an incomplete block's bytes are not taken is the model's reading (log entry 9, DEDUCED from the order of
R223's pseudocode and from R302). -/
def Obligations.ErrorEntryIsExact : Prop :=
  ∀ s s1 t : State, CoreTurn s s1 → SoundState s → s.phase ≠ .error → step s = .next t → t.phase = .error →
    t.cause ≠ .noCause ∧ t = { s1 with phase := .error, cause := t.cause, inByte := t.inByte } ∧
    (s.mode = .decode → s.phase = .header → t.inByte = s.inByte.drop 14) ∧
    (s.mode = .decode → s.phase = .blocks →
      (t.cause = .fTruncBlock ∧ t.inByte = s.inByte) ∨
      (t.cause = .fRunOvershoot ∧ ∃ tag, variantOf tag = .run ∧ s.inByte = tag :: t.inByte)) ∧
    (s.mode = .decode → s.phase = .trailer → t.inByte = s.inByte.drop 8) ∧
    (s.mode = .encode → t.inByte = s.inByte)

/-- R304: ERROR and its cause are held through every core step and host action but a CTRL write with START or ABORT, and reset. -/
def Obligations.ErrorIsHeld : Prop :=
  ∀ s t : State, s.phase = .error → step s = .next t →
    (∀ v later, s.agenda = .host (.csrWrite 0 v) :: later → v.getLsbD 0 = false ∧ v.getLsbD 1 = false) →
    (∀ later, s.agenda ≠ .reset :: later) →
      t.phase = .error ∧ t.cause = s.cause

/-- R301, its closing sentence, with R254 and R270: within a pass neither V_FIELD_RANGE nor I_RUN_INVARIANT is ever raised. -/
def Obligations.NoInternalErrorsInAPass : Prop :=
  ∀ s t : State, SoundState s → s.phase ≠ .error → step s = .next t → t.cause ≠ .vFieldRange ∧ t.cause ≠ .iRunInvariant

/-! ### Host actions and reset -/

/-- R343: START while not busy latches the three options and begins a fresh pass; while busy it does nothing. -/
def Obligations.StartCommand : Prop :=
  ∀ (s s1 : State) (v : Word), HostTurn (.csrWrite 0 v) s s1 → v.getLsbD 0 = true → v.getLsbD 1 = false →
    ((s.phase = .idle ∨ s.phase = .done ∨ s.phase = .error) →
      step s =
        .next
          { s1 with
            mode := if v.getLsbD 2 then .encode else .decode
            enforceEnd := v.getLsbD 3
            encRgb := v.getLsbD 4
            cache := Vector.replicate 64 ⟨0#8, 0#8, 0#8, 0#8⟩
            last := ⟨0#8, 0#8, 0#8, 255#8⟩
            runCnt := 0#6
            remain := 0#64
            cause := .noCause
            inByte := []
            inByteEnd := false
            inPix := []
            inPixEnd := false
            outByte := []
            outPix := []
            phase := .header }) ∧
    ((s.phase = .header ∨ s.phase = .blocks ∨ s.phase = .trailer) → step s = .next s1)

/-- R344, R345: ABORT, with or without START, in any phase, ends the pass and empties the ports, and changes nothing else. -/
def Obligations.AbortCommand : Prop :=
  ∀ (s s1 : State) (v : Word), HostTurn (.csrWrite 0 v) s s1 → v.getLsbD 1 = true →
    step s =
      .next
        { s1 with
          phase := .idle
          cause := .noCause
          inByte := []
          inByteEnd := false
          inPix := []
          inPixEnd := false
          outByte := []
          outPix := [] }

/-- R31: CTRL as read, and a CTRL write without a command: it sets the three option bits when not busy and nothing when busy. -/
def Obligations.CtrlRegister : Prop :=
  (∀ (s : State) (k : Nat), (csrRead 0 s).getLsbD k =
    ((k == 2 && s.mode == .encode) || (k == 3 && s.enforceEnd) || (k == 4 && s.encRgb))) ∧
  (∀ (s s1 : State) (v : Word), HostTurn (.csrWrite 0 v) s s1 → v.getLsbD 0 = false → v.getLsbD 1 = false →
    ((s.phase = .idle ∨ s.phase = .done ∨ s.phase = .error) →
      step s =
        .next
          { s1 with
            mode := if v.getLsbD 2 then .encode else .decode
            enforceEnd := v.getLsbD 3
            encRgb := v.getLsbD 4 }) ∧
    ((s.phase = .header ∨ s.phase = .blocks ∨ s.phase = .trailer) → step s = .next s1))

/-- R32 with the codes of R26 and R301: STATUS as read; a write of it does nothing. -/
def Obligations.StatusRegister : Prop :=
  (∀ s : State, (csrRead 1 s).toNat =
    (match s.phase with
     | .idle => 0
     | .header => 9
     | .blocks => 10
     | .trailer => 11
     | .done => 4
     | .error =>
       5 + 256 *
         (match s.cause with
          | .noCause => 0x00
          | .fBadMagic => 0x01
          | .fBadChannels => 0x02
          | .fBadColorspace => 0x03
          | .fBadDimension => 0x04
          | .fTruncHeader => 0x05
          | .fTruncBlock => 0x06
          | .fRunOvershoot => 0x07
          | .fEndMarker => 0x08
          | .fPixelShort => 0x09
          | .vFieldRange => 0x10
          | .vConfig => 0x11
          | .iRunInvariant => 0x20))) ∧
  (∀ (s s1 : State) (v : Word), HostTurn (.csrWrite 1 v) s s1 → step s = .next s1)

/-- R346 and the access rights of R33 to R35: WIDTH, HEIGHT and FORMAT take a write when not busy, FORMAT its low sixteen bits
only, and ignore it while busy; each reads back what it holds. -/
def Obligations.ConfigurationRegisters : Prop :=
  (∀ s : State, csrRead 2 s = s.width ∧ csrRead 3 s = s.height ∧
    (csrRead 4 s).toNat = s.colorspace.toNat * 256 + s.channels.toNat) ∧
  (∀ (s s1 : State) (k : Nat) (v : Word), HostTurn (.csrWrite k v) s s1 → (k = 2 ∨ k = 3 ∨ k = 4) →
    ((s.phase = .header ∨ s.phase = .blocks ∨ s.phase = .trailer) → step s = .next s1) ∧
    ((s.phase = .idle ∨ s.phase = .done ∨ s.phase = .error) →
      (k = 2 → step s = .next { s1 with width := v }) ∧
      (k = 3 → step s = .next { s1 with height := v }) ∧
      (k = 4 →
        step s =
          .next
            { s1 with
              channels := BitVec.ofNat 8 v.toNat
              colorspace := BitVec.ofNat 8 (v.toNat / 256) })))

/-- R36, R30: REMAIN read as two words, writes of them ignored; an index not in the table reads 0 and ignores writes. -/
def Obligations.RemainAndUnknownRegisters : Prop :=
  (∀ s : State, (csrRead 6 s).toNat * 2 ^ 32 + (csrRead 5 s).toNat = s.remain.toNat) ∧
  (∀ (s : State) (k : Nat), 7 ≤ k → csrRead k s = 0#32) ∧
  (∀ (s s1 : State) (k : Nat) (v : Word), HostTurn (.csrWrite k v) s s1 → 5 ≤ k → step s = .next s1)

/-- R64, R74: csr_read has no effect on the core, supply appends unless END is set, end_input sets END, take removes the oldest
output element if there is one. -/
def Obligations.HostStreamActions : Prop :=
  ∀ s s1 : State,
    (∀ k, HostTurn (.csrRead k) s s1 → step s = .next { s1 with received := s.received ++ [.csr k (csrRead k s)] }) ∧
    (∀ x, HostTurn (.supplyByte x) s s1 →
      step s = .next (if s.inByteEnd then s1 else { s1 with inByte := s.inByte ++ [x] })) ∧
    (∀ v, HostTurn (.supplyPix v) s s1 → step s = .next (if s.inPixEnd then s1 else { s1 with inPix := s.inPix ++ [v] })) ∧
    (HostTurn (.endInput .inByte) s s1 → step s = .next { s1 with inByteEnd := true }) ∧
    (HostTurn (.endInput .inPix) s s1 → step s = .next { s1 with inPixEnd := true }) ∧
    (HostTurn (.take .outByte) s s1 →
      (s.outByte = [] → step s = .next s1) ∧
      (∀ x xs, s.outByte = x :: xs → step s = .next { s1 with outByte := xs, received := s.received ++ [.byte x] })) ∧
    (HostTurn (.take .outPix) s s1 →
      (s.outPix = [] → step s = .next s1) ∧
      (∀ v vs, s.outPix = v :: vs → step s = .next { s1 with outPix := vs, received := s.received ++ [.pixel v] }))

/-- R340 with the values of R39: reset, in any phase. Nothing is said of the two fields that are the model's own. -/
def Obligations.ResetInAnyPhase : Prop :=
  ∀ (s : State) (later : List Turn), s.agenda = .reset :: later →
    ∃ t, step s = .next t ∧
      t =
        { cache := Vector.replicate 64 ⟨0#8, 0#8, 0#8, 0#8⟩
          last := ⟨0#8, 0#8, 0#8, 255#8⟩
          runCnt := 0#6
          remain := 0#64
          phase := .idle
          cause := .noCause
          mode := .decode
          enforceEnd := false
          encRgb := false
          width := 0#32
          height := 0#32
          channels := 4#8
          colorspace := 0#8
          inByte := []
          inByteEnd := false
          inPix := []
          inPixEnd := false
          outByte := []
          outPix := []
          agenda := t.agenda
          received := t.received }

/-! ### The whole machine -/

/-- The invariant holds at reset (R39). -/
def Obligations.ResetMeetsInvariant : Prop := SoundState State.reset

/-- R22, R24, R32, R155, R223 and R346 as one invariant, kept by every core step, host action and reset, from every state that
meets it. -/
def Obligations.StepKeepsInvariant : Prop := ∀ s t : State, SoundState s → step s = .next t → SoundState t

/-- From a state that meets the invariant, every step answers a next state: the model's only fault is never reached. -/
def Obligations.InvariantStepNeverStops : Prop := ∀ s : State, SoundState s → ∃ t, step s = .next t

/-- R66: a core step only appends to the output lists, and only removes from the front of the input lists (R70). -/
def Obligations.StreamsAreOrdered : Prop :=
  ∀ s s1 t : State, CoreTurn s s1 → step s = .next t →
    s.outByte <+: t.outByte ∧ s.outPix <+: t.outPix ∧ t.inByte <:+ s.inByte ∧ t.inPix <:+ s.inPix ∧
    t.inByteEnd = s.inByteEnd ∧ t.inPixEnd = s.inPixEnd

/-- R60, R31 and R24: a core step of a pass leaves the two ports of the other mode and the option bits alone; an encode step
leaves the configuration alone too, and a decode step RUN_CNT. The clauses on `received` and `agenda` are about the model's own
fields and are the model's choice (log entries 2 and 1, DESIGN CHOICE): a core step adds nothing to what the host was given and
uses up its own turn alone. -/
def Obligations.CoreStepLeavesTheRestAlone : Prop :=
  ∀ s s1 t : State, CoreTurn s s1 → step s = .next t →
    t.mode = s.mode ∧ t.enforceEnd = s.enforceEnd ∧ t.encRgb = s.encRgb ∧ t.received = s.received ∧ t.agenda = s1.agenda ∧
    (s.mode = .decode → t.inPix = s.inPix ∧ t.outByte = s.outByte ∧ t.runCnt = s.runCnt) ∧
    (s.mode = .encode →
      t.inByte = s.inByte ∧ t.outPix = s.outPix ∧ t.width = s.width ∧ t.height = s.height ∧ t.channels = s.channels ∧
      t.colorspace = s.colorspace)

/-- R26, R228, R266: the phases a core step can move between; an encode pass reaches DONE only from TRAILER, and every pass
reaches DONE only with REMAIN 0. -/
def Obligations.PassPhasesMoveForward : Prop :=
  ∀ s s1 t : State, CoreTurn s s1 → SoundState s → step s = .next t →
    ((s.phase = .idle ∨ s.phase = .done ∨ s.phase = .error) → t.phase = s.phase) ∧
    (s.phase = .header → t.phase ≠ .idle) ∧
    (s.phase = .blocks → t.phase ≠ .idle ∧ t.phase ≠ .header) ∧
    (s.phase = .trailer → t.phase = .trailer ∨ t.phase = .done ∨ t.phase = .error) ∧
    (s.mode = .encode → t.phase = .done → s.phase = .trailer ∨ s.phase = .done) ∧
    (t.phase = .done → t.remain = 0#64)

/-- R349: a pass whose input is complete, and which the host leaves alone, ends in DONE or ERROR after at most one header step,
one step per pixel and one trailer step. Complete is: END on IN_BYTE in a decode pass; in an encode pass END on IN_PIX, or all
its pixels pending, or a configuration the header step rejects. It rests on output ports without a bound (log entry 11, DESIGN
CHOICE, unsafe for hardware with back-pressure) and on a turn for the core at every step (log entry 1). -/
def Obligations.PassTerminates : Prop :=
  ∀ s : State, SoundState s → s.phase = .header → s.agenda = [] →
    (s.mode = .decode → s.inByteEnd = true) →
    (s.mode = .encode → s.inPixEnd = true ∨ s.width.toNat * s.height.toNat ≤ s.inPix.length ∨ ¬ legalConfig s) →
    ∃ n t, SafeRun n s t ∧ (t.phase = .done ∨ t.phase = .error) ∧ n ≤ t.width.toNat * t.height.toNat + 2

/-- R103, R104: the bytes of the two directives, and that a block line is refused exactly when its block fails validation.
That `.header` takes every 32-bit dimension and every tag byte, illegal ones included, is the model's choice (log entry 13). -/
def Obligations.AssemblerLines : Prop :=
  assembleLine .endLine = some [0#8, 0#8, 0#8, 0#8, 0#8, 0#8, 0#8, 1#8] ∧
  (∀ (w h : Word) (ch cs : Byte),
    assembleLine (.headerLine (s32 w) (s32 h) ch.toNat cs.toNat) = some (encodeHeader w h ch cs)) ∧
  (∀ i : Instr, i.wellFormed = false → assembleLine (.block i) = none) ∧
  (∀ i : Instr, i.wellFormed = true → ∃ bs, assembleLine (.block i) = some bs ∧ decode bs = .block i [])

/-- R102 to R104 on text: the assembler reads every line as R102 and R103 write it and gives the line's bytes, or refuses it
when an operand is out of range. Each operand of the line is written in decimal (with a leading `-` for negatives), or in
hexadecimal: `0x` and any number of digits from one up, each letter in either case. The blanks, and the letter case, are the
model's choice (log entry 13). -/
def Obligations.AssemblerReadsText : Prop :=
  (∀ w : Nat → Int → List Char, (∀ k x, SpellsOperand (w k x) x) →
    (∀ i : Instr, assemble (lineTextBy w (.block i)) = encodeBlock i) ∧
    (∀ wd h ch cs : Int, assemble (lineTextBy w (.headerLine wd h ch cs)) = assembleLine (.headerLine wd h ch cs)) ∧
    assemble (lineTextBy w .endLine) = some [0#8, 0#8, 0#8, 0#8, 0#8, 0#8, 0#8, 1#8]) ∧
  (∀ i : Instr, assemble (lineText (.block i)) = encodeBlock i) ∧
  (∀ wd h ch cs : Int, assemble (lineText (.headerLine wd h ch cs)) = assembleLine (.headerLine wd h ch cs)) ∧
  (∀ ds : List (Bool × Fin 16), ds ≠ [] →
    parseOperand ('0' :: 'x' ::
        ds.map fun d =>
          (if d.1 then ['0', '1', '2', '3', '4', '5', '6', '7', '8', '9', 'A', 'B', 'C', 'D', 'E', 'F']
            else ['0', '1', '2', '3', '4', '5', '6', '7', '8', '9', 'a', 'b', 'c', 'd', 'e', 'f'] : List Char).getD d.2.val '0') =
      some ((ds.foldl (fun acc d => acc * 16 + d.2.val) 0 : Nat) : Int))
end

