-- ==== Sys2Proof/Laws/Assembler.lean ====
section
/-! SUPPORT. Reading a line's text gives the line back: the small lemmas of the assembler notation, bottom up. -/

namespace Sys2Proof.Machine

/-- A decimal digit reads as itself. -/
theorem digitOf_digit {d : Nat} (h : d < 10) : digitOf 10 (Char.ofNat (48 + d)) = some d := by
  interval_cases d <;> decide

/-- A decimal digit is no blank, comma, minus or `x`. -/
theorem digit_plain {d : Nat} (h : d < 10) :
    Char.ofNat (48 + d) ≠ ' ' ∧ Char.ofNat (48 + d) ≠ ',' ∧ Char.ofNat (48 + d) ≠ '-' ∧ Char.ofNat (48 + d) ≠ 'x' := by
  interval_cases d <;> decide

/-- Every character of a number's text is plain. -/
theorem digitsText_plain (k n : Nat) : ∀ c ∈ digitsText k n, c ≠ ' ' ∧ c ≠ ',' ∧ c ≠ '-' ∧ c ≠ 'x' := by
  induction k generalizing n with
  | zero => simp [digitsText]
  | succ k ih =>
    intro c hc
    rw [digitsText, List.mem_append, List.mem_singleton] at hc
    obtain hc | rfl := hc
    · split_ifs at hc
      · simp at hc
      · exact ih _ c hc
    · exact digit_plain (Nat.mod_lt _ (by decide))

/-- Digits read in two parts. -/
theorem digitsValue_append (base acc : Nat) (xs ys : List Char) :
    digitsValue base acc (xs ++ ys) = (digitsValue base acc xs).bind fun m => digitsValue base m ys := by
  induction xs generalizing acc with
  | nil => rfl
  | cons c cs ih =>
    simp only [List.cons_append, digitsValue]
    cases digitOf base c with
    | none => rfl
    | some d => exact ih _

/-- A number's text reads as the number. -/
theorem digitsValue_digitsText (k n : Nat) (h : n < k) : digitsValue 10 0 (digitsText k n) = some n := by
  induction k generalizing n with
  | zero => omega
  | succ k ih =>
    have hd := digitOf_digit (d := n % 10) (Nat.mod_lt _ (by decide))
    rw [digitsText, digitsValue_append]
    split_ifs with h10
    · simp only [digitsValue, Option.bind_some, hd]
      congr 1; omega
    · rw [ih _ (by omega)]
      simp only [digitsValue, Option.bind_some, hd]
      congr 1; omega

/-- A number's text is not empty. -/
theorem digitsText_ne_nil (k n : Nat) : digitsText (k + 1) n ≠ [] := by simp [digitsText]

/-- An operand's text has no blank and no comma, and is not empty. -/
theorem operandText_plain (x : Int) : (∀ c ∈ operandText x, c ≠ ' ' ∧ c ≠ ',') ∧ operandText x ≠ [] := by
  have hp := digitsText_plain (x.natAbs + 1) x.natAbs
  have hn := digitsText_ne_nil x.natAbs x.natAbs
  unfold operandText
  split_ifs
  · refine ⟨fun c hc => ?_, by simp⟩
    obtain rfl | hc := List.mem_cons.mp hc
    · decide
    · exact ⟨(hp c hc).1, (hp c hc).2.1⟩
  · exact ⟨fun c hc => ⟨(hp c hc).1, (hp c hc).2.1⟩, hn⟩

/-- Dropping blanks drops nothing from a text that does not start with one. -/
theorem dropBlanks_of_plain {cs : List Char} (h : ∀ c ∈ cs, c ≠ ' ') : cs.dropWhile (fun c => c == ' ') = cs := by
  cases cs with
  | nil => rfl
  | cons c cs => simp [h c (by simp)]

/-- A text without blanks is left as it is, with a blank before it or not. -/
theorem trimBlanks_of_plain {cs : List Char} (h : ∀ c ∈ cs, c ≠ ' ') :
    trimBlanks cs = cs ∧ trimBlanks (' ' :: cs) = cs := by
  have hr : cs.reverse.dropWhile (fun c => c == ' ') = cs.reverse := dropBlanks_of_plain fun c hc => h c (by simpa using hc)
  constructor <;> simp [trimBlanks, dropBlanks_of_plain h, hr]

/-- An operand reads the same with a blank before it. -/
theorem parseOperand_blank {cs : List Char} (h : ∀ c ∈ cs, c ≠ ' ') : parseOperand (' ' :: cs) = parseOperand cs := by
  rw [parseOperand, parseOperand, (trimBlanks_of_plain h).1, (trimBlanks_of_plain h).2]

/-- A decimal operand's text reads as the operand. -/
theorem parseOperand_operandText (x : Int) : parseOperand (operandText x) = some x := by
  have hp := digitsText_plain (x.natAbs + 1) x.natAbs
  have hv := digitsValue_digitsText (x.natAbs + 1) x.natAbs (Nat.lt_succ_self _)
  rw [parseOperand, (trimBlanks_of_plain fun c hc => ((operandText_plain x).1 c hc).1).1, operandText]
  generalize hds : digitsText (x.natAbs + 1) x.natAbs = ds at hp hv
  have hne : ds ≠ [] := hds ▸ digitsText_ne_nil x.natAbs x.natAbs
  split_ifs with h
  · have hx : -((x.natAbs : Nat) : Int) = x := by omega
    simp only [hv, Option.bind_some, if_neg hne, hx]
  · have hx : ((x.natAbs : Nat) : Int) = x := by omega
    obtain ⟨c, cs, rfl⟩ := List.exists_cons_of_ne_nil hne
    have hnat : parseNat (c :: cs) = some x.natAbs := by
      rw [← hv, parseNat]
      intro c' cs' h0 hcs
      exact (hp 'x' (by simp [hcs])).2.2.2 rfl
    split
    · rename_i ds' heq
      injection heq with h1 h2
      exact absurd h1 (hp c (by simp)).2.2.1
    · rw [hnat]; simp [hx]

/-- A hexadecimal digit reads as itself, in either case. -/
theorem digitOf_hexDigit (u : Bool) (d : Fin 16) : digitOf 16 (hexDigit u d) = some d.val := by
  revert u d; decide

/-- A hexadecimal digit is no blank and no comma. -/
theorem hexDigit_plain (u : Bool) (d : Fin 16) : hexDigit u d ≠ ' ' ∧ hexDigit u d ≠ ',' := by
  revert u d; decide

/-- Hexadecimal digits read as their number. -/
theorem digitsValue_hex (acc : Nat) (ds : List (Bool × Fin 16)) :
    digitsValue 16 acc (ds.map fun d => hexDigit d.1 d.2) = some (ds.foldl (fun acc d => acc * 16 + d.2.val) acc) := by
  induction ds generalizing acc with
  | nil => rfl
  | cons d ds ih => simp only [List.map_cons, digitsValue, digitOf_hexDigit, ih, List.foldl_cons]

/-- A hexadecimal operand's text has no blank and no comma, and is not empty. -/
theorem hexText_plain (ds : List (Bool × Fin 16)) : (∀ c ∈ hexText ds, c ≠ ' ' ∧ c ≠ ',') ∧ hexText ds ≠ [] := by
  refine ⟨fun c hc => ?_, by simp [hexText]⟩
  simp only [hexText, List.mem_cons, List.mem_map] at hc
  obtain rfl | rfl | ⟨d, _, rfl⟩ := hc
  · decide
  · decide
  · exact hexDigit_plain _ _

/-- A hexadecimal operand's text reads as its number. -/
theorem parseOperand_hexText {ds : List (Bool × Fin 16)} (h : ds ≠ []) :
    parseOperand (hexText ds) = some (hexValue ds : Int) := by
  obtain ⟨d, ds, rfl⟩ := List.exists_cons_of_ne_nil h
  rw [parseOperand, (trimBlanks_of_plain fun c hc => ((hexText_plain _).1 c hc).1).1]
  show (digitsValue 16 0 ((d :: ds).map fun d => hexDigit d.1 d.2)).map (fun n : Nat => (n : Int)) = _
  rw [digitsValue_hex]
  rfl

/-- An operand's text, in either form, has no blank and no comma, is not empty, and reads as the operand. -/
theorem spellsOperand_reads {cs : List Char} {x : Int} (h : SpellsOperand cs x) :
    (∀ c ∈ cs, c ≠ ' ' ∧ c ≠ ',') ∧ cs ≠ [] ∧ parseOperand (' ' :: cs) = some x := by
  obtain rfl | ⟨ds, hd, rfl, rfl⟩ := h
  · have hp := operandText_plain x
    exact ⟨hp.1, hp.2, by rw [parseOperand_blank fun c hc => (hp.1 c hc).1, parseOperand_operandText]⟩
  · have hp := hexText_plain ds
    exact ⟨hp.1, hp.2, by rw [parseOperand_blank fun c hc => (hp.1 c hc).1, parseOperand_hexText hd]⟩

/-- A piece without a comma, then a comma, is the first piece. -/
theorem splitCommas_append {cs : List Char} (h : ∀ c ∈ cs, c ≠ ',') (rest : List Char) :
    splitCommas (cs ++ ',' :: rest) = cs :: splitCommas rest := by
  induction cs with
  | nil => simp [splitCommas]
  | cons c cs ih =>
    rw [List.cons_append, splitCommas, if_neg (h c (by simp)), ih fun d hd => h d (by simp [hd])]

/-- A text without a comma is one piece. -/
theorem splitCommas_of_plain {cs : List Char} (h : ∀ c ∈ cs, c ≠ ',') : splitCommas cs = [cs] := by
  induction cs with
  | nil => rfl
  | cons c cs ih => rw [splitCommas, if_neg (h c (by simp)), ih fun d hd => h d (by simp [hd])]

/-- Operand texts and the operands they spell, in order. -/
abbrev SpellsAll : List (List Char) → List Int → Prop := List.Forall₂ SpellsOperand

/-- The text of operands splits into the operands' texts, each after its blank. -/
theorem splitCommas_operandsText {p : List Char} {ps : List (List Char)} {xs : List Int} (h : SpellsAll (p :: ps) xs) :
    splitCommas (operandsText (p :: ps)) = (p :: ps).map fun q => ' ' :: q := by
  have hc : ∀ {q : List Char} {x : Int}, SpellsOperand q x → ∀ c ∈ ' ' :: q, c ≠ ',' := by
    intro q x hq c hc
    obtain rfl | hc := List.mem_cons.mp hc
    · decide
    · exact ((spellsOperand_reads hq).1 c hc).2
  induction ps generalizing p xs with
  | nil =>
    cases h with
    | cons hp _ => exact splitCommas_of_plain (hc hp)
  | cons q qs ih =>
    cases h with
    | cons hp ht => rw [operandsText, splitCommas_append (hc hp), ih ht]; rfl

/-- The text of operands reads as the operands. -/
theorem mapM_operandsText {p : List Char} {ps : List (List Char)} {xs : List Int} (h : SpellsAll (p :: ps) xs) :
    (splitCommas (operandsText (p :: ps))).mapM parseOperand = some xs := by
  rw [splitCommas_operandsText h]
  generalize p :: ps = qs at h
  induction h with
  | nil => rfl
  | cons hq _ ih => simp [List.mapM_cons, (spellsOperand_reads hq).2.2, ih]

/-- The text of operands starts with a blank and ends with a character that is none. -/
theorem operandsText_ends {p : List Char} {ps : List (List Char)} {xs : List Int} (h : SpellsAll (p :: ps) xs) :
    (∃ cs, operandsText (p :: ps) = ' ' :: cs) ∧ ∃ cs c, operandsText (p :: ps) = cs ++ [c] ∧ c ≠ ' ' := by
  induction ps generalizing p xs with
  | nil =>
    cases h with
    | cons hp _ =>
      obtain ⟨hpl, hne, _⟩ := spellsOperand_reads hp
      obtain ⟨cs, c, rfl⟩ := List.eq_nil_or_concat p |>.resolve_left hne
      exact ⟨⟨_, rfl⟩, ' ' :: cs, c, by simp [operandsText], (hpl c (by simp)).1⟩
  | cons q qs ih =>
    cases h with
    | cons _ ht =>
      obtain ⟨_, cs, c, he, hc⟩ := ih ht
      exact ⟨⟨_, rfl⟩, ' ' :: p ++ ',' :: cs, c, by rw [operandsText, he]; simp, hc⟩

/-- A text that neither starts nor ends with a blank is left as it is. -/
theorem trimBlanks_of_ends {c d : Char} {cs ds : List Char} (h : c :: cs = ds ++ [d]) (hc : c ≠ ' ') (hd : d ≠ ' ') :
    trimBlanks (c :: cs) = c :: cs := by
  have e : (c :: cs).dropWhile (fun c => c == ' ') = c :: cs := by simp [hc]
  rw [trimBlanks, e, h]
  simp [hd]

/-- A line of a mnemonic without blanks and of operands reads as the line of that mnemonic and those operands. -/
theorem parseLine_operandsText {c : Char} {cs : List Char} (h : ∀ d ∈ c :: cs, d ≠ ' ') {p : List Char} {ps : List (List Char)}
    {xs : List Int} (hs : SpellsAll (p :: ps) xs) :
    parseLine ((c :: cs) ++ operandsText (p :: ps)) = lineOf (c :: cs) xs := by
  obtain ⟨⟨ys, hy⟩, zs, d, he, hd⟩ := operandsText_ends hs
  have ht : trimBlanks ((c :: cs) ++ operandsText (p :: ps)) = (c :: cs) ++ operandsText (p :: ps) :=
    trimBlanks_of_ends (ds := (c :: cs) ++ zs) (d := d) (by rw [he]; simp) (h c (by simp)) hd
  have hw : ((c :: cs) ++ operandsText (p :: ps)).takeWhile (fun c => c != ' ') = c :: cs := by
    rw [hy, List.takeWhile_append_of_pos fun d hd => by simpa using h d hd]; simp
  have hr : ((c :: cs) ++ operandsText (p :: ps)).dropWhile (fun c => c != ' ') = operandsText (p :: ps) := by
    rw [List.dropWhile_append_of_pos fun d hd => by simpa using h d hd, hy]; simp
  have hne : trimBlanks (operandsText (p :: ps)) ≠ [] := by
    have e : (zs ++ [d]).reverse.dropWhile (fun c => c == ' ') = d :: zs.reverse := by simp [hd]
    have hm : d ∈ (operandsText (p :: ps)).dropWhile (fun c => c == ' ') := by
      rw [he, List.dropWhile_append]
      split_ifs <;> simp [hd]
    intro hn
    rw [trimBlanks, List.reverse_eq_nil_iff, List.dropWhile_eq_nil_iff] at hn
    exact hd (by simpa using hn d (by simpa using hm))
  simp only [parseLine, ht, hw, hr, parseOperands, if_neg hne, mapM_operandsText hs, Option.bind_some]

/-- Reading a line's text gives the line back, whichever form each operand has. -/
theorem parseLine_lineTextBy {w : Nat → Int → List Char} (h : ∀ k x, SpellsOperand (w k x) x) (l : AsmLine) :
    parseLine (lineTextBy w l) = some l := by
  have h1 : ∀ k x, SpellsAll [w k x] [x] := fun k x => .cons (h k x) .nil
  have h3 : ∀ x y z, SpellsAll [w 0 x, w 1 y, w 2 z] [x, y, z] := fun x y z => .cons (h _ _) (.cons (h _ _) (h1 2 z))
  have h4 : ∀ x y z t, SpellsAll [w 0 x, w 1 y, w 2 z, w 3 t] [x, y, z, t] :=
    fun x y z t => .cons (h _ _) (.cons (h _ _) (.cons (h _ _) (h1 3 t)))
  rcases l with (_ | _ | _ | _ | _ | _) | _ | _
  · rw [lineTextBy, parseLine_operandsText _ (h3 _ _ _)] <;> simp [lineOf]
  · rw [lineTextBy, parseLine_operandsText _ (h4 _ _ _ _)] <;> simp [lineOf]
  · rw [lineTextBy, parseLine_operandsText _ (h1 _ _)] <;> simp [lineOf]
  · rw [lineTextBy, parseLine_operandsText _ (h3 _ _ _)] <;> simp [lineOf]
  · rw [lineTextBy, parseLine_operandsText _ (h3 _ _ _)] <;> simp [lineOf]
  · rw [lineTextBy, parseLine_operandsText _ (h1 _ _)] <;> simp [lineOf]
  · rw [lineTextBy, parseLine_operandsText _ (h4 _ _ _ _)] <;> simp [lineOf]
  · rfl

end Sys2Proof.Machine
end

