-- ==== Sys2Proof/Laws/Codec.lean ====
section
/-! SUPPORT. The block codec as arithmetic on the tag byte's number: what dispatch, length, field extraction and packing
compute, so that later proofs end in `omega`. -/

namespace Sys2Proof

/-! ### Validation, one lemma per variant -/

theorem wellFormed_rgb (r g b : Int) :
    (Instr.rgb r g b).wellFormed = true ↔ isChannel r ∧ isChannel g ∧ isChannel b := decide_eq_true_iff

theorem wellFormed_rgba (r g b a : Int) :
    (Instr.rgba r g b a).wellFormed = true ↔ isChannel r ∧ isChannel g ∧ isChannel b ∧ isChannel a := decide_eq_true_iff

theorem wellFormed_index (k : Int) : (Instr.index k).wellFormed = true ↔ inRange 0 63 k := decide_eq_true_iff

theorem wellFormed_diff (dr dg db : Int) :
    (Instr.diff dr dg db).wellFormed = true ↔ inRange (-2) 1 dr ∧ inRange (-2) 1 dg ∧ inRange (-2) 1 db :=
  decide_eq_true_iff

theorem wellFormed_luma (dg drdg dbdg : Int) :
    (Instr.luma dg drdg dbdg).wellFormed = true ↔ inRange (-32) 31 dg ∧ inRange (-8) 7 drdg ∧ inRange (-8) 7 dbdg :=
  decide_eq_true_iff

theorem wellFormed_run (n : Int) : (Instr.run n).wellFormed = true ↔ inRange 1 62 n := decide_eq_true_iff

/-- The number of a byte is a channel value. -/
theorem isChannel_toNat (x : Byte) : isChannel (x.toNat : Int) := by have := x.isLt; constructor <;> omega

/-- A block whose fields are in range has its bytes. -/
theorem encodeBlock_of_wf {i : Instr} (h : i.wellFormed = true) : encodeBlock i = some (encode i) := by
  simp only [encodeBlock, h, if_true]

/-- Any other term has none. -/
theorem encodeBlock_of_not_wf {i : Instr} (h : i.wellFormed = false) : encodeBlock i = none := by
  simp [encodeBlock, h]

/-! ### Bytes and fields -/

/-- Two bytes are equal when their numbers are. -/
theorem byte_eq_iff (x y : Byte) : x = y ↔ x.toNat = y.toNat := BitVec.toNat_inj.symm

theorem tagRgb_toNat : (0xFE#8).toNat = 254 := rfl

theorem tagRgba_toNat : (0xFF#8).toNat = 255 := rfl

/-- Tag dispatch by the ranges of R98. -/
theorem variantOf_by_range (t : Byte) :
    variantOf t =
      if t.toNat = 254 then .rgb
      else if t.toNat = 255 then .rgba
      else if t.toNat < 64 then .index
      else if t.toNat < 128 then .diff
      else if t.toNat < 192 then .luma
      else .run := by
  have ht : t.toNat / 64 % 4 = t.toNat / 64 := by have := t.isLt; omega
  simp only [variantOf, byte_eq_iff, bitField, tagRgb_toNat, tagRgba_toNat, Nat.reducePow, ht]
  repeat' split
  all_goals first | rfl | omega

/-- The length of a block by the ranges of R98. -/
theorem blockLength_by_range (t : Byte) :
    blockLength t =
      if t.toNat = 254 then 4
      else if t.toNat = 255 then 5
      else if 128 ≤ t.toNat ∧ t.toNat < 192 then 2
      else 1 := by
  have ht : t.toNat / 64 % 4 = t.toNat / 64 := by have := t.isLt; omega
  simp only [blockLength, byte_eq_iff, bitField, tagRgb_toNat, tagRgba_toNat, Nat.reducePow, ht]
  repeat' split
  all_goals first | rfl | omega

/-- A block has at least its tag byte. -/
theorem blockLength_pos (t : Byte) : 0 < blockLength t := by
  rw [blockLength_by_range]; split_ifs <;> omega

/-- The number of a packed byte. -/
theorem packFields_toNat (fs : List (Nat × Int)) :
    (packFields fs).toNat = (fs.foldl (fun (acc : Int) (f : Nat × Int) => acc * 2 ^ f.1 + f.2) 0 % 256).toNat := by
  simp [packFields, BitVec.toNat_ofInt]

/-- A prefix and a six-bit payload. -/
theorem packFields_prefix (a b : Int) : (packFields [(2, a), (6, b)]).toNat = ((a * 64 + b) % 256).toNat := by
  simp [packFields_toNat]

/-- Two four-bit fields. -/
theorem packFields_nibbles (a b : Int) : (packFields [(4, a), (4, b)]).toNat = ((a * 16 + b) % 256).toNat := by
  simp [packFields_toNat]

/-- A prefix and three two-bit fields. -/
theorem packFields_pairs (a b c d : Int) :
    (packFields [(2, a), (2, b), (2, c), (2, d)]).toNat = ((((a * 4 + b) * 4 + c) * 4 + d) % 256).toNat := by
  simp [packFields_toNat]

/-- A channel value survives being put into a byte. -/
theorem toNat_ofInt_channel {x : Int} (h : isChannel x) : ((BitVec.ofInt 8 x).toNat : Int) = x := by
  obtain ⟨h0, h1⟩ := h
  simp only [BitVec.toNat_ofInt]
  omega

/-- What the decoder answers when the whole block is there. -/
theorem decode_of_le {t : Byte} {bs : List Byte} (h : blockLength t ≤ bs.length + 1) :
    decode (t :: bs) = .block (decodeBlock t (bs.take (blockLength t - 1))) (bs.drop (blockLength t - 1)) := by
  simp only [decode]
  rw [if_neg (by omega)]

/-- What the decoder answers when it is not. -/
theorem decode_of_lt {t : Byte} {bs : List Byte} (h : bs.length + 1 < blockLength t) :
    decode (t :: bs) = .rejected (.incomplete (variantOf t) (blockLength t) (bs.length + 1)) := by
  simp only [decode]
  rw [if_pos h]

/-- A tag byte with exactly its extra bytes in front is read as that block, whatever follows. -/
theorem decode_append {t : Byte} {x : List Byte} (h : x.length + 1 = blockLength t) (rest : List Byte) :
    decode (t :: x ++ rest) = .block (decodeBlock t x) rest := by
  have hx : blockLength t - 1 = x.length := by omega
  rw [List.cons_append, decode_of_le (by simp; omega), hx]
  simp

/-- If the decoder answers a block, the input is that block's bytes and the rest. -/
theorem decode_eq_block {bs rest : List Byte} {i : Instr} (h : decode bs = .block i rest) :
    ∃ t x, bs = t :: x ++ rest ∧ x.length + 1 = blockLength t ∧ i = decodeBlock t x := by
  cases bs with
  | nil => simp [decode] at h
  | cons t bs =>
    by_cases hl : bs.length + 1 < blockLength t
    · simp [decode_of_lt hl] at h
    · rw [decode_of_le (by omega)] at h
      have hp := blockLength_pos t
      injection h with hi hr
      refine ⟨t, bs.take (blockLength t - 1), ?_, ?_, hi.symm⟩
      · rw [← hr, List.cons_append, List.take_append_drop]
      · rw [List.length_take]; omega

end Sys2Proof
end

