-- ==== Sys2Proof/Laws/PerInstr.lean ====
section
/-! SUPPORT. Facts about instructions as syntax, one lemma per constructor. `Layout`: the bytes of a well-formed block are a
tag byte that selects the block's own variant, and as many extra bytes as the tag byte's length asks for (spec/30_encoding.md
R93, R94, R97). -/

namespace Sys2Proof.Laws.Layout

/-- The shape of a well-formed block's bytes. -/
def Statement (i : Instr) : Prop :=
  i.wellFormed = true → ∃ t x, encode i = t :: x ∧ variantOf t = i.variant ∧ x.length + 1 = blockLength t

theorem rgb (r g b : Int) : Statement (.rgb r g b) := fun _ => ⟨_, _, rfl, rfl, rfl⟩

theorem rgba (r g b a : Int) : Statement (.rgba r g b a) := fun _ => ⟨_, _, rfl, rfl, rfl⟩

theorem index (k : Int) : Statement (.index k) := by
  intro h
  simp only [Instr.wellFormed, decide_eq_true_eq] at h
  refine ⟨_, _, rfl, ?_, ?_⟩
  · rw [variantOf_by_range, packFields_prefix]; split_ifs <;> first | rfl | omega
  · rw [blockLength_by_range, packFields_prefix]; split_ifs <;> first | rfl | omega

theorem diff (dr dg db : Int) : Statement (.diff dr dg db) := by
  intro h
  simp only [Instr.wellFormed, decide_eq_true_eq] at h
  refine ⟨_, _, rfl, ?_, ?_⟩
  · rw [variantOf_by_range, packFields_pairs]; split_ifs <;> first | rfl | omega
  · rw [blockLength_by_range, packFields_pairs]; split_ifs <;> first | rfl | omega

theorem luma (dg drdg dbdg : Int) : Statement (.luma dg drdg dbdg) := by
  intro h
  simp only [Instr.wellFormed, decide_eq_true_eq] at h
  refine ⟨_, _, rfl, ?_, ?_⟩
  · rw [variantOf_by_range, packFields_prefix]; split_ifs <;> first | rfl | omega
  · rw [blockLength_by_range, packFields_prefix]; split_ifs <;> first | rfl | omega

theorem run (n : Int) : Statement (.run n) := by
  intro h
  simp only [Instr.wellFormed, decide_eq_true_eq] at h
  refine ⟨_, _, rfl, ?_, ?_⟩
  · rw [variantOf_by_range, packFields_prefix]; split_ifs <;> first | rfl | omega
  · rw [blockLength_by_range, packFields_prefix]; split_ifs <;> first | rfl | omega

end Sys2Proof.Laws.Layout
end

