-- ==== Sys2Proof/Laws/State.lean ====
section
/-! SUPPORT. What each update of the state does to each field, one lemma per field per update, so that no proof unfolds a
record update. -/

namespace Sys2Proof.Machine

/-! ### `raise` -/

@[simp] theorem raise_cache (c : Cause) (s : State) : (raise c s).cache = s.cache := rfl
@[simp] theorem raise_last (c : Cause) (s : State) : (raise c s).last = s.last := rfl
@[simp] theorem raise_runCnt (c : Cause) (s : State) : (raise c s).runCnt = s.runCnt := rfl
@[simp] theorem raise_remain (c : Cause) (s : State) : (raise c s).remain = s.remain := rfl
@[simp] theorem raise_phase (c : Cause) (s : State) : (raise c s).phase = .error := rfl
@[simp] theorem raise_cause (c : Cause) (s : State) : (raise c s).cause = c := rfl
@[simp] theorem raise_mode (c : Cause) (s : State) : (raise c s).mode = s.mode := rfl
@[simp] theorem raise_enforceEnd (c : Cause) (s : State) : (raise c s).enforceEnd = s.enforceEnd := rfl
@[simp] theorem raise_encRgb (c : Cause) (s : State) : (raise c s).encRgb = s.encRgb := rfl
@[simp] theorem raise_width (c : Cause) (s : State) : (raise c s).width = s.width := rfl
@[simp] theorem raise_height (c : Cause) (s : State) : (raise c s).height = s.height := rfl
@[simp] theorem raise_channels (c : Cause) (s : State) : (raise c s).channels = s.channels := rfl
@[simp] theorem raise_colorspace (c : Cause) (s : State) : (raise c s).colorspace = s.colorspace := rfl
@[simp] theorem raise_inByte (c : Cause) (s : State) : (raise c s).inByte = s.inByte := rfl
@[simp] theorem raise_inByteEnd (c : Cause) (s : State) : (raise c s).inByteEnd = s.inByteEnd := rfl
@[simp] theorem raise_inPix (c : Cause) (s : State) : (raise c s).inPix = s.inPix := rfl
@[simp] theorem raise_inPixEnd (c : Cause) (s : State) : (raise c s).inPixEnd = s.inPixEnd := rfl
@[simp] theorem raise_outByte (c : Cause) (s : State) : (raise c s).outByte = s.outByte := rfl
@[simp] theorem raise_outPix (c : Cause) (s : State) : (raise c s).outPix = s.outPix := rfl
@[simp] theorem raise_agenda (c : Cause) (s : State) : (raise c s).agenda = s.agenda := rfl
@[simp] theorem raise_received (c : Cause) (s : State) : (raise c s).received = s.received := rfl

/-! ### `clearPorts` -/

@[simp] theorem clearPorts_cache (s : State) : (clearPorts s).cache = s.cache := rfl
@[simp] theorem clearPorts_last (s : State) : (clearPorts s).last = s.last := rfl
@[simp] theorem clearPorts_runCnt (s : State) : (clearPorts s).runCnt = s.runCnt := rfl
@[simp] theorem clearPorts_remain (s : State) : (clearPorts s).remain = s.remain := rfl
@[simp] theorem clearPorts_phase (s : State) : (clearPorts s).phase = s.phase := rfl
@[simp] theorem clearPorts_cause (s : State) : (clearPorts s).cause = s.cause := rfl
@[simp] theorem clearPorts_mode (s : State) : (clearPorts s).mode = s.mode := rfl
@[simp] theorem clearPorts_enforceEnd (s : State) : (clearPorts s).enforceEnd = s.enforceEnd := rfl
@[simp] theorem clearPorts_encRgb (s : State) : (clearPorts s).encRgb = s.encRgb := rfl
@[simp] theorem clearPorts_width (s : State) : (clearPorts s).width = s.width := rfl
@[simp] theorem clearPorts_height (s : State) : (clearPorts s).height = s.height := rfl
@[simp] theorem clearPorts_channels (s : State) : (clearPorts s).channels = s.channels := rfl
@[simp] theorem clearPorts_colorspace (s : State) : (clearPorts s).colorspace = s.colorspace := rfl
@[simp] theorem clearPorts_inByte (s : State) : (clearPorts s).inByte = [] := rfl
@[simp] theorem clearPorts_inByteEnd (s : State) : (clearPorts s).inByteEnd = false := rfl
@[simp] theorem clearPorts_inPix (s : State) : (clearPorts s).inPix = [] := rfl
@[simp] theorem clearPorts_inPixEnd (s : State) : (clearPorts s).inPixEnd = false := rfl
@[simp] theorem clearPorts_outByte (s : State) : (clearPorts s).outByte = [] := rfl
@[simp] theorem clearPorts_outPix (s : State) : (clearPorts s).outPix = [] := rfl
@[simp] theorem clearPorts_agenda (s : State) : (clearPorts s).agenda = s.agenda := rfl
@[simp] theorem clearPorts_received (s : State) : (clearPorts s).received = s.received := rfl

/-! ### `startPass` -/

@[simp] theorem startPass_cache (s : State) : (startPass s).cache = Vector.replicate Config.cacheSlots Config.cacheSentinel := rfl
@[simp] theorem startPass_last (s : State) : (startPass s).last = Config.lastSentinel := rfl
@[simp] theorem startPass_runCnt (s : State) : (startPass s).runCnt = 0#6 := rfl
@[simp] theorem startPass_remain (s : State) : (startPass s).remain = 0#64 := rfl
@[simp] theorem startPass_phase (s : State) : (startPass s).phase = .header := rfl
@[simp] theorem startPass_cause (s : State) : (startPass s).cause = .noCause := rfl
@[simp] theorem startPass_mode (s : State) : (startPass s).mode = s.mode := rfl
@[simp] theorem startPass_enforceEnd (s : State) : (startPass s).enforceEnd = s.enforceEnd := rfl
@[simp] theorem startPass_encRgb (s : State) : (startPass s).encRgb = s.encRgb := rfl
@[simp] theorem startPass_width (s : State) : (startPass s).width = s.width := rfl
@[simp] theorem startPass_height (s : State) : (startPass s).height = s.height := rfl
@[simp] theorem startPass_channels (s : State) : (startPass s).channels = s.channels := rfl
@[simp] theorem startPass_colorspace (s : State) : (startPass s).colorspace = s.colorspace := rfl
@[simp] theorem startPass_inByte (s : State) : (startPass s).inByte = [] := rfl
@[simp] theorem startPass_inByteEnd (s : State) : (startPass s).inByteEnd = false := rfl
@[simp] theorem startPass_inPix (s : State) : (startPass s).inPix = [] := rfl
@[simp] theorem startPass_inPixEnd (s : State) : (startPass s).inPixEnd = false := rfl
@[simp] theorem startPass_outByte (s : State) : (startPass s).outByte = [] := rfl
@[simp] theorem startPass_outPix (s : State) : (startPass s).outPix = [] := rfl
@[simp] theorem startPass_agenda (s : State) : (startPass s).agenda = s.agenda := rfl
@[simp] theorem startPass_received (s : State) : (startPass s).received = s.received := rfl

/-! ### `abortPass` -/

@[simp] theorem abortPass_cache (s : State) : (abortPass s).cache = s.cache := rfl
@[simp] theorem abortPass_last (s : State) : (abortPass s).last = s.last := rfl
@[simp] theorem abortPass_runCnt (s : State) : (abortPass s).runCnt = s.runCnt := rfl
@[simp] theorem abortPass_remain (s : State) : (abortPass s).remain = s.remain := rfl
@[simp] theorem abortPass_phase (s : State) : (abortPass s).phase = .idle := rfl
@[simp] theorem abortPass_cause (s : State) : (abortPass s).cause = .noCause := rfl
@[simp] theorem abortPass_mode (s : State) : (abortPass s).mode = s.mode := rfl
@[simp] theorem abortPass_enforceEnd (s : State) : (abortPass s).enforceEnd = s.enforceEnd := rfl
@[simp] theorem abortPass_encRgb (s : State) : (abortPass s).encRgb = s.encRgb := rfl
@[simp] theorem abortPass_width (s : State) : (abortPass s).width = s.width := rfl
@[simp] theorem abortPass_height (s : State) : (abortPass s).height = s.height := rfl
@[simp] theorem abortPass_channels (s : State) : (abortPass s).channels = s.channels := rfl
@[simp] theorem abortPass_colorspace (s : State) : (abortPass s).colorspace = s.colorspace := rfl
@[simp] theorem abortPass_inByte (s : State) : (abortPass s).inByte = [] := rfl
@[simp] theorem abortPass_inByteEnd (s : State) : (abortPass s).inByteEnd = false := rfl
@[simp] theorem abortPass_inPix (s : State) : (abortPass s).inPix = [] := rfl
@[simp] theorem abortPass_inPixEnd (s : State) : (abortPass s).inPixEnd = false := rfl
@[simp] theorem abortPass_outByte (s : State) : (abortPass s).outByte = [] := rfl
@[simp] theorem abortPass_outPix (s : State) : (abortPass s).outPix = [] := rfl
@[simp] theorem abortPass_agenda (s : State) : (abortPass s).agenda = s.agenda := rfl
@[simp] theorem abortPass_received (s : State) : (abortPass s).received = s.received := rfl

/-! ### `cacheWrite` -/

@[simp] theorem cacheWrite_cache (k : Slot) (p : Pixel) (s : State) : (cacheWrite k p s).cache = s.cache.set k p := rfl
@[simp] theorem cacheWrite_last (k : Slot) (p : Pixel) (s : State) : (cacheWrite k p s).last = s.last := rfl
@[simp] theorem cacheWrite_runCnt (k : Slot) (p : Pixel) (s : State) : (cacheWrite k p s).runCnt = s.runCnt := rfl
@[simp] theorem cacheWrite_remain (k : Slot) (p : Pixel) (s : State) : (cacheWrite k p s).remain = s.remain := rfl
@[simp] theorem cacheWrite_phase (k : Slot) (p : Pixel) (s : State) : (cacheWrite k p s).phase = s.phase := rfl
@[simp] theorem cacheWrite_cause (k : Slot) (p : Pixel) (s : State) : (cacheWrite k p s).cause = s.cause := rfl
@[simp] theorem cacheWrite_mode (k : Slot) (p : Pixel) (s : State) : (cacheWrite k p s).mode = s.mode := rfl
@[simp] theorem cacheWrite_enforceEnd (k : Slot) (p : Pixel) (s : State) : (cacheWrite k p s).enforceEnd = s.enforceEnd := rfl
@[simp] theorem cacheWrite_encRgb (k : Slot) (p : Pixel) (s : State) : (cacheWrite k p s).encRgb = s.encRgb := rfl
@[simp] theorem cacheWrite_width (k : Slot) (p : Pixel) (s : State) : (cacheWrite k p s).width = s.width := rfl
@[simp] theorem cacheWrite_height (k : Slot) (p : Pixel) (s : State) : (cacheWrite k p s).height = s.height := rfl
@[simp] theorem cacheWrite_channels (k : Slot) (p : Pixel) (s : State) : (cacheWrite k p s).channels = s.channels := rfl
@[simp] theorem cacheWrite_colorspace (k : Slot) (p : Pixel) (s : State) : (cacheWrite k p s).colorspace = s.colorspace := rfl
@[simp] theorem cacheWrite_inByte (k : Slot) (p : Pixel) (s : State) : (cacheWrite k p s).inByte = s.inByte := rfl
@[simp] theorem cacheWrite_inByteEnd (k : Slot) (p : Pixel) (s : State) : (cacheWrite k p s).inByteEnd = s.inByteEnd := rfl
@[simp] theorem cacheWrite_inPix (k : Slot) (p : Pixel) (s : State) : (cacheWrite k p s).inPix = s.inPix := rfl
@[simp] theorem cacheWrite_inPixEnd (k : Slot) (p : Pixel) (s : State) : (cacheWrite k p s).inPixEnd = s.inPixEnd := rfl
@[simp] theorem cacheWrite_outByte (k : Slot) (p : Pixel) (s : State) : (cacheWrite k p s).outByte = s.outByte := rfl
@[simp] theorem cacheWrite_outPix (k : Slot) (p : Pixel) (s : State) : (cacheWrite k p s).outPix = s.outPix := rfl
@[simp] theorem cacheWrite_agenda (k : Slot) (p : Pixel) (s : State) : (cacheWrite k p s).agenda = s.agenda := rfl
@[simp] theorem cacheWrite_received (k : Slot) (p : Pixel) (s : State) : (cacheWrite k p s).received = s.received := rfl

/-! ### `setLast` -/

@[simp] theorem setLast_cache (p : Pixel) (s : State) : (setLast p s).cache = s.cache := rfl
@[simp] theorem setLast_last (p : Pixel) (s : State) : (setLast p s).last = p := rfl
@[simp] theorem setLast_runCnt (p : Pixel) (s : State) : (setLast p s).runCnt = s.runCnt := rfl
@[simp] theorem setLast_remain (p : Pixel) (s : State) : (setLast p s).remain = s.remain := rfl
@[simp] theorem setLast_phase (p : Pixel) (s : State) : (setLast p s).phase = s.phase := rfl
@[simp] theorem setLast_cause (p : Pixel) (s : State) : (setLast p s).cause = s.cause := rfl
@[simp] theorem setLast_mode (p : Pixel) (s : State) : (setLast p s).mode = s.mode := rfl
@[simp] theorem setLast_enforceEnd (p : Pixel) (s : State) : (setLast p s).enforceEnd = s.enforceEnd := rfl
@[simp] theorem setLast_encRgb (p : Pixel) (s : State) : (setLast p s).encRgb = s.encRgb := rfl
@[simp] theorem setLast_width (p : Pixel) (s : State) : (setLast p s).width = s.width := rfl
@[simp] theorem setLast_height (p : Pixel) (s : State) : (setLast p s).height = s.height := rfl
@[simp] theorem setLast_channels (p : Pixel) (s : State) : (setLast p s).channels = s.channels := rfl
@[simp] theorem setLast_colorspace (p : Pixel) (s : State) : (setLast p s).colorspace = s.colorspace := rfl
@[simp] theorem setLast_inByte (p : Pixel) (s : State) : (setLast p s).inByte = s.inByte := rfl
@[simp] theorem setLast_inByteEnd (p : Pixel) (s : State) : (setLast p s).inByteEnd = s.inByteEnd := rfl
@[simp] theorem setLast_inPix (p : Pixel) (s : State) : (setLast p s).inPix = s.inPix := rfl
@[simp] theorem setLast_inPixEnd (p : Pixel) (s : State) : (setLast p s).inPixEnd = s.inPixEnd := rfl
@[simp] theorem setLast_outByte (p : Pixel) (s : State) : (setLast p s).outByte = s.outByte := rfl
@[simp] theorem setLast_outPix (p : Pixel) (s : State) : (setLast p s).outPix = s.outPix := rfl
@[simp] theorem setLast_agenda (p : Pixel) (s : State) : (setLast p s).agenda = s.agenda := rfl
@[simp] theorem setLast_received (p : Pixel) (s : State) : (setLast p s).received = s.received := rfl

/-! ### `emitBytes` -/

@[simp] theorem emitBytes_cache (bs : List Byte) (s : State) : (emitBytes bs s).cache = s.cache := rfl
@[simp] theorem emitBytes_last (bs : List Byte) (s : State) : (emitBytes bs s).last = s.last := rfl
@[simp] theorem emitBytes_runCnt (bs : List Byte) (s : State) : (emitBytes bs s).runCnt = s.runCnt := rfl
@[simp] theorem emitBytes_remain (bs : List Byte) (s : State) : (emitBytes bs s).remain = s.remain := rfl
@[simp] theorem emitBytes_phase (bs : List Byte) (s : State) : (emitBytes bs s).phase = s.phase := rfl
@[simp] theorem emitBytes_cause (bs : List Byte) (s : State) : (emitBytes bs s).cause = s.cause := rfl
@[simp] theorem emitBytes_mode (bs : List Byte) (s : State) : (emitBytes bs s).mode = s.mode := rfl
@[simp] theorem emitBytes_enforceEnd (bs : List Byte) (s : State) : (emitBytes bs s).enforceEnd = s.enforceEnd := rfl
@[simp] theorem emitBytes_encRgb (bs : List Byte) (s : State) : (emitBytes bs s).encRgb = s.encRgb := rfl
@[simp] theorem emitBytes_width (bs : List Byte) (s : State) : (emitBytes bs s).width = s.width := rfl
@[simp] theorem emitBytes_height (bs : List Byte) (s : State) : (emitBytes bs s).height = s.height := rfl
@[simp] theorem emitBytes_channels (bs : List Byte) (s : State) : (emitBytes bs s).channels = s.channels := rfl
@[simp] theorem emitBytes_colorspace (bs : List Byte) (s : State) : (emitBytes bs s).colorspace = s.colorspace := rfl
@[simp] theorem emitBytes_inByte (bs : List Byte) (s : State) : (emitBytes bs s).inByte = s.inByte := rfl
@[simp] theorem emitBytes_inByteEnd (bs : List Byte) (s : State) : (emitBytes bs s).inByteEnd = s.inByteEnd := rfl
@[simp] theorem emitBytes_inPix (bs : List Byte) (s : State) : (emitBytes bs s).inPix = s.inPix := rfl
@[simp] theorem emitBytes_inPixEnd (bs : List Byte) (s : State) : (emitBytes bs s).inPixEnd = s.inPixEnd := rfl
@[simp] theorem emitBytes_outByte (bs : List Byte) (s : State) : (emitBytes bs s).outByte = s.outByte ++ bs := rfl
@[simp] theorem emitBytes_outPix (bs : List Byte) (s : State) : (emitBytes bs s).outPix = s.outPix := rfl
@[simp] theorem emitBytes_agenda (bs : List Byte) (s : State) : (emitBytes bs s).agenda = s.agenda := rfl
@[simp] theorem emitBytes_received (bs : List Byte) (s : State) : (emitBytes bs s).received = s.received := rfl

/-! ### `emitPixels` -/

@[simp] theorem emitPixels_cache (ps : List Pixel) (s : State) : (emitPixels ps s).cache = s.cache := rfl
@[simp] theorem emitPixels_last (ps : List Pixel) (s : State) : (emitPixels ps s).last = s.last := rfl
@[simp] theorem emitPixels_runCnt (ps : List Pixel) (s : State) : (emitPixels ps s).runCnt = s.runCnt := rfl
@[simp] theorem emitPixels_remain (ps : List Pixel) (s : State) : (emitPixels ps s).remain = s.remain := rfl
@[simp] theorem emitPixels_phase (ps : List Pixel) (s : State) : (emitPixels ps s).phase = s.phase := rfl
@[simp] theorem emitPixels_cause (ps : List Pixel) (s : State) : (emitPixels ps s).cause = s.cause := rfl
@[simp] theorem emitPixels_mode (ps : List Pixel) (s : State) : (emitPixels ps s).mode = s.mode := rfl
@[simp] theorem emitPixels_enforceEnd (ps : List Pixel) (s : State) : (emitPixels ps s).enforceEnd = s.enforceEnd := rfl
@[simp] theorem emitPixels_encRgb (ps : List Pixel) (s : State) : (emitPixels ps s).encRgb = s.encRgb := rfl
@[simp] theorem emitPixels_width (ps : List Pixel) (s : State) : (emitPixels ps s).width = s.width := rfl
@[simp] theorem emitPixels_height (ps : List Pixel) (s : State) : (emitPixels ps s).height = s.height := rfl
@[simp] theorem emitPixels_channels (ps : List Pixel) (s : State) : (emitPixels ps s).channels = s.channels := rfl
@[simp] theorem emitPixels_colorspace (ps : List Pixel) (s : State) : (emitPixels ps s).colorspace = s.colorspace := rfl
@[simp] theorem emitPixels_inByte (ps : List Pixel) (s : State) : (emitPixels ps s).inByte = s.inByte := rfl
@[simp] theorem emitPixels_inByteEnd (ps : List Pixel) (s : State) : (emitPixels ps s).inByteEnd = s.inByteEnd := rfl
@[simp] theorem emitPixels_inPix (ps : List Pixel) (s : State) : (emitPixels ps s).inPix = s.inPix := rfl
@[simp] theorem emitPixels_inPixEnd (ps : List Pixel) (s : State) : (emitPixels ps s).inPixEnd = s.inPixEnd := rfl
@[simp] theorem emitPixels_outByte (ps : List Pixel) (s : State) : (emitPixels ps s).outByte = s.outByte := rfl
@[simp] theorem emitPixels_outPix (ps : List Pixel) (s : State) : (emitPixels ps s).outPix = s.outPix ++ ps.map toPacked := rfl
@[simp] theorem emitPixels_agenda (ps : List Pixel) (s : State) : (emitPixels ps s).agenda = s.agenda := rfl
@[simp] theorem emitPixels_received (ps : List Pixel) (s : State) : (emitPixels ps s).received = s.received := rfl

/-! ### `dropBytes` -/

@[simp] theorem dropBytes_cache (n : Nat) (s : State) : (dropBytes n s).cache = s.cache := rfl
@[simp] theorem dropBytes_last (n : Nat) (s : State) : (dropBytes n s).last = s.last := rfl
@[simp] theorem dropBytes_runCnt (n : Nat) (s : State) : (dropBytes n s).runCnt = s.runCnt := rfl
@[simp] theorem dropBytes_remain (n : Nat) (s : State) : (dropBytes n s).remain = s.remain := rfl
@[simp] theorem dropBytes_phase (n : Nat) (s : State) : (dropBytes n s).phase = s.phase := rfl
@[simp] theorem dropBytes_cause (n : Nat) (s : State) : (dropBytes n s).cause = s.cause := rfl
@[simp] theorem dropBytes_mode (n : Nat) (s : State) : (dropBytes n s).mode = s.mode := rfl
@[simp] theorem dropBytes_enforceEnd (n : Nat) (s : State) : (dropBytes n s).enforceEnd = s.enforceEnd := rfl
@[simp] theorem dropBytes_encRgb (n : Nat) (s : State) : (dropBytes n s).encRgb = s.encRgb := rfl
@[simp] theorem dropBytes_width (n : Nat) (s : State) : (dropBytes n s).width = s.width := rfl
@[simp] theorem dropBytes_height (n : Nat) (s : State) : (dropBytes n s).height = s.height := rfl
@[simp] theorem dropBytes_channels (n : Nat) (s : State) : (dropBytes n s).channels = s.channels := rfl
@[simp] theorem dropBytes_colorspace (n : Nat) (s : State) : (dropBytes n s).colorspace = s.colorspace := rfl
@[simp] theorem dropBytes_inByte (n : Nat) (s : State) : (dropBytes n s).inByte = s.inByte.drop n := rfl
@[simp] theorem dropBytes_inByteEnd (n : Nat) (s : State) : (dropBytes n s).inByteEnd = s.inByteEnd := rfl
@[simp] theorem dropBytes_inPix (n : Nat) (s : State) : (dropBytes n s).inPix = s.inPix := rfl
@[simp] theorem dropBytes_inPixEnd (n : Nat) (s : State) : (dropBytes n s).inPixEnd = s.inPixEnd := rfl
@[simp] theorem dropBytes_outByte (n : Nat) (s : State) : (dropBytes n s).outByte = s.outByte := rfl
@[simp] theorem dropBytes_outPix (n : Nat) (s : State) : (dropBytes n s).outPix = s.outPix := rfl
@[simp] theorem dropBytes_agenda (n : Nat) (s : State) : (dropBytes n s).agenda = s.agenda := rfl
@[simp] theorem dropBytes_received (n : Nat) (s : State) : (dropBytes n s).received = s.received := rfl

/-! ### `dropPixel` -/

@[simp] theorem dropPixel_cache (s : State) : (dropPixel s).cache = s.cache := rfl
@[simp] theorem dropPixel_last (s : State) : (dropPixel s).last = s.last := rfl
@[simp] theorem dropPixel_runCnt (s : State) : (dropPixel s).runCnt = s.runCnt := rfl
@[simp] theorem dropPixel_remain (s : State) : (dropPixel s).remain = s.remain := rfl
@[simp] theorem dropPixel_phase (s : State) : (dropPixel s).phase = s.phase := rfl
@[simp] theorem dropPixel_cause (s : State) : (dropPixel s).cause = s.cause := rfl
@[simp] theorem dropPixel_mode (s : State) : (dropPixel s).mode = s.mode := rfl
@[simp] theorem dropPixel_enforceEnd (s : State) : (dropPixel s).enforceEnd = s.enforceEnd := rfl
@[simp] theorem dropPixel_encRgb (s : State) : (dropPixel s).encRgb = s.encRgb := rfl
@[simp] theorem dropPixel_width (s : State) : (dropPixel s).width = s.width := rfl
@[simp] theorem dropPixel_height (s : State) : (dropPixel s).height = s.height := rfl
@[simp] theorem dropPixel_channels (s : State) : (dropPixel s).channels = s.channels := rfl
@[simp] theorem dropPixel_colorspace (s : State) : (dropPixel s).colorspace = s.colorspace := rfl
@[simp] theorem dropPixel_inByte (s : State) : (dropPixel s).inByte = s.inByte := rfl
@[simp] theorem dropPixel_inByteEnd (s : State) : (dropPixel s).inByteEnd = s.inByteEnd := rfl
@[simp] theorem dropPixel_inPix (s : State) : (dropPixel s).inPix = s.inPix.drop 1 := rfl
@[simp] theorem dropPixel_inPixEnd (s : State) : (dropPixel s).inPixEnd = s.inPixEnd := rfl
@[simp] theorem dropPixel_outByte (s : State) : (dropPixel s).outByte = s.outByte := rfl
@[simp] theorem dropPixel_outPix (s : State) : (dropPixel s).outPix = s.outPix := rfl
@[simp] theorem dropPixel_agenda (s : State) : (dropPixel s).agenda = s.agenda := rfl
@[simp] theorem dropPixel_received (s : State) : (dropPixel s).received = s.received := rfl

/-! ### `setRemain` -/

@[simp] theorem setRemain_cache (v : BitVec 64) (s : State) : (setRemain v s).cache = s.cache := rfl
@[simp] theorem setRemain_last (v : BitVec 64) (s : State) : (setRemain v s).last = s.last := rfl
@[simp] theorem setRemain_runCnt (v : BitVec 64) (s : State) : (setRemain v s).runCnt = s.runCnt := rfl
@[simp] theorem setRemain_remain (v : BitVec 64) (s : State) : (setRemain v s).remain = v := rfl
@[simp] theorem setRemain_phase (v : BitVec 64) (s : State) : (setRemain v s).phase = s.phase := rfl
@[simp] theorem setRemain_cause (v : BitVec 64) (s : State) : (setRemain v s).cause = s.cause := rfl
@[simp] theorem setRemain_mode (v : BitVec 64) (s : State) : (setRemain v s).mode = s.mode := rfl
@[simp] theorem setRemain_enforceEnd (v : BitVec 64) (s : State) : (setRemain v s).enforceEnd = s.enforceEnd := rfl
@[simp] theorem setRemain_encRgb (v : BitVec 64) (s : State) : (setRemain v s).encRgb = s.encRgb := rfl
@[simp] theorem setRemain_width (v : BitVec 64) (s : State) : (setRemain v s).width = s.width := rfl
@[simp] theorem setRemain_height (v : BitVec 64) (s : State) : (setRemain v s).height = s.height := rfl
@[simp] theorem setRemain_channels (v : BitVec 64) (s : State) : (setRemain v s).channels = s.channels := rfl
@[simp] theorem setRemain_colorspace (v : BitVec 64) (s : State) : (setRemain v s).colorspace = s.colorspace := rfl
@[simp] theorem setRemain_inByte (v : BitVec 64) (s : State) : (setRemain v s).inByte = s.inByte := rfl
@[simp] theorem setRemain_inByteEnd (v : BitVec 64) (s : State) : (setRemain v s).inByteEnd = s.inByteEnd := rfl
@[simp] theorem setRemain_inPix (v : BitVec 64) (s : State) : (setRemain v s).inPix = s.inPix := rfl
@[simp] theorem setRemain_inPixEnd (v : BitVec 64) (s : State) : (setRemain v s).inPixEnd = s.inPixEnd := rfl
@[simp] theorem setRemain_outByte (v : BitVec 64) (s : State) : (setRemain v s).outByte = s.outByte := rfl
@[simp] theorem setRemain_outPix (v : BitVec 64) (s : State) : (setRemain v s).outPix = s.outPix := rfl
@[simp] theorem setRemain_agenda (v : BitVec 64) (s : State) : (setRemain v s).agenda = s.agenda := rfl
@[simp] theorem setRemain_received (v : BitVec 64) (s : State) : (setRemain v s).received = s.received := rfl

/-! ### `setRunCnt` -/

@[simp] theorem setRunCnt_cache (v : BitVec 6) (s : State) : (setRunCnt v s).cache = s.cache := rfl
@[simp] theorem setRunCnt_last (v : BitVec 6) (s : State) : (setRunCnt v s).last = s.last := rfl
@[simp] theorem setRunCnt_runCnt (v : BitVec 6) (s : State) : (setRunCnt v s).runCnt = v := rfl
@[simp] theorem setRunCnt_remain (v : BitVec 6) (s : State) : (setRunCnt v s).remain = s.remain := rfl
@[simp] theorem setRunCnt_phase (v : BitVec 6) (s : State) : (setRunCnt v s).phase = s.phase := rfl
@[simp] theorem setRunCnt_cause (v : BitVec 6) (s : State) : (setRunCnt v s).cause = s.cause := rfl
@[simp] theorem setRunCnt_mode (v : BitVec 6) (s : State) : (setRunCnt v s).mode = s.mode := rfl
@[simp] theorem setRunCnt_enforceEnd (v : BitVec 6) (s : State) : (setRunCnt v s).enforceEnd = s.enforceEnd := rfl
@[simp] theorem setRunCnt_encRgb (v : BitVec 6) (s : State) : (setRunCnt v s).encRgb = s.encRgb := rfl
@[simp] theorem setRunCnt_width (v : BitVec 6) (s : State) : (setRunCnt v s).width = s.width := rfl
@[simp] theorem setRunCnt_height (v : BitVec 6) (s : State) : (setRunCnt v s).height = s.height := rfl
@[simp] theorem setRunCnt_channels (v : BitVec 6) (s : State) : (setRunCnt v s).channels = s.channels := rfl
@[simp] theorem setRunCnt_colorspace (v : BitVec 6) (s : State) : (setRunCnt v s).colorspace = s.colorspace := rfl
@[simp] theorem setRunCnt_inByte (v : BitVec 6) (s : State) : (setRunCnt v s).inByte = s.inByte := rfl
@[simp] theorem setRunCnt_inByteEnd (v : BitVec 6) (s : State) : (setRunCnt v s).inByteEnd = s.inByteEnd := rfl
@[simp] theorem setRunCnt_inPix (v : BitVec 6) (s : State) : (setRunCnt v s).inPix = s.inPix := rfl
@[simp] theorem setRunCnt_inPixEnd (v : BitVec 6) (s : State) : (setRunCnt v s).inPixEnd = s.inPixEnd := rfl
@[simp] theorem setRunCnt_outByte (v : BitVec 6) (s : State) : (setRunCnt v s).outByte = s.outByte := rfl
@[simp] theorem setRunCnt_outPix (v : BitVec 6) (s : State) : (setRunCnt v s).outPix = s.outPix := rfl
@[simp] theorem setRunCnt_agenda (v : BitVec 6) (s : State) : (setRunCnt v s).agenda = s.agenda := rfl
@[simp] theorem setRunCnt_received (v : BitVec 6) (s : State) : (setRunCnt v s).received = s.received := rfl

/-! ### `setPhase` -/

@[simp] theorem setPhase_cache (ph : Phase) (s : State) : (setPhase ph s).cache = s.cache := rfl
@[simp] theorem setPhase_last (ph : Phase) (s : State) : (setPhase ph s).last = s.last := rfl
@[simp] theorem setPhase_runCnt (ph : Phase) (s : State) : (setPhase ph s).runCnt = s.runCnt := rfl
@[simp] theorem setPhase_remain (ph : Phase) (s : State) : (setPhase ph s).remain = s.remain := rfl
@[simp] theorem setPhase_phase (ph : Phase) (s : State) : (setPhase ph s).phase = ph := rfl
@[simp] theorem setPhase_cause (ph : Phase) (s : State) : (setPhase ph s).cause = s.cause := rfl
@[simp] theorem setPhase_mode (ph : Phase) (s : State) : (setPhase ph s).mode = s.mode := rfl
@[simp] theorem setPhase_enforceEnd (ph : Phase) (s : State) : (setPhase ph s).enforceEnd = s.enforceEnd := rfl
@[simp] theorem setPhase_encRgb (ph : Phase) (s : State) : (setPhase ph s).encRgb = s.encRgb := rfl
@[simp] theorem setPhase_width (ph : Phase) (s : State) : (setPhase ph s).width = s.width := rfl
@[simp] theorem setPhase_height (ph : Phase) (s : State) : (setPhase ph s).height = s.height := rfl
@[simp] theorem setPhase_channels (ph : Phase) (s : State) : (setPhase ph s).channels = s.channels := rfl
@[simp] theorem setPhase_colorspace (ph : Phase) (s : State) : (setPhase ph s).colorspace = s.colorspace := rfl
@[simp] theorem setPhase_inByte (ph : Phase) (s : State) : (setPhase ph s).inByte = s.inByte := rfl
@[simp] theorem setPhase_inByteEnd (ph : Phase) (s : State) : (setPhase ph s).inByteEnd = s.inByteEnd := rfl
@[simp] theorem setPhase_inPix (ph : Phase) (s : State) : (setPhase ph s).inPix = s.inPix := rfl
@[simp] theorem setPhase_inPixEnd (ph : Phase) (s : State) : (setPhase ph s).inPixEnd = s.inPixEnd := rfl
@[simp] theorem setPhase_outByte (ph : Phase) (s : State) : (setPhase ph s).outByte = s.outByte := rfl
@[simp] theorem setPhase_outPix (ph : Phase) (s : State) : (setPhase ph s).outPix = s.outPix := rfl
@[simp] theorem setPhase_agenda (ph : Phase) (s : State) : (setPhase ph s).agenda = s.agenda := rfl
@[simp] theorem setPhase_received (ph : Phase) (s : State) : (setPhase ph s).received = s.received := rfl

/-! ### `writeHeader` -/

@[simp] theorem writeHeader_cache (f : HeaderFields) (s : State) : (writeHeader f s).cache = s.cache := rfl
@[simp] theorem writeHeader_last (f : HeaderFields) (s : State) : (writeHeader f s).last = s.last := rfl
@[simp] theorem writeHeader_runCnt (f : HeaderFields) (s : State) : (writeHeader f s).runCnt = s.runCnt := rfl
@[simp] theorem writeHeader_remain (f : HeaderFields) (s : State) : (writeHeader f s).remain = s.remain := rfl
@[simp] theorem writeHeader_phase (f : HeaderFields) (s : State) : (writeHeader f s).phase = s.phase := rfl
@[simp] theorem writeHeader_cause (f : HeaderFields) (s : State) : (writeHeader f s).cause = s.cause := rfl
@[simp] theorem writeHeader_mode (f : HeaderFields) (s : State) : (writeHeader f s).mode = s.mode := rfl
@[simp] theorem writeHeader_enforceEnd (f : HeaderFields) (s : State) : (writeHeader f s).enforceEnd = s.enforceEnd := rfl
@[simp] theorem writeHeader_encRgb (f : HeaderFields) (s : State) : (writeHeader f s).encRgb = s.encRgb := rfl
@[simp] theorem writeHeader_width (f : HeaderFields) (s : State) : (writeHeader f s).width = f.width := rfl
@[simp] theorem writeHeader_height (f : HeaderFields) (s : State) : (writeHeader f s).height = f.height := rfl
@[simp] theorem writeHeader_channels (f : HeaderFields) (s : State) : (writeHeader f s).channels = f.channels := rfl
@[simp] theorem writeHeader_colorspace (f : HeaderFields) (s : State) : (writeHeader f s).colorspace = f.colorspace := rfl
@[simp] theorem writeHeader_inByte (f : HeaderFields) (s : State) : (writeHeader f s).inByte = s.inByte := rfl
@[simp] theorem writeHeader_inByteEnd (f : HeaderFields) (s : State) : (writeHeader f s).inByteEnd = s.inByteEnd := rfl
@[simp] theorem writeHeader_inPix (f : HeaderFields) (s : State) : (writeHeader f s).inPix = s.inPix := rfl
@[simp] theorem writeHeader_inPixEnd (f : HeaderFields) (s : State) : (writeHeader f s).inPixEnd = s.inPixEnd := rfl
@[simp] theorem writeHeader_outByte (f : HeaderFields) (s : State) : (writeHeader f s).outByte = s.outByte := rfl
@[simp] theorem writeHeader_outPix (f : HeaderFields) (s : State) : (writeHeader f s).outPix = s.outPix := rfl
@[simp] theorem writeHeader_agenda (f : HeaderFields) (s : State) : (writeHeader f s).agenda = s.agenda := rfl
@[simp] theorem writeHeader_received (f : HeaderFields) (s : State) : (writeHeader f s).received = s.received := rfl

/-! ### `writeOptions` -/

@[simp] theorem writeOptions_cache (v : Word) (s : State) : (writeOptions v s).cache = s.cache := rfl
@[simp] theorem writeOptions_last (v : Word) (s : State) : (writeOptions v s).last = s.last := rfl
@[simp] theorem writeOptions_runCnt (v : Word) (s : State) : (writeOptions v s).runCnt = s.runCnt := rfl
@[simp] theorem writeOptions_remain (v : Word) (s : State) : (writeOptions v s).remain = s.remain := rfl
@[simp] theorem writeOptions_phase (v : Word) (s : State) : (writeOptions v s).phase = s.phase := rfl
@[simp] theorem writeOptions_cause (v : Word) (s : State) : (writeOptions v s).cause = s.cause := rfl
@[simp] theorem writeOptions_mode (v : Word) (s : State) : (writeOptions v s).mode = modeOfBit (v.getLsbD 2) := rfl
@[simp] theorem writeOptions_enforceEnd (v : Word) (s : State) : (writeOptions v s).enforceEnd = v.getLsbD 3 := rfl
@[simp] theorem writeOptions_encRgb (v : Word) (s : State) : (writeOptions v s).encRgb = v.getLsbD 4 := rfl
@[simp] theorem writeOptions_width (v : Word) (s : State) : (writeOptions v s).width = s.width := rfl
@[simp] theorem writeOptions_height (v : Word) (s : State) : (writeOptions v s).height = s.height := rfl
@[simp] theorem writeOptions_channels (v : Word) (s : State) : (writeOptions v s).channels = s.channels := rfl
@[simp] theorem writeOptions_colorspace (v : Word) (s : State) : (writeOptions v s).colorspace = s.colorspace := rfl
@[simp] theorem writeOptions_inByte (v : Word) (s : State) : (writeOptions v s).inByte = s.inByte := rfl
@[simp] theorem writeOptions_inByteEnd (v : Word) (s : State) : (writeOptions v s).inByteEnd = s.inByteEnd := rfl
@[simp] theorem writeOptions_inPix (v : Word) (s : State) : (writeOptions v s).inPix = s.inPix := rfl
@[simp] theorem writeOptions_inPixEnd (v : Word) (s : State) : (writeOptions v s).inPixEnd = s.inPixEnd := rfl
@[simp] theorem writeOptions_outByte (v : Word) (s : State) : (writeOptions v s).outByte = s.outByte := rfl
@[simp] theorem writeOptions_outPix (v : Word) (s : State) : (writeOptions v s).outPix = s.outPix := rfl
@[simp] theorem writeOptions_agenda (v : Word) (s : State) : (writeOptions v s).agenda = s.agenda := rfl
@[simp] theorem writeOptions_received (v : Word) (s : State) : (writeOptions v s).received = s.received := rfl

/-! ### `giveHost` -/

@[simp] theorem giveHost_cache (v : HostValue) (s : State) : (giveHost v s).cache = s.cache := rfl
@[simp] theorem giveHost_last (v : HostValue) (s : State) : (giveHost v s).last = s.last := rfl
@[simp] theorem giveHost_runCnt (v : HostValue) (s : State) : (giveHost v s).runCnt = s.runCnt := rfl
@[simp] theorem giveHost_remain (v : HostValue) (s : State) : (giveHost v s).remain = s.remain := rfl
@[simp] theorem giveHost_phase (v : HostValue) (s : State) : (giveHost v s).phase = s.phase := rfl
@[simp] theorem giveHost_cause (v : HostValue) (s : State) : (giveHost v s).cause = s.cause := rfl
@[simp] theorem giveHost_mode (v : HostValue) (s : State) : (giveHost v s).mode = s.mode := rfl
@[simp] theorem giveHost_enforceEnd (v : HostValue) (s : State) : (giveHost v s).enforceEnd = s.enforceEnd := rfl
@[simp] theorem giveHost_encRgb (v : HostValue) (s : State) : (giveHost v s).encRgb = s.encRgb := rfl
@[simp] theorem giveHost_width (v : HostValue) (s : State) : (giveHost v s).width = s.width := rfl
@[simp] theorem giveHost_height (v : HostValue) (s : State) : (giveHost v s).height = s.height := rfl
@[simp] theorem giveHost_channels (v : HostValue) (s : State) : (giveHost v s).channels = s.channels := rfl
@[simp] theorem giveHost_colorspace (v : HostValue) (s : State) : (giveHost v s).colorspace = s.colorspace := rfl
@[simp] theorem giveHost_inByte (v : HostValue) (s : State) : (giveHost v s).inByte = s.inByte := rfl
@[simp] theorem giveHost_inByteEnd (v : HostValue) (s : State) : (giveHost v s).inByteEnd = s.inByteEnd := rfl
@[simp] theorem giveHost_inPix (v : HostValue) (s : State) : (giveHost v s).inPix = s.inPix := rfl
@[simp] theorem giveHost_inPixEnd (v : HostValue) (s : State) : (giveHost v s).inPixEnd = s.inPixEnd := rfl
@[simp] theorem giveHost_outByte (v : HostValue) (s : State) : (giveHost v s).outByte = s.outByte := rfl
@[simp] theorem giveHost_outPix (v : HostValue) (s : State) : (giveHost v s).outPix = s.outPix := rfl
@[simp] theorem giveHost_agenda (v : HostValue) (s : State) : (giveHost v s).agenda = s.agenda := rfl
@[simp] theorem giveHost_received (v : HostValue) (s : State) : (giveHost v s).received = s.received ++ [v] := rfl

end Sys2Proof.Machine
end

