-- ==== Sys2Proof/Laws/Ops.lean ====
section
/-! SUPPORT. One lemma per shared operation: everything the operation can do. Later proofs cite these instead of unfolding
the operations. -/

namespace Sys2Proof.Machine

/-! ### The colour cache -/

/-- Read after write, at the same slot and at any other. -/
theorem cacheWrite_get (j k : Slot) (p : Pixel) (s : State) :
    (cacheWrite k p s).cache.get j = if j = k then p else s.cache.get j := by
  simp only [cacheWrite_cache, Vector.get_eq_getElem, Vector.getElem_set, Fin.ext_iff, eq_comm]

/-- Writing what a slot already holds changes nothing. -/
theorem cacheWrite_self {k : Slot} {p : Pixel} {s : State} (h : s.cache.get k = p) : cacheWrite k p s = s := by
  have hc : s.cache.set k p = s.cache := by
    rw [← h]
    ext i hi
    simp only [Vector.getElem_set, Vector.get_eq_getElem]
    split <;> simp_all
  simp only [cacheWrite, hc]

/-- `observe` leaves the pixel in its slot, whether it was there or not. -/
theorem observe_state (p : Pixel) (s : State) : (observe p s).2 = cacheWrite (pixelHash p) p s := by
  simp only [observe, hitFlag]
  by_cases h : s.cache.get (pixelHash p) = p
  · simp [h, cacheWrite_self]
  · simp [h]

/-- `observe` hits exactly when the pixel was in its slot. -/
theorem observe_hit (p : Pixel) (s : State) :
    (observe p s).1 = if s.cache.get (pixelHash p) = p then some (pixelHash p) else none := rfl

/-- `advance` leaves the pixel in LAST, whether it was there or not. -/
theorem advance_state (p : Pixel) (s : State) : (advance p s).2 = setLast p s := by
  simp only [advance, repeatFlag]
  by_cases h : p = s.last
  · subst h; simp [setLast]
  · simp [h]

/-- `advance` reports a repeat exactly when the pixel was LAST. -/
theorem advance_repeat (p : Pixel) (s : State) : (advance p s).1 = decide (p = s.last) := rfl

/-! ### Block steps -/

/-- A valid block runs its effect. -/
theorem validated_of_wf {i : Instr} (h : i.wellFormed = true) (s : State) (k : State → Outcome) :
    validated i s k = k s := by simp [validated, h]

/-- Any other term is a field-range error. -/
theorem validated_of_not_wf {i : Instr} (h : i.wellFormed = false) (s : State) (k : State → Outcome) :
    validated i s k = .next (raise .vFieldRange s) := by simp [validated, h]

/-- The two phases a block stream can end in. -/
theorem endPhase_cases (b : Bool) :
    (if b = true then Phase.trailer else Phase.done) = .trailer ∨ (if b = true then Phase.trailer else Phase.done) = .done := by
  cases b <;> simp

/-- The end of a block step, when REMAIN pays for its pixels. -/
theorem retire_of_le {ps : List Pixel} {s : State} (h : ps.length ≤ s.remain.toNat) :
    retire ps s =
      .next
        { s with
          outPix := s.outPix ++ ps.map toPacked
          remain := s.remain - BitVec.ofNat 64 ps.length
          phase :=
            if s.remain.toNat = ps.length then (if s.enforceEnd then .trailer else .done) else s.phase } := by
  have hl : ps.length < 2 ^ 64 := by have := s.remain.isLt; omega
  have hz : (s.remain - BitVec.ofNat 64 ps.length = 0#64) ↔ s.remain.toNat = ps.length := by
    rw [← BitVec.toNat_inj]
    simp only [BitVec.toNat_sub, BitVec.toNat_ofNat]
    have := s.remain.isLt
    simp only [Nat.mod_eq_of_lt hl]
    omega
  simp only [retire, if_neg (Nat.not_lt.mpr h), setRemain_remain, hz, finishBlocks, setRemain_enforceEnd, emitPixels_enforceEnd]
  split <;> rfl

/-- The end of a block step, when it does not. -/
theorem retire_of_lt {ps : List Pixel} {s : State} (h : s.remain.toNat < ps.length) :
    retire ps s = .fault .remainUnderflow := by simp [retire, h]

/-- A one-pixel block: the pixel goes to its slot, to LAST and out. -/
theorem producePixel_eq (p : Pixel) (s : State) :
    producePixel p s = retire [p] (setLast p (cacheWrite (pixelHash p) p s)) := by
  simp only [producePixel, observe_state, advance_state]

/-- The pixel a one-pixel block stands for, against the state before it. -/
def blockPixel (i : Instr) (s : State) : Option Pixel :=
  match i with
  | .rgb r g b => some (pixelOfRgb r g b s.last)
  | .rgba r g b a => some (pixelOfRgba r g b a)
  | .index k => some (s.cache.get (slotOf k))
  | .diff dr dg db => some (pixelOfDiff dr dg db s.last)
  | .luma dg drdg dbdg => some (pixelOfLuma dg drdg dbdg s.last)
  | .run _ => none

/-- Everything `exec` can do with a well-formed block: one pixel, an overshooting run, or a run. -/
theorem exec_of_wf {i : Instr} (h : i.wellFormed = true) (s : State) :
    (∃ p, blockPixel i s = some p ∧ exec i s = retire [p] (setLast p (cacheWrite (pixelHash p) p s))) ∨
      (∃ n, i = .run n ∧
        exec i s =
          if s.remain.toNat < n.toNat then .next (raise .fRunOvershoot s) else retire (List.replicate n.toNat s.last) s) := by
  cases i with
  | rgb r g b => exact .inl ⟨_, rfl, by simp only [exec, execRgb, validated_of_wf h, producePixel_eq]⟩
  | rgba r g b a => exact .inl ⟨_, rfl, by simp only [exec, execRgba, validated_of_wf h, producePixel_eq]⟩
  | index k => exact .inl ⟨_, rfl, by simp only [exec, execIndex, validated_of_wf h, producePixel_eq, cacheRead]⟩
  | diff dr dg db => exact .inl ⟨_, rfl, by simp only [exec, execDiff, validated_of_wf h, producePixel_eq]⟩
  | luma dg drdg dbdg => exact .inl ⟨_, rfl, by simp only [exec, execLuma, validated_of_wf h, producePixel_eq]⟩
  | run n => exact .inr ⟨n, rfl, by simp only [exec, execRun, validated_of_wf h]⟩

/-- What `exec` does with a term that is no block. -/
theorem exec_of_not_wf {i : Instr} (h : i.wellFormed = false) (s : State) : exec i s = .next (raise .vFieldRange s) := by
  cases i <;>
    simp only [exec, execRgb, execRgba, execIndex, execDiff, execLuma, execRun, validated_of_not_wf h]

/-! ### Emitting blocks -/

/-- A valid block is emitted and the step goes on. -/
theorem emitBlock_of_wf {i : Instr} (h : i.wellFormed = true) (s : State) (rest : State → State) :
    emitBlock i s rest = rest (emitBytes (encode i) s) := by simp [emitBlock, encodeBlock, h]

/-- Any other term ends the step. -/
theorem emitBlock_of_not_wf {i : Instr} (h : i.wellFormed = false) (s : State) (rest : State → State) :
    emitBlock i s rest = raise .vFieldRange s := by simp [emitBlock, encodeBlock, h]

/-- The bytes a pending run of `n` pixels is flushed as. -/
def flushBytes (n : BitVec 6) : List Byte := if n = 0#6 then [] else encode (.run n.toNat)

/-- Flushing a pending run of at most 62 pixels. -/
theorem flushRun_of_le {s : State} (h : s.runCnt.toNat ≤ Config.maxRun) (rest : State → State) :
    flushRun s rest = rest (setRunCnt 0#6 (emitBytes (flushBytes s.runCnt) s)) := by
  by_cases hz : s.runCnt = 0#6
  · have : setRunCnt 0#6 (emitBytes (flushBytes s.runCnt) s) = s := by
      simp [flushBytes, hz, emitBytes, setRunCnt]
      cases s; simp_all
    rw [this, flushRun, if_pos hz]
  · have hw : (Instr.run s.runCnt.toNat).wellFormed = true := by
      have h0 : s.runCnt.toNat ≠ 0 := fun h0 => hz (BitVec.eq_of_toNat_eq h0)
      simp only [Instr.wellFormed, decide_eq_true_eq, Config.maxRun] at *
      omega
    rw [flushRun, if_neg hz, emitBlock_of_wf hw, flushBytes, if_neg hz]

/-- The block selected by deltas always has its fields in range. -/
theorem selectByDeltas_wf (p : Pixel) (dr dg db : Int) (encRgb : Bool) :
    (selectByDeltas p dr dg db encRgb).wellFormed = true := by
  unfold selectByDeltas
  split_ifs with hd hl
  · exact (wellFormed_diff dr dg db).mpr hd
  · exact (wellFormed_luma _ _ _).mpr hl
  · exact (wellFormed_rgb _ _ _).mpr ⟨isChannel_toNat _, isChannel_toNat _, isChannel_toNat _⟩
  · exact (wellFormed_rgba _ _ _ _).mpr ⟨isChannel_toNat _, isChannel_toNat _, isChannel_toNat _, isChannel_toNat _⟩

/-- The block the encoder selects always has its fields in range (spec/44_encoder.md R270). -/
theorem selectBlock_wf (hit : Option Slot) (p last : Pixel) (encRgb : Bool) :
    (selectBlock hit p last encRgb).wellFormed = true := by
  unfold selectBlock
  split
  · rename_i k
    have := k.isLt
    simp only [Config.cacheSlots] at this
    exact (wellFormed_index _).mpr (by omega)
  · split_ifs
    · exact (wellFormed_rgba _ _ _ _).mpr ⟨isChannel_toNat _, isChannel_toNat _, isChannel_toNat _, isChannel_toNat _⟩
    · exact selectByDeltas_wf _ _ _ _ _

end Sys2Proof.Machine
end

