-- ==== Sys2Proof/Laws/Steps.lean ====
section
/-! SUPPORT. What each kind of step can do, said once: the core steps of both passes, the host's actions, and a turn. -/

namespace Sys2Proof.Machine

/-! ### Encode pass -/

/-- The bytes one taken pixel adds to OUT_BYTE (spec/44_encoder.md R252 to R261). -/
def pixelBytes (p : Pixel) (s : State) : List Byte :=
  if p = s.last then (if s.runCnt = 61#6 then encode (.run 62) else [])
  else flushBytes s.runCnt ++ encode (selectBlock (observe p s).1 p s.last s.encRgb)

/-- RUN_CNT after one taken pixel. -/
def nextRunCnt (p : Pixel) (s : State) : BitVec 6 := if p = s.last ∧ s.runCnt ≠ 61#6 then s.runCnt + 1#6 else 0#6

/-- One taken pixel, while the run counter is in its range: every field it changes, and nothing else. -/
theorem encodePixel_eq {p : Pixel} {s : State} (h : s.runCnt.toNat < Config.maxRun) :
    encodePixel p s =
      { s with
        cache := if p = s.last then s.cache else s.cache.set (pixelHash p) p
        last := p
        runCnt := nextRunCnt p s
        outByte := s.outByte ++ pixelBytes p s
        phase := if s.remain = 0#64 then .trailer else s.phase } := by
  have hrun : s.runCnt + 1#6 = 62#6 ↔ s.runCnt = 61#6 := by
    constructor
    · intro e; exact add_right_cancel (b := 1#6) (by rw [e]; rfl)
    · intro e; rw [e]; rfl
  have hend : ∀ t : State, endPixel t = { t with phase := if t.remain = 0#64 then .trailer else t.phase } := by
    intro t
    by_cases hr : t.remain = 0#64
    · simp only [endPixel, if_pos hr, setPhase]
    · simp only [endPixel, if_neg hr]
  by_cases hp : p = s.last
  · have hl : advance p s = (true, s) := by simp [advance, repeatFlag, hp]
    have he : encodePixel p s = countRepeat s endPixel := by rw [encodePixel, hl]; rfl
    rw [he, countRepeat]
    rw [setRunCnt_runCnt]
    by_cases h61 : s.runCnt = 61#6
    · rw [if_pos (hrun.mpr h61), flushRun_of_le (by simp [h61]), hend]
      have hb : flushBytes 62#6 = encode (.run 62) := rfl
      simp [pixelBytes, nextRunCnt, hp, h61, setRunCnt, emitBytes, hb]
    · rw [if_neg (fun e => h61 (hrun.mp e)), hend]
      simp [pixelBytes, nextRunCnt, hp, h61, setRunCnt]
      rfl
  · have hl : advance p s = (false, setLast p s) := by simp [advance, repeatFlag, hp]
    have hw := selectBlock_wf (observe p s).1 p s.last s.encRgb
    have he : encodePixel p s = flushRun (setLast p s) fun s2 =>
        emitBlock (selectBlock (observe p s2).1 p s.last s.encRgb) (observe p s2).2 endPixel := by
      rw [encodePixel, hl]; rfl
    have hobs : ∀ t : State, t.cache = s.cache → (observe p t).1 = (observe p s).1 := by
      intro t ht; simp only [observe_hit, ht]
    rw [he, flushRun_of_le (by simp; omega), hobs _ (by simp), emitBlock_of_wf hw, hend]
    simp [observe_state, setRunCnt, emitBytes, setLast, cacheWrite, pixelBytes, nextRunCnt, hp]

/-- The encode trailer step, while the run counter is in its range. -/
theorem encTrailerStep_eq {s : State} (h : s.runCnt.toNat ≤ Config.maxRun) :
    encTrailerStep s = { s with runCnt := 0#6, outByte := s.outByte ++ flushBytes s.runCnt ++ endMarker, phase := .done } := by
  simp only [encTrailerStep, flushRun_of_le h, setPhase, emitBytes, setRunCnt]

/-- Everything a pixel step can do: hold, an error, an underflow, or one encoded pixel. -/
theorem pixelStep_cases (s : State) :
    (s.inPix = [] ∧ s.inPixEnd = false ∧ pixelStep s = .next s) ∨
    (Config.maxRun ≤ s.runCnt.toNat ∧ pixelStep s = .next (raise .iRunInvariant s)) ∨
    (s.runCnt.toNat < Config.maxRun ∧ s.inPix = [] ∧ s.inPixEnd = true ∧ pixelStep s = .next (raise .fPixelShort s)) ∨
    (s.remain = 0#64 ∧ pixelStep s = .fault .remainUnderflow) ∨
    (∃ v vs, s.inPix = v :: vs ∧ s.runCnt.toNat < Config.maxRun ∧ s.remain ≠ 0#64 ∧
      pixelStep s = .next (encodePixel (fromPacked v) { s with inPix := vs, remain := s.remain - 1#64 })) := by
  unfold pixelStep
  cases hp : s.inPix with
  | nil =>
    cases he : s.inPixEnd
    · simp
    · by_cases hr : Config.maxRun ≤ s.runCnt.toNat
      · simp [hr]
      · have := Nat.lt_of_not_le hr
        simp [hr, this]
  | cons v vs =>
    by_cases hr : Config.maxRun ≤ s.runCnt.toNat
    · simp [hr]
    · have := Nat.lt_of_not_le hr
      by_cases h0 : s.remain = 0#64
      · simp [hr, h0]
      · simp [hr, h0, this, setRemain, dropPixel, hp]

/-- Everything the encode header step can do: a rejected configuration, or the header. -/
theorem encHeaderStep_cases (s : State) :
    (¬ legalConfig s ∧ encHeaderStep s = raise .vConfig s) ∨
    (legalConfig s ∧ encHeaderStep s =
      { s with
        outByte := s.outByte ++ encodeHeader s.width s.height s.channels s.colorspace
        remain := pixelCount s.width s.height
        runCnt := 0#6
        phase := if pixelCount s.width s.height = 0#64 then .trailer else .blocks }) := by
  by_cases h : legalConfig s
  · exact .inr ⟨h, by rw [encHeaderStep, if_pos h]; rfl⟩
  · exact .inl ⟨h, by rw [encHeaderStep, if_neg h]⟩

/-! ### Decode pass -/

/-- Everything accepting a header does. -/
theorem acceptHeader_eq (f : HeaderFields) (s : State) :
    acceptHeader f s =
      { s with
        width := f.width, height := f.height, channels := f.channels, colorspace := f.colorspace
        remain := pixelCount f.width f.height
        phase :=
          if pixelCount f.width f.height = 0#64 then (if s.enforceEnd then .trailer else .done) else .blocks } := by
  by_cases h : pixelCount f.width f.height = 0#64 <;>
    simp [acceptHeader, finishBlocks, setPhase, setRemain, writeHeader, h]

/-- Everything the decode header step can do: hold, a rejected header, or an accepted one. -/
theorem headerStep_cases (s : State) :
    (s.inByte.length < headerLength ∧ s.inByteEnd = false ∧ headerStep s = s) ∨
    (headerLength ≤ s.inByte.length ∨ s.inByteEnd = true) ∧
      ((∃ c, headerProblem (s.inByte.take headerLength) = some c ∧ headerStep s = raise c (dropBytes headerLength s)) ∨
       (headerProblem (s.inByte.take headerLength) = none ∧
        headerStep s = acceptHeader (decodeHeader (s.inByte.take headerLength)) (dropBytes headerLength s))) := by
  by_cases h : s.inByte.length < headerLength ∧ ¬ s.inByteEnd = true
  · exact .inl ⟨h.1, by simpa using h.2, by rw [headerStep, if_pos h]⟩
  · refine .inr ⟨by by_cases hl : s.inByte.length < headerLength <;> simp_all, ?_⟩
    cases hp : headerProblem (s.inByte.take headerLength) with
    | some c => exact .inl ⟨c, rfl, by simp only [headerStep, if_neg h, hp]⟩
    | none => exact .inr ⟨rfl, by simp only [headerStep, if_neg h, hp]⟩

/-- Everything the decode trailer step can do: hold, the end of the pass, or a bad marker. -/
theorem trailerStep_cases (s : State) :
    (s.inByte.length < endMarker.length ∧ s.inByteEnd = false ∧ trailerStep s = s) ∨
    ((endMarker.length ≤ s.inByte.length ∨ s.inByteEnd = true) ∧ s.inByte.take endMarker.length = endMarker ∧
      trailerStep s = setPhase .done (dropBytes endMarker.length s)) ∨
    ((endMarker.length ≤ s.inByte.length ∨ s.inByteEnd = true) ∧ s.inByte.take endMarker.length ≠ endMarker ∧
      trailerStep s = raise .fEndMarker (dropBytes endMarker.length s)) := by
  by_cases h : s.inByte.length < endMarker.length ∧ ¬ s.inByteEnd = true
  · exact .inl ⟨h.1, by simpa using h.2, by rw [trailerStep, if_pos h]⟩
  · have hen : endMarker.length ≤ s.inByte.length ∨ s.inByteEnd = true := by
      by_cases hl : s.inByte.length < endMarker.length <;> simp_all
    by_cases he : s.inByte.take endMarker.length = endMarker
    · exact .inr (.inl ⟨hen, he, by simp only [trailerStep, if_neg h, if_pos he]⟩)
    · exact .inr (.inr ⟨hen, he, by simp only [trailerStep, if_neg h, if_neg he]⟩)

/-- A header without a problem has legal fields. -/
theorem legal_of_headerProblem {b : List Byte} (h : headerProblem b = none) :
    ¬ negative (decodeHeader b).width ∧ ¬ negative (decodeHeader b).height ∧
      legalChannels (decodeHeader b).channels ∧ legalColorspace (decodeHeader b).colorspace := by
  unfold headerProblem at h
  split at h
  · exact absurd h (by simp)
  · rename_i hn
    have hat : ∀ k < headerLength, headerProblemAt b k = none := by
      intro k hk
      exact List.findSome?_eq_none_iff.mp hn k (List.mem_range.mpr hk)
    have h12 := hat 12 (by decide)
    have h13 := hat 13 (by decide)
    have hd : ¬ (negative (decodeHeader b).width ∨ negative (decodeHeader b).height) := by
      intro hc; rw [if_pos hc] at h; exact absurd h (by simp)
    refine ⟨fun x => hd (.inl x), fun x => hd (.inr x), ?_, ?_⟩
    · simp only [headerProblemAt] at h12
      cases hb : b[12]? with
      | none => simp [hb] at h12
      | some x =>
        have hx : b.getD 12 0#8 = x := by simp [List.getD_eq_getElem?_getD, hb]
        simp only [decodeHeader, hx]
        by_contra hne
        simp [hb, hne] at h12
    · simp only [headerProblemAt] at h13
      cases hb : b[13]? with
      | none => simp [hb] at h13
      | some x =>
        have hx : b.getD 13 0#8 = x := by simp [List.getD_eq_getElem?_getD, hb]
        simp only [decodeHeader, hx]
        by_contra hne
        simp [hb, hne] at h13

/-- The product of two non-negative dimensions, exactly, and its bound (spec/40_header_pixel.md R127, 00_scope.md R6). -/
theorem pixelCount_toNat {w h : Word} (hw : ¬ negative w) (hh : ¬ negative h) :
    (pixelCount w h).toNat = w.toNat * h.toNat ∧ w.toNat * h.toNat ≤ (2 ^ 31 - 1) ^ 2 := by
  have ew : w.toInt = w.toNat ∧ w.toNat ≤ 2 ^ 31 - 1 := by
    simp only [negative, s32, BitVec.toInt_eq_toNat_cond] at *; split_ifs at * <;> omega
  have eh : h.toInt = h.toNat ∧ h.toNat ≤ 2 ^ 31 - 1 := by
    simp only [negative, s32, BitVec.toInt_eq_toNat_cond] at *; split_ifs at * <;> omega
  have hb : w.toNat * h.toNat ≤ (2 ^ 31 - 1) ^ 2 := by rw [pow_two]; exact Nat.mul_le_mul ew.2 eh.2
  refine ⟨?_, hb⟩
  simp only [pixelCount, s32, ew.1, eh.1, BitVec.toNat_ofInt]
  have hb' : w.toNat * h.toNat < 2 ^ 64 := lt_of_le_of_lt hb (by decide)
  rw [← Nat.cast_mul]
  generalize w.toNat * h.toNat = n at *
  omega

/-! ### Turns -/

/-- Everything a step can do: a core step, a host action or a reset, with the agenda's first turn used up. -/
theorem step_cases (s : State) :
    (s.agenda = [] ∧ step s = coreStep s) ∨
    (∃ later, s.agenda = .core :: later ∧ step s = coreStep { s with agenda := later }) ∨
    (∃ act later, s.agenda = .host act :: later ∧ step s = .next (hostStep act { s with agenda := later })) ∨
    (∃ later, s.agenda = .reset :: later ∧ step s = .next (resetCore { s with agenda := later })) := by
  unfold step takeTurn
  split <;> simp_all

/-- The core's turn, as a core step of the state with the turn used up, which differs from it in the agenda alone. -/
theorem coreTurn_step {s s1 : State} (h : CoreTurn s s1) :
    step s = coreStep s1 ∧ s1 = { s with agenda := s1.agenda } := by
  obtain ⟨h, rfl⟩ | ⟨l, h, rfl⟩ := h
  · exact ⟨by unfold step takeTurn; rw [h], rfl⟩
  · exact ⟨by unfold step takeTurn; rw [h], rfl⟩

/-- The host's turn, likewise. -/
theorem hostTurn_step {act : HostAction} {s s1 : State} (h : HostTurn act s s1) :
    step s = .next (hostStep act s1) ∧ s1 = { s with agenda := s1.agenda } := by
  obtain ⟨l, h, rfl⟩ := h
  exact ⟨by unfold step takeTurn; rw [h], rfl⟩

/-! ### Runs -/

/-- The runs of claims are the runs of the host's interface. -/
theorem runSteps_eq_run (n : Nat) (s : State) : Host.Core.run core n s = runSteps n s := by
  induction n generalizing s with
  | zero => rfl
  | succ n ih =>
    cases h : step s with
    | next t =>
      refine Eq.trans ?_ ((ih t).trans ?_)
      · simp only [Host.Core.run]
        rw [show core.step s = .next t from h]
      · simp only [runSteps, h]
        rfl
    | fault r =>
      simp only [Host.Core.run, runSteps, h]
      rw [show core.step s = .fault r from h]
      rfl
    | refused r =>
      simp only [Host.Core.run, runSteps, h]
      rw [show core.step s = .refused r from h]
      rfl

/-- One step is a run of one step. -/
theorem safeRun_one {s t : State} (h : step s = .next t) : SafeRun 1 s t := by simp [SafeRun, runSteps, h]

/-- Runs compose. -/
theorem safeRun_trans {m n : Nat} {s t u : State} (h1 : SafeRun m s t) (h2 : SafeRun n t u) : SafeRun (m + n) s u := by
  unfold SafeRun at *
  induction m generalizing s with
  | zero => simp only [runSteps, Host.Outcome.next.injEq] at h1; rw [h1, Nat.zero_add]; exact h2
  | succ m ih =>
    rw [Nat.succ_add]
    simp only [runSteps] at h1 ⊢
    split at h1
    · exact ih h1
    · simp at h1
    · simp at h1

end Sys2Proof.Machine
end

