-- ==== Sys2Proof/Laws/Outcomes.lean ====
section
/-! SUPPORT. Everything a block, a core step and a host action can do, as one case analysis each: later proofs go by these
cases and never unfold the steps. -/

namespace Sys2Proof

/-- Every block the decoder reads has its fields in range. -/
theorem decodeBlock_wf (t : Byte) (x : List Byte) : (decodeBlock t x).wellFormed = true := by
  have ht := t.isLt
  have hx := (extraByte x 0).isLt
  unfold decodeBlock
  rw [variantOf_by_range]
  split_ifs <;> dsimp only
  · exact (wellFormed_rgb _ _ _).mpr ⟨isChannel_toNat _, isChannel_toNat _, isChannel_toNat _⟩
  · exact (wellFormed_rgba _ _ _ _).mpr ⟨isChannel_toNat _, isChannel_toNat _, isChannel_toNat _, isChannel_toNat _⟩
  · rw [wellFormed_index]; simp only [bitField]; constructor <;> omega
  · rw [wellFormed_diff]; simp only [bitField]; refine ⟨⟨?_, ?_⟩, ⟨?_, ?_⟩, ?_, ?_⟩ <;> omega
  · rw [wellFormed_luma]; simp only [bitField]; refine ⟨⟨?_, ?_⟩, ⟨?_, ?_⟩, ?_, ?_⟩ <;> omega
  · rw [wellFormed_run]; simp only [bitField]; constructor <;> omega

/-- The same, of the decoder on a byte stream. -/
theorem decode_wf {bs rest : List Byte} {i : Instr} (h : decode bs = .block i rest) : i.wellFormed = true := by
  obtain ⟨t, x, _, _, rfl⟩ := decode_eq_block h
  exact decodeBlock_wf t x

/-- Too few bytes are no block. -/
theorem decode_of_short {bs : List Byte} (h : bs = [] ∨ ∃ t x, bs = t :: x ∧ x.length + 1 < blockLength t) :
    ∃ why, decode bs = .rejected why := by
  obtain rfl | ⟨t, x, rfl, hl⟩ := h
  · exact ⟨_, rfl⟩
  · exact ⟨_, decode_of_lt hl⟩

namespace Machine

/-- `s` after a block that made the pixels `ps`, with the cache and LAST it left. -/
def afterBlock (s : State) (ps : List Pixel) (c : Vector Pixel Config.cacheSlots) (l : Pixel) : State :=
  { s with
    cache := c
    last := l
    outPix := s.outPix ++ ps.map toPacked
    remain := s.remain - BitVec.ofNat 64 ps.length
    phase := if s.remain.toNat = ps.length then (if s.enforceEnd then .trailer else .done) else s.phase }

/-- REMAIN after a block. -/
theorem afterBlock_remain {s : State} {ps : List Pixel} (c : Vector Pixel Config.cacheSlots) (l : Pixel)
    (h : ps.length ≤ s.remain.toNat) : (afterBlock s ps c l).remain.toNat = s.remain.toNat - ps.length := by
  have := s.remain.isLt
  simp only [afterBlock, BitVec.toNat_sub, BitVec.toNat_ofNat]
  omega

/-- Everything a block can answer. -/
inductive BlockEffect (i : Instr) (s : State) : Outcome → Prop where
  /-- A term that is no block. -/
  | badField (h : i.wellFormed = false) : BlockEffect i s (.next (raise .vFieldRange s))
  /-- A run longer than REMAIN. -/
  | overshoot (n : Int) (hi : i = .run n) (hw : i.wellFormed = true) (h : s.remain.toNat < n.toNat) :
    BlockEffect i s (.next (raise .fRunOvershoot s))
  /-- A one-pixel block with no pixel left to make. -/
  | underflow (hw : i.wellFormed = true) (h : s.remain = 0#64) : BlockEffect i s (.fault .remainUnderflow)
  /-- A one-pixel block. -/
  | pixel (p : Pixel) (hp : blockPixel i s = some p) (hw : i.wellFormed = true) (h : s.remain ≠ 0#64) :
    BlockEffect i s (.next (afterBlock s [p] (s.cache.set (pixelHash p) p) p))
  /-- A run. -/
  | run (n : Int) (hi : i = .run n) (hw : i.wellFormed = true) (h : n.toNat ≤ s.remain.toNat) :
    BlockEffect i s (.next (afterBlock s (List.replicate n.toNat s.last) s.cache s.last))

/-- What `exec` answers is one of these. -/
theorem exec_effect (i : Instr) (s : State) : BlockEffect i s (exec i s) := by
  cases hw : i.wellFormed
  · rw [exec_of_not_wf hw]
    exact .badField hw
  · rcases exec_of_wf hw s with ⟨p, hb, he⟩ | ⟨n, rfl, he⟩
    · rw [he]
      by_cases h0 : s.remain = 0#64
      · rw [retire_of_lt (by simp [h0])]
        exact .underflow hw h0
      · have h1 : 1 ≤ s.remain.toNat := by
          by_contra hc
          exact h0 (BitVec.eq_of_toNat_eq (by simp; omega))
        rw [retire_of_le (by simpa using h1)]
        exact .pixel p hb hw h0
    · rw [he]
      split_ifs with h
      · exact .overshoot n rfl hw h
      · rw [retire_of_le (by simpa using Nat.not_lt.mp h)]
        exact .run n rfl hw (Nat.not_lt.mp h)

/-- One pixel step's next state, while the run counter is in its range and a pixel is there to be taken. -/
def afterPixel (v : Word) (vs : List Word) (s : State) : State :=
  { s with
    cache := if fromPacked v = s.last then s.cache else s.cache.set (pixelHash (fromPacked v)) (fromPacked v)
    last := fromPacked v
    runCnt := nextRunCnt (fromPacked v) s
    outByte := s.outByte ++ pixelBytes (fromPacked v) s
    inPix := vs
    remain := s.remain - 1#64
    phase := if s.remain.toNat = 1 then .trailer else .blocks }

/-- One less than a positive 64-bit number. -/
theorem sub_one_toNat {x : BitVec 64} (h : x ≠ 0#64) : (x - 1#64).toNat + 1 = x.toNat := by
  have : x.toNat ≠ 0 := fun e => h (BitVec.eq_of_toNat_eq (by simpa using e))
  have := x.isLt
  rw [BitVec.toNat_sub, BitVec.toNat_ofNat]
  omega

/-- A taken pixel. -/
theorem pixelStep_of_pixel {s : State} {v : Word} {vs : List Word} (hp : s.phase = .blocks) (hv : s.inPix = v :: vs)
    (hr : s.runCnt.toNat < Config.maxRun) (h0 : s.remain ≠ 0#64) : pixelStep s = .next (afterPixel v vs s) := by
  rcases pixelStep_cases s with ⟨a, _⟩ | ⟨a, _⟩ | ⟨_, a, _⟩ | ⟨a, _⟩ | ⟨v', vs', a, _, _, e⟩
  · simp [a] at hv
  · exact absurd a (Nat.not_le.mpr hr)
  · simp [a] at hv
  · exact absurd a h0
  · rw [hv] at a
    injection a with a b
    subst a b
    have hz : (s.remain - 1#64 = 0#64) ↔ s.remain.toNat = 1 := by
      rw [← BitVec.toNat_inj]
      have := sub_one_toNat h0
      simp only [BitVec.toNat_ofNat]
      omega
    rw [e, encodePixel_eq (by exact hr)]
    simp only [hz, hp]
    rfl

/-- Everything a core step can do, as the state it leaves. -/
inductive CoreEffect (s : State) : State → Prop where
  /-- No step is enabled: outside a pass, or a step whose input is not all there and whose port has not ended. In an encode
  pass only the pixel step needs input. -/
  | held
    (h : s.phase.isBusy = true →
      if s.mode = .decode then s.inByteEnd = false else s.phase = .blocks ∧ s.inPixEnd = false ∧ s.inPix = []) :
    CoreEffect s s
  /-- A rejected header: the bytes it was read from, at most fourteen, are taken. -/
  | badHeader (c : Cause) (hp : s.phase = .header) (hm : s.mode = .decode)
    (hc : headerProblem (s.inByte.take headerLength) = some c) : CoreEffect s (raise c (dropBytes headerLength s))
  /-- An incomplete block at the end of the input: nothing is taken. -/
  | truncated (why : Reject) (hp : s.phase = .blocks) (hm : s.mode = .decode) (hd : decode s.inByte = .rejected why)
    (he : s.inByteEnd = true) : CoreEffect s (raise .fTruncBlock s)
  /-- A run longer than REMAIN: its byte is taken. -/
  | overshoot (n : Int) (rest : List Byte) (hp : s.phase = .blocks) (hm : s.mode = .decode)
    (hd : decode s.inByte = .block (.run n) rest) (h : s.remain.toNat < n.toNat) :
    CoreEffect s (raise .fRunOvershoot { s with inByte := rest })
  /-- A wrong or short end marker: the bytes it was read from, at most eight, are taken. -/
  | badMarker (hp : s.phase = .trailer) (hm : s.mode = .decode) (hb : s.inByte.take endMarker.length ≠ endMarker) :
    CoreEffect s (raise .fEndMarker (dropBytes endMarker.length s))
  /-- A configuration the encoder rejects. -/
  | badConfig (hp : s.phase = .header) (hm : s.mode = .encode) (hl : ¬ legalConfig s) : CoreEffect s (raise .vConfig s)
  /-- The end of the pixel input with pixels to go. -/
  | pixelShort (hp : s.phase = .blocks) (hm : s.mode = .encode) (hv : s.inPix = []) (he : s.inPixEnd = true) :
    CoreEffect s (raise .fPixelShort s)
  /-- An accepted header. -/
  | header (f : HeaderFields) (hp : s.phase = .header) (hm : s.mode = .decode)
    (hf : ¬ negative f.width ∧ ¬ negative f.height ∧ legalChannels f.channels ∧ legalColorspace f.colorspace) :
    CoreEffect s (acceptHeader f (dropBytes headerLength s))
  /-- A block of one pixel. -/
  | pixel (i : Instr) (rest : List Byte) (p : Pixel) (hp : s.phase = .blocks) (hm : s.mode = .decode)
    (hd : decode s.inByte = .block i rest) (hb : blockPixel i s = some p) (h : s.remain ≠ 0#64) :
    CoreEffect s (afterBlock { s with inByte := rest } [p] (s.cache.set (pixelHash p) p) p)
  /-- A run. -/
  | run (n : Nat) (rest : List Byte) (hp : s.phase = .blocks) (hm : s.mode = .decode)
    (hd : decode s.inByte = .block (.run n) rest) (h1 : 1 ≤ n) (h2 : n ≤ 62) (h : n ≤ s.remain.toNat) :
    CoreEffect s (afterBlock { s with inByte := rest } (List.replicate n s.last) s.cache s.last)
  /-- The end of a decode pass at its marker. -/
  | trailer (hp : s.phase = .trailer) (hm : s.mode = .decode) (hb : s.inByte.take endMarker.length = endMarker) :
    CoreEffect s (setPhase .done (dropBytes endMarker.length s))
  /-- The encoder's header. -/
  | encHeader (hp : s.phase = .header) (hm : s.mode = .encode) (hl : legalConfig s) :
    CoreEffect s
      { s with
        outByte := s.outByte ++ encodeHeader s.width s.height s.channels s.colorspace
        remain := pixelCount s.width s.height
        runCnt := 0#6
        phase := if pixelCount s.width s.height = 0#64 then .trailer else .blocks }
  /-- One encoded pixel. -/
  | encPixel (v : Word) (vs : List Word) (hp : s.phase = .blocks) (hm : s.mode = .encode) (hv : s.inPix = v :: vs)
    (h : s.remain ≠ 0#64) : CoreEffect s (afterPixel v vs s)
  /-- The end of an encode pass. -/
  | encTrailer (hp : s.phase = .trailer) (hm : s.mode = .encode) :
    CoreEffect s { s with runCnt := 0#6, outByte := s.outByte ++ flushBytes s.runCnt ++ endMarker, phase := .done }

/-- The causes a header can be rejected with. -/
theorem headerProblem_cause {b : List Byte} {c : Cause} (h : headerProblem b = some c) :
    c = .fTruncHeader ∨ c = .fBadMagic ∨ c = .fBadChannels ∨ c = .fBadColorspace ∨ c = .fBadDimension := by
  unfold headerProblem at h
  split at h
  · rename_i c' h'
    injection h with h
    subst h
    obtain ⟨k, _, hk⟩ := List.exists_of_findSome?_eq_some h'
    unfold headerProblemAt at hk
    split at hk
    · injection hk with hk; simp [← hk]
    · split_ifs at hk <;> (injection hk with hk; simp [← hk])
  · split_ifs at h
    injection h with h
    simp [← h]

/-- While the run counter is in its range and BLOCKS has pixels left, a core step answers a next state, one of these. -/
theorem coreStep_effect {s : State} (hr : s.runCnt.toNat < Config.maxRun) (h0 : s.phase = .blocks → s.remain ≠ 0#64) :
    ∃ t, coreStep s = .next t ∧ CoreEffect s t := by
  have hidle : s.phase.isBusy = false → ∀ t, t = s → CoreEffect s t := by
    rintro h t rfl
    exact .held (by simp [h])
  cases hp : s.phase
  case idle => exact ⟨s, by simp only [coreStep, hp], hidle (by rw [hp]; rfl) _ rfl⟩
  case done => exact ⟨s, by simp only [coreStep, hp], hidle (by rw [hp]; rfl) _ rfl⟩
  case error => exact ⟨s, by simp only [coreStep, hp], hidle (by rw [hp]; rfl) _ rfl⟩
  all_goals cases hm : s.mode
  case header.decode =>
    refine ⟨headerStep s, by simp only [coreStep, hp, hm], ?_⟩
    rcases headerStep_cases s with ⟨_, e, h⟩ | ⟨_, ⟨c, hc, h⟩ | ⟨hn, h⟩⟩ <;> rw [h]
    · exact .held (by simp [hm, e])
    · exact .badHeader c hp hm hc
    · exact .header _ hp hm (legal_of_headerProblem hn)
  case header.encode =>
    refine ⟨encHeaderStep s, by simp only [coreStep, hp, hm], ?_⟩
    rcases encHeaderStep_cases s with ⟨hl, h⟩ | ⟨hl, h⟩ <;> rw [h]
    · exact .badConfig hp hm hl
    · exact .encHeader hp hm hl
  case blocks.decode =>
    have hs : coreStep s = blockStep s := by simp only [coreStep, hp, hm]
    rw [hs, blockStep]
    split
    · rename_i i rest hd
      have hw := decode_wf hd
      have he := exec_effect i { s with inByte := rest }
      generalize exec i { s with inByte := rest } = o at he
      cases he with
      | badField h => simp [h] at hw
      | overshoot n hi _ h =>
        subst hi
        exact ⟨_, rfl, .overshoot n rest hp hm hd h⟩
      | underflow _ h => exact absurd h (h0 hp)
      | pixel p hb _ h => exact ⟨_, rfl, .pixel i rest p hp hm hd hb h⟩
      | run n hi _ h =>
        subst hi
        obtain ⟨h1, h2⟩ := (wellFormed_run n).mp hw
        have hn : ((n.toNat : Nat) : Int) = n := by omega
        exact ⟨_, rfl, .run n.toNat rest hp hm (by rw [hn]; exact hd) (by omega) (by omega) h⟩
    · rename_i why hd
      refine ⟨_, rfl, ?_⟩
      cases he : s.inByteEnd
      · exact .held (by simp [hm, he])
      · exact .truncated why hp hm hd he
  case blocks.encode =>
    have hs : coreStep s = pixelStep s := by simp only [coreStep, hp, hm]
    rw [hs]
    rcases pixelStep_cases s with ⟨hv, e, h⟩ | ⟨h62, _⟩ | ⟨_, hv, e, h⟩ | ⟨hz, _⟩ | ⟨v, vs, hv, _, hz, _⟩
    · exact ⟨s, h, .held (by simp [hm, hp, hv, e])⟩
    · exact absurd h62 (Nat.not_le.mpr hr)
    · exact ⟨_, h, .pixelShort hp hm hv e⟩
    · exact absurd hz (h0 hp)
    · exact ⟨_, pixelStep_of_pixel hp hv hr hz, .encPixel v vs hp hm hv hz⟩
  case trailer.decode =>
    refine ⟨trailerStep s, by simp only [coreStep, hp, hm], ?_⟩
    rcases trailerStep_cases s with ⟨_, e, h⟩ | ⟨_, hb, h⟩ | ⟨_, hb, h⟩ <;> rw [h]
    · exact .held (by simp [hm, e])
    · exact .trailer hp hm hb
    · exact .badMarker hp hm hb
  case trailer.encode =>
    refine ⟨encTrailerStep s, by simp only [coreStep, hp, hm], ?_⟩
    rw [encTrailerStep_eq (Nat.le_of_lt hr)]
    exact .encTrailer hp hm

/-- Everything a host action can do, as the state it leaves. -/
inductive HostEffect (s : State) : State → Prop where
  /-- Ports and the host's record. -/
  | ports (ib : List Byte) (ibe : Bool) (ip : List Word) (ipe : Bool) (ob : List Byte) (op : List Word) (rc : List HostValue) :
    HostEffect s
      { s with inByte := ib, inByteEnd := ibe, inPix := ip, inPixEnd := ipe, outByte := ob, outPix := op, received := rc }
  /-- ABORT. -/
  | abort : HostEffect s (abortPass s)
  /-- START, when not busy. -/
  | start (v : Word) (h : s.phase.isBusy = false) : HostEffect s (startPass (writeOptions v s))
  /-- The options or the configuration, when not busy. -/
  | config (m : Mode) (e r : Bool) (w h : Word) (ch cs : Byte) (hb : s.phase.isBusy = false) :
    HostEffect s
      { s with mode := m, enforceEnd := e, encRgb := r, width := w, height := h, channels := ch, colorspace := cs }

/-- A host action leaves one of these. -/
theorem hostStep_effect (act : HostAction) (s : State) : HostEffect s (hostStep act s) := by
  have hid : HostEffect s s := .ports _ _ _ _ _ _ _
  cases act with
  | csrRead k => exact .ports _ _ _ _ _ _ _
  | csrWrite k v =>
    simp only [hostStep, csrWrite]
    split
    · simp only [writeCtrl]
      split_ifs with h1 hb h0
      · exact .abort
      · exact hid
      · exact .start v (by simpa using hb)
      · exact .config _ _ _ _ _ _ _ (by simpa using hb)
    all_goals try split_ifs with hb
    all_goals first
      | exact hid
      | exact .config _ _ _ _ _ _ _ (by simpa using hb)
  | supplyByte x =>
    simp only [hostStep, supplyByte]
    split
    · exact hid
    · exact .ports _ _ _ _ _ _ _
  | supplyPix v =>
    simp only [hostStep, supplyPix]
    split
    · exact hid
    · exact .ports _ _ _ _ _ _ _
  | endInput p => cases p <;> exact .ports _ _ _ _ _ _ _
  | take p => cases p <;> simp only [hostStep, takeOutput] <;> split <;> first | exact hid | exact .ports _ _ _ _ _ _ _

end Machine

end Sys2Proof
end

