-- ==== Sys2Proof/Tests/Slice0.lean ====
section
/-! SUPPORT. Small tests: the encodings written out from spec/30_encoding.md, single steps with the results of
spec/95_test_vectors.md, and for every obligation with hypotheses a state that meets them. -/

namespace Sys2Proof.Tests

open Sys2Proof.Machine

/-! ### WellFormed smoke: each check of R173 refuses a term (the list after 95_test_vectors.md section 2.6) -/

theorem test_wf_refuses_index : (Instr.index 64).wellFormed = false ∧ (Instr.index (-1)).wellFormed = false := by decide

theorem test_wf_refuses_diff :
    (Instr.diff 2 0 0).wellFormed = false ∧ (Instr.diff 0 (-3) 0).wellFormed = false ∧
    (Instr.diff 0 0 2).wellFormed = false := by decide

theorem test_wf_refuses_luma :
    (Instr.luma 32 0 0).wellFormed = false ∧ (Instr.luma (-33) 0 0).wellFormed = false ∧
    (Instr.luma 0 8 0).wellFormed = false ∧ (Instr.luma 0 0 (-9)).wellFormed = false := by decide

theorem test_wf_refuses_run : (Instr.run 0).wellFormed = false ∧ (Instr.run 63).wellFormed = false := by decide

theorem test_wf_refuses_rgb :
    (Instr.rgb 256 0 0).wellFormed = false ∧ (Instr.rgb 0 (-1) 0).wellFormed = false ∧
    (Instr.rgb 0 0 256).wellFormed = false := by decide

theorem test_wf_refuses_rgba :
    (Instr.rgba 256 0 0 0).wellFormed = false ∧ (Instr.rgba 0 0 0 (-1)).wellFormed = false := by decide

theorem test_refused_field_has_no_bytes : encodeBlock (.index 64) = none ∧ encodeBlock (.run 63) = none := by decide

/-! ### Words written out from R93 to R95 (vectors of section 2.6) -/

theorem test_decode_rgb : decode [0b11111110#8, 0x0A#8, 0x14#8, 0x1E#8] = .block (.rgb 10 20 30) [] := by decide

theorem test_decode_rgba : decode [0b11111111#8, 1#8, 2#8, 3#8, 4#8] = .block (.rgba 1 2 3 4) [] := by decide

theorem test_decode_index :
    decode [0b00001001#8] = .block (.index 9) [] ∧ decode [0b00111111#8] = .block (.index 63) [] := by decide

theorem test_decode_diff :
    decode [0b01011110#8] = .block (.diff (-1) 1 0) [] ∧ decode [0b01000000#8] = .block (.diff (-2) (-2) (-2)) [] := by decide

theorem test_decode_luma :
    decode [0b10011101#8, 0b10100000#8] = .block (.luma (-3) 2 (-8)) [] ∧
    decode [0b10111111#8, 0b11111111#8] = .block (.luma 31 7 7) [] := by decide

theorem test_decode_run :
    decode [0b11000000#8] = .block (.run 1) [] ∧ decode [0b11111101#8] = .block (.run 62) [] := by decide

theorem test_decode_rejects :
    decode [] = .rejected .noTag ∧ decode [0xFF#8, 1#8, 2#8] = .rejected (.incomplete .rgba 5 3) ∧
    decode [0x80#8] = .rejected (.incomplete .luma 2 1) := by decide

theorem test_encode :
    encodeBlock (.diff 1 1 1) = some [0x7F#8] ∧ encodeBlock (.luma (-32) (-8) (-8)) = some [0x80#8, 0x00#8] ∧
    encodeBlock (.rgba 1 2 3 4) = some [0xFF#8, 1#8, 2#8, 3#8, 4#8] := by decide

/-! ### The words the host asks about -/

theorem test_table_words :
    decodeTableWord 8 0xFE = some (.rgb 0 0 0) ∧ decodeTableWord 8 0xFF = some (.rgba 0 0 0 0) ∧
    decodeTableWord 8 0x00 = some (.index 0) ∧ decodeTableWord 8 0x40 = some (.diff (-2) (-2) (-2)) ∧
    decodeTableWord 16 0xA09D = some (.luma (-3) 2 (-8)) ∧ decodeTableWord 8 0xC0 = some (.run 1) := by decide

/-- RGB with its three extra bytes, as the first block after reset. -/
theorem test_fetch_word_runs :
    step (State.reset.withFetchWord 32 0x1E140AFE) =
      exec (.rgb 10 20 30) { readyForBlock State.reset with agenda := [], inByte := [0x00#8] } := rfl

/-! ### States -/

/-- A decode pass with `n` pixels to go and the bytes `bs` pending. -/
def decoding (bs : List Byte) (n : Nat) : State :=
  { State.reset with phase := .blocks, width := 62#32, height := 1#32, inByte := bs, remain := BitVec.ofNat 64 n }

/-- An encode pass with `n` pixels to go and the pixels `vs` pending. -/
def encoding (vs : List Word) (n : Nat) : State :=
  { State.reset with phase := .blocks, mode := .encode, width := 62#32, height := 1#32, inPix := vs, remain := BitVec.ofNat 64 n }

/-- Reads something off the next state, if there is one. -/
def after (o : Outcome) (f : State → α) : Option α :=
  match o with
  | .next t => some (f t)
  | .fault _ => none
  | .refused _ => none

/-! ### One block each (V-RGB-2, V-RGBA-1, V-INDEX-1, V-DIFF-4, V-LUMA-5, V-RUN-2, V-RUN-3) -/

theorem test_rgb_keeps_alpha :
    after (exec (.rgb 9 9 9) { decoding [] 2 with last := ⟨1#8, 2#8, 3#8, 4#8⟩ })
      (fun t => (t.last, t.cache.get 51, t.outPix, t.remain)) =
    some (⟨9#8, 9#8, 9#8, 4#8⟩, ⟨9#8, 9#8, 9#8, 4#8⟩, [0x04090909#32], 1#64) := by decide

theorem test_rgba_slot :
    after (exec (.rgba 1 2 3 4) (decoding [] 1)) (fun t => (t.last, t.cache.get 14, t.outPix, t.phase)) =
    some (⟨1#8, 2#8, 3#8, 4#8⟩, ⟨1#8, 2#8, 3#8, 4#8⟩, [0x04010203#32], .done) := by decide

theorem test_index_reads_slot :
    after (exec (.index 9) (cacheWrite 9 ⟨10#8, 20#8, 30#8, 255#8⟩ (decoding [] 1))) (fun t => (t.last, t.outPix)) =
    some (⟨10#8, 20#8, 30#8, 255#8⟩, [0xFF0A141E#32]) := by decide

theorem test_diff_wraps :
    after (exec (.diff (-1) 1 0) (decoding [] 1)) (fun t => (t.last, t.cache.get 55)) =
    some (⟨255#8, 1#8, 0#8, 255#8⟩, ⟨255#8, 1#8, 0#8, 255#8⟩) := by decide

theorem test_luma_wraps :
    after (exec (.luma (-3) 2 (-8)) { decoding [] 1 with last := ⟨250#8, 5#8, 3#8, 200#8⟩ })
      (fun t => (t.last, t.cache.get 21)) =
    some (⟨249#8, 2#8, 248#8, 200#8⟩, ⟨249#8, 2#8, 248#8, 200#8⟩) := by decide

theorem test_run_repeats_last :
    after (exec (.run 3) { decoding [] 3 with last := ⟨1#8, 2#8, 3#8, 4#8⟩, enforceEnd := true })
      (fun t => (t.outPix, t.remain, t.phase)) =
    some ([0x04010203#32, 0x04010203#32, 0x04010203#32], 0#64, .trailer) := by decide

theorem test_run_overshoot :
    after (exec (.run 2) (decoding [] 1)) (fun t => (t.phase, t.cause, t.outPix, t.remain)) =
    some (.error, .fRunOvershoot, [], 1#64) := by decide

/-! ### Hash, arithmetic, packing (sections 2.1, 2.2, 2.4) -/

theorem test_hash : pixelHash ⟨10#8, 20#8, 30#8, 255#8⟩ = 9 ∧ pixelHash ⟨1#8, 2#8, 3#8, 4#8⟩ = 14 := by decide

theorem test_sdiff8 : sdiff8 10#8 20#8 = -10 ∧ sdiff8 200#8 100#8 = 100 := by decide

theorem test_packing : toPacked ⟨1#8, 2#8, 3#8, 4#8⟩ = 0x04010203#32 ∧ fromPacked 0xFF0A141E#32 = ⟨10#8, 20#8, 30#8, 255#8⟩ := by
  decide

/-! ### Header and marker steps (V-HDR-1, V-HDR-6, V-HDR-13, V-DEC-8) -/

theorem test_encode_header :
    encodeHeader 1#32 1#32 4#8 0#8 =
      [0x71#8, 0x6F#8, 0x69#8, 0x66#8, 0#8, 0#8, 0#8, 1#8, 0#8, 0#8, 0#8, 1#8, 4#8, 0#8] := by decide

theorem test_bad_magic_before_truncation : headerProblem [0x71#8, 0x6F#8, 0x69#8, 0x67#8] = some .fBadMagic := by decide

theorem test_colorspace_before_dimension :
    headerProblem [0x71#8, 0x6F#8, 0x69#8, 0x66#8, 0#8, 0#8, 0#8, 1#8, 255#8, 255#8, 255#8, 255#8, 4#8, 7#8] =
      some .fBadColorspace := by decide

theorem test_short_marker :
    (trailerStep { decoding [0#8, 0#8, 0#8, 0#8, 0#8, 0#8, 0#8] 0 with phase := .trailer, inByteEnd := true }).cause =
      .fEndMarker := by decide

/-! ### Encoder selection (V-SEL-2, V-SEL-3, V-SEL-6, V-SEL-13, V-SEL-14) -/

theorem test_select_index :
    after (pixelStep (encoding [0x00000000#32] 1)) (fun t => (t.outByte, t.phase)) = some ([0x00#8], .trailer) := by decide

theorem test_select_alpha :
    after (pixelStep (encoding [0xFE000000#32] 1)) (fun t => t.outByte) = some [0xFF#8, 0#8, 0#8, 0#8, 0xFE#8] := by decide

theorem test_select_diff : after (pixelStep (encoding [0xFFFF0100#32] 1)) (fun t => t.outByte) = some [0x5E#8] := by decide

theorem test_select_luma :
    after (pixelStep (encoding [0xFFF80000#32] 1)) (fun t => t.outByte) = some [0xA0#8, 0x08#8] := by decide

theorem test_select_fallback :
    after (pixelStep (encoding [0xFF271F26#32] 1)) (fun t => t.outByte) = some [0xFF#8, 0x27#8, 0x1F#8, 0x26#8, 0xFF#8] ∧
    after (pixelStep { encoding [0xFF271F26#32] 1 with encRgb := true }) (fun t => t.outByte) =
      some [0xFE#8, 0x27#8, 0x1F#8, 0x26#8] := by decide

/-! ### Registers and the assembler -/

/-- The text of a line, as 30_encoding.md R102 and R103 write it. -/
theorem test_line_text :
    lineText (.block (.luma (-3) 2 (-8))) = "LUMA -3, 2, -8".toList ∧
    lineText (.headerLine 10 200 4 0) = ".header 10, 200, 4, 0".toList := by decide

theorem test_error_class :
    Cause.fPixelShort.errorClass = some .formatError ∧ Cause.vConfig.errorClass = some .valueError ∧
    Cause.iRunInvariant.errorClass = some .internalFault ∧ Cause.noCause.errorClass = none := by decide

theorem test_status_after_reset : csrRead 1 State.reset = 0#32 ∧ csrRead 4 State.reset = 4#32 := by decide

theorem test_assembler :
    assemble "DIFF -1, 1, 0".toList = some [0x5E#8] ∧ assemble "RUN 63".toList = none ∧
    assemble ".end".toList = some [0#8, 0#8, 0#8, 0#8, 0#8, 0#8, 0#8, 1#8] := by decide

/-! ### Witnesses: for each obligation, states and operands that meet its hypotheses, at the ends of the ranges -/

theorem witness_BlockCodecIsABijection :
    (Instr.luma (-32) (-8) 7).wellFormed = true ∧ [0x00#8].length + 1 = blockLength 0x80#8 ∧
    (1#6 : BitVec 6) ≠ 0#6 ∧ (62#6).toNat ≤ 62 := by decide

theorem witness_BlockFieldsFromBytes :
    (0x3F#8).toNat < 64 ∧ (64 ≤ (0x40#8).toNat ∧ (0x7F#8).toNat < 128) ∧ (128 ≤ (0x80#8).toNat ∧ (0xBF#8).toNat < 192) ∧
    (192 ≤ (0xC0#8).toNat ∧ (0xFD#8).toNat < 254) ∧ ([] : List Byte).length + 1 = blockLength 0xFD#8 := by decide

theorem witness_FieldValidation : encodeBlock (.run 63) = none ∧ encodeBlock (.run 62) = some [0xFD#8] := by decide

theorem witness_DeltaRoundTrip :
    ((257 : Int) - sdiff8 1#8 0#8) % 256 = 0 ∧
    selectBlock none ⟨255#8, 1#8, 0#8, 255#8⟩ ⟨0#8, 0#8, 0#8, 255#8⟩ false = .diff (-1) 1 0 ∧
    selectBlock none ⟨248#8, 0#8, 0#8, 255#8⟩ ⟨0#8, 0#8, 0#8, 255#8⟩ true = .luma 0 (-8) 0 := by decide

theorem witness_ObserveRule :
    State.reset.cache.get (pixelHash ⟨0#8, 0#8, 0#8, 0#8⟩) = ⟨0#8, 0#8, 0#8, 0#8⟩ ∧
    State.reset.cache.get (pixelHash ⟨1#8, 2#8, 3#8, 4#8⟩) ≠ ⟨1#8, 2#8, 3#8, 4#8⟩ := by decide

theorem witness_AdvanceRule :
    (⟨0#8, 0#8, 0#8, 255#8⟩ : Pixel) = State.reset.last ∧ (⟨1#8, 0#8, 0#8, 255#8⟩ : Pixel) ≠ State.reset.last := by decide

theorem witness_RgbBlock :
    (decoding [] 1).remain ≠ 0#64 ∧ ¬ (0 ≤ (256 : Int) ∧ (256 : Int) ≤ 255) ∧
    selectBlock none ⟨32#8, 32#8, 32#8, 255#8⟩ ⟨0#8, 0#8, 0#8, 255#8⟩ true = .rgb 32 32 32 := by decide

theorem witness_RgbaBlock : (decoding [] 1).remain ≠ 0#64 ∧ ¬ (0 ≤ (-1 : Int) ∧ (-1 : Int) ≤ 255) := by decide

theorem witness_IndexBlock :
    (decoding [] 1).remain ≠ 0#64 ∧ ¬ (0 ≤ (64 : Int) ∧ (64 : Int) ≤ 63) ∧ pixelHash ((decoding [] 1).cache.get 0) = 0 := by
  decide

theorem witness_DiffBlock :
    (decoding [] 1).remain ≠ 0#64 ∧ (-2 ≤ (-2 : Int) ∧ (-2 : Int) ≤ 1 ∧ -2 ≤ (1 : Int) ∧ (1 : Int) ≤ 1) ∧
    ¬ (-2 ≤ (2 : Int) ∧ (2 : Int) ≤ 1) := by decide

theorem witness_LumaBlock :
    (decoding [] 1).remain ≠ 0#64 ∧ (-32 ≤ (31 : Int) ∧ (31 : Int) ≤ 31 ∧ -8 ≤ (-8 : Int) ∧ (7 : Int) ≤ 7) ∧
    ¬ (-32 ≤ (-33 : Int) ∧ (-33 : Int) ≤ 31) := by decide

theorem witness_RunBlock :
    (decoding [] 61).remain.toNat < 62 ∧ 62 ≤ (decoding [] 62).remain.toNat ∧ ¬ (1 ≤ (0 : Int) ∧ (0 : Int) ≤ 62) := by decide

theorem witness_OutOfRangeBlockIsAnError : (Instr.run 63).wellFormed = false := by decide

/-- A decode pass right after START, and the same pass of an encoder. -/
def fresh (m : Mode) : State := { State.reset with phase := .header, mode := m, channels := 4#8, width := 1#32, height := 1#32 }

theorem fresh_is_fresh (m : Mode) : FreshPass (fresh m) := ⟨rfl, rfl, rfl, rfl⟩

/-! Passes -/

theorem witness_StepRunsDecodedBlock :
    CoreTurn { decoding [0x5E#8, 0xC0#8] 2 with agenda := [.core] } (decoding [0x5E#8, 0xC0#8] 2) ∧
    (decoding [0x5E#8, 0xC0#8] 2).phase = .blocks ∧ (decoding [0x5E#8, 0xC0#8] 2).mode = .decode ∧
    decode (decoding [0x5E#8, 0xC0#8] 2).inByte = .block (.diff (-1) 1 0) [0xC0#8] :=
  ⟨.inr ⟨[], rfl, rfl⟩, rfl, rfl, by decide⟩

/-- A pass at its last possible point: four of the five bytes of an RGBA block, and END. -/
def truncated : State := { decoding [0xFF#8, 1#8, 2#8, 3#8] 1 with inByteEnd := true }

theorem witness_TruncatedBlockRaises :
    CoreTurn truncated truncated ∧ truncated.phase = .blocks ∧ truncated.mode = .decode ∧ truncated.inByteEnd = true ∧
    (∃ t x, truncated.inByte = t :: x ∧ x.length + 1 < blockLength t) ∧
    CoreTurn { truncated with inByte := [] } { truncated with inByte := [] } ∧ ({ truncated with inByte := [] } : State).inByte = [] :=
  ⟨.inl ⟨rfl, rfl⟩, rfl, rfl, rfl, ⟨0xFF#8, [1#8, 2#8, 3#8], rfl, by decide⟩, .inl ⟨rfl, rfl⟩, rfl⟩

/-- A decode pass waiting for the eighth byte of its marker. -/
def waiting : State := { decoding [0#8, 0#8, 0#8, 0#8, 0#8, 0#8, 0#8] 0 with phase := .trailer, enforceEnd := true }

theorem witness_HeldStepChangesNothing :
    (CoreTurn (fresh .decode) (fresh .decode) ∧ (fresh .decode).phase = .header ∧ (fresh .decode).mode = .decode ∧
      (fresh .decode).inByteEnd = false ∧ (fresh .decode).inByte.length < 14) ∧
    (CoreTurn (decoding [0x80#8] 1) (decoding [0x80#8] 1) ∧ (decoding [0x80#8] 1).phase = .blocks ∧
      (decoding [0x80#8] 1).inByteEnd = false ∧
      (∃ t x, (decoding [0x80#8] 1).inByte = t :: x ∧ x.length + 1 < blockLength t) ∧ (decoding [] 1).inByte = []) ∧
    (CoreTurn waiting waiting ∧ waiting.phase = .trailer ∧ waiting.inByteEnd = false ∧ waiting.inByte.length < 8) ∧
    (CoreTurn (encoding [] 1) (encoding [] 1) ∧ (encoding [] 1).phase = .blocks ∧ (encoding [] 1).mode = .encode ∧
      (encoding [] 1).inPixEnd = false ∧ (encoding [] 1).inPix = []) :=
  ⟨⟨.inl ⟨rfl, rfl⟩, rfl, rfl, rfl, by decide⟩, ⟨.inl ⟨rfl, rfl⟩, rfl, rfl, ⟨0x80#8, [], rfl, by decide⟩, rfl⟩,
    ⟨.inl ⟨rfl, rfl⟩, rfl, rfl, by decide⟩, .inl ⟨rfl, rfl⟩, rfl, rfl, rfl, rfl⟩

theorem witness_IdleCoreTakesNothing : CoreTurn State.reset State.reset ∧ State.reset.phase = .idle := ⟨.inl ⟨rfl, rfl⟩, rfl⟩

/-- The header of a 1 by 1 image, then one byte. -/
def headed (ch cs : Byte) : State := { fresh .decode with inByte := encodeHeader 1#32 1#32 ch cs ++ [0xC0#8] }

/-- What `ok` is in `Obligations.HeaderStepReportsFirstProblem`. -/
def legalAt (k : Nat) (x : Byte) : Bool :=
  if k = 0 then x == 0x71#8 else if k = 1 then x == 0x6F#8 else if k = 2 then x == 0x69#8 else if k = 3 then x == 0x66#8
  else if k = 12 then x == 3#8 || x == 4#8 else if k = 13 then x == 0#8 || x == 1#8 else true

theorem witness_HeaderStepReportsFirstProblem :
    (∀ k x, legalAt k x = true ↔
      (k = 0 → x = 0x71#8) ∧ (k = 1 → x = 0x6F#8) ∧ (k = 2 → x = 0x69#8) ∧ (k = 3 → x = 0x66#8) ∧
      (k = 12 → x = 3#8 ∨ x = 4#8) ∧ (k = 13 → x = 0#8 ∨ x = 1#8)) ∧
    (CoreTurn (headed 4#8 0#8) (headed 4#8 0#8) ∧ 14 ≤ (headed 4#8 0#8).inByte.length ∧
      ∀ j < 14, legalAt j ((headed 4#8 0#8).inByte.getD j 0#8) = true) ∧
    (legalAt 13 ((headed 4#8 2#8).inByte.getD 13 0#8) = false ∧
      ∀ j < 13, legalAt j ((headed 4#8 2#8).inByte.getD j 0#8) = true) ∧
    (legalAt 3 0x67#8 = false ∧ legalAt 12 5#8 = false ∧ ({ fresh .decode with inByteEnd := true } : State).inByte.length = 0) := by
  refine ⟨?_, ⟨.inl ⟨rfl, rfl⟩, by decide, by decide⟩, ⟨by decide, by decide⟩, by decide⟩
  intro k x
  unfold legalAt
  split_ifs <;> simp_all

theorem witness_HeaderAcceptance :
    CoreTurn (headed 3#8 1#8) (headed 3#8 1#8) ∧ (headed 3#8 1#8).phase = .header ∧ (headed 3#8 1#8).mode = .decode ∧
    (headed 3#8 1#8).inByte = encodeHeader 1#32 1#32 3#8 1#8 ++ [0xC0#8] ∧ 0 ≤ s32 1#32 ∧ 0 ≤ s32 0x7FFFFFFF#32 ∧
    after (step (headed 4#8 2#8)) (fun t => t.phase) = some .error :=
  ⟨.inl ⟨rfl, rfl⟩, rfl, rfl, rfl, by decide, by decide, by decide⟩

/-- A decode pass at its marker. -/
def atMarker (bs : List Byte) : State := { decoding bs 0 with phase := .trailer, inByteEnd := true, enforceEnd := true }

theorem witness_EndMarkerStep :
    CoreTurn (atMarker [0#8, 0#8, 0#8, 0#8, 0#8, 0#8, 0#8, 1#8]) (atMarker [0#8, 0#8, 0#8, 0#8, 0#8, 0#8, 0#8, 1#8]) ∧
    (atMarker [0#8, 0#8, 0#8, 0#8, 0#8, 0#8, 0#8, 1#8]).inByte.take 8 = [0#8, 0#8, 0#8, 0#8, 0#8, 0#8, 0#8, 1#8] ∧
    (atMarker [0#8, 0#8, 0#8, 0#8, 0#8, 0#8, 0#8]).inByte.take 8 ≠ [0#8, 0#8, 0#8, 0#8, 0#8, 0#8, 0#8, 1#8] :=
  ⟨.inl ⟨rfl, rfl⟩, rfl, by decide⟩

theorem witness_DecodeBlockAccounting :
    CoreTurn (decoding [0xC0#8] 1) (decoding [0xC0#8] 1) ∧
    after (step (decoding [0xC0#8] 1)) (fun t => (t.phase, t.remain)) = some (.done, 0#64) :=
  ⟨.inl ⟨rfl, rfl⟩, by decide⟩

theorem witness_EncoderHeaderStep :
    CoreTurn (fresh .encode) (fresh .encode) ∧ (fresh .encode).phase = .header ∧ (fresh .encode).mode = .encode ∧
    0 ≤ s32 (fresh .encode).width ∧ (fresh .encode).channels = 4#8 ∧ (fresh .encode).colorspace = 0#8 ∧
    s32 ({ fresh .encode with height := 0x80000000#32 } : State).height < 0 :=
  ⟨.inl ⟨rfl, rfl⟩, rfl, rfl, by decide, rfl, rfl, by decide⟩

/-- An encode pass with a pending run of `n` pixels of the initial colour. -/
def running (vs : List Word) (n : BitVec 6) : State := { encoding vs 1 with runCnt := n }

theorem witness_RepeatPixelIsCounted :
    CoreTurn (running [0xFF000000#32] 61#6) (running [0xFF000000#32] 61#6) ∧
    (running [0xFF000000#32] 61#6).runCnt.toNat < 62 ∧ (running [0xFF000000#32] 61#6).remain ≠ 0#64 ∧
    fromPacked 0xFF000000#32 = (running [0xFF000000#32] 61#6).last ∧ 62 ≤ (running [0xFF000000#32] 62#6).runCnt.toNat :=
  ⟨.inl ⟨rfl, rfl⟩, by decide, by decide, by decide, by decide⟩

theorem witness_NonRepeatPixelIsEncoded :
    CoreTurn (running [0xFFFF0100#32] 61#6) (running [0xFFFF0100#32] 61#6) ∧
    fromPacked 0xFFFF0100#32 = ⟨255#8, 1#8, 0#8, 255#8⟩ ∧ fromPacked 0xFFFF0100#32 ≠ (running [0xFFFF0100#32] 61#6).last ∧
    (running [0xFFFF0100#32] 61#6).runCnt.toNat < 62 ∧ (running [0xFFFF0100#32] 61#6).remain ≠ 0#64 ∧
    (running [0xFFFF0100#32] 61#6).cache.get (pixelHash ⟨255#8, 1#8, 0#8, 255#8⟩) ≠ ⟨255#8, 1#8, 0#8, 255#8⟩ ∧
    sdiff8 255#8 (running [] 61#6).last.r = -1 :=
  ⟨.inl ⟨rfl, rfl⟩, by decide, by decide, by decide, by decide, by decide, by decide⟩

theorem witness_RunSplitting :
    (encoding [0xFF000000#32, 0#32] 2).phase = .blocks ∧ (encoding [0xFF000000#32, 0#32] 2).agenda = [] ∧
    (encoding [0xFF000000#32, 0#32] 2).runCnt = 0#6 ∧
    (encoding [0xFF000000#32, 0#32] 2).inPix =
      List.replicate 1 (toPacked (encoding [0xFF000000#32, 0#32] 2).last) ++ [0#32] ∧
    1 < (encoding [0xFF000000#32, 0#32] 2).remain.toNat := by decide

theorem witness_EncoderTrailerStep :
    CoreTurn { running [] 61#6 with phase := .trailer } { running [] 61#6 with phase := .trailer } ∧
    (running [] 61#6).mode = .encode ∧ (running [] 61#6).runCnt.toNat < 62 :=
  ⟨.inl ⟨rfl, rfl⟩, rfl, by decide⟩

theorem witness_ShortPixelInputRaises :
    CoreTurn { running [] 61#6 with inPixEnd := true } { running [] 61#6 with inPixEnd := true } ∧
    (running [] 61#6).phase = .blocks ∧ (running [] 61#6).inPix = [] ∧ (running [] 61#6).remain ≠ 0#64 :=
  ⟨.inl ⟨rfl, rfl⟩, rfl, rfl, by decide⟩

/-! The invariant -/

/-- The prediction state of a fresh pass meets the invariant, with any ports, whatever the phase asks of the rest. -/
theorem sound_of_fresh {s : State} (hc : s.cache = State.reset.cache) (hl : s.last = State.reset.last) (hr : RunSound s)
    (hm : RemainSound s) (he : CauseSound s) (hh : HeaderSound s) : SoundState s := by
  refine ⟨fun k => .inl ?_, .inl hl, hr, hm, he, hh⟩
  rw [hc]
  simp [State.reset, Vector.get]

theorem sound_of_parts {s : State} (hc : s.cache = State.reset.cache) (hl : s.last = State.reset.last)
    (h : RunSound s ∧ RemainSound s ∧ CauseSound s ∧ HeaderSound s) : SoundState s :=
  sound_of_fresh hc hl h.1 h.2.1 h.2.2.1 h.2.2.2

/-- The longest run from the start of a pass's blocks, in a state that meets the invariant. -/
theorem witness_InitialRunIsNotCached :
    SoundState (decoding [0xFD#8, 0x35#8] 63) ∧ 1 ≤ 62 ∧ (decoding [0xFD#8, 0x35#8] 63).phase = .blocks ∧
    (decoding [0xFD#8, 0x35#8] 63).mode = .decode ∧
    (decoding [0xFD#8, 0x35#8] 63).cache = Vector.replicate 64 ⟨0#8, 0#8, 0#8, 0#8⟩ ∧
    (decoding [0xFD#8, 0x35#8] 63).last = ⟨0#8, 0#8, 0#8, 255#8⟩ ∧ 62 < (decoding [0xFD#8, 0x35#8] 63).remain.toNat :=
  ⟨sound_of_parts rfl rfl (by unfold RunSound RemainSound CauseSound HeaderSound; decide), by decide, rfl, rfl, rfl, rfl,
    by decide⟩

theorem sound_decoding (bs : List Byte) : SoundState (decoding bs 2) :=
  sound_of_fresh rfl rfl ⟨by show (0#6).toNat < 62; decide, fun _ => rfl⟩
    ⟨fun _ => by show 2#64 ≠ 0#64; decide, by simp [decoding], by simp [decoding]⟩
    (by simp [CauseSound, decoding, State.reset]) fun _ => by show legalConfig (decoding [] 2); decide

theorem sound_encoding (vs : List Word) : SoundState { encoding vs 2 with runCnt := 61#6 } :=
  sound_of_fresh rfl rfl ⟨by show (61#6).toNat < 62; decide, by simp [encoding]⟩
    ⟨fun _ => by show 2#64 ≠ 0#64; decide, by simp [encoding], by simp [encoding]⟩
    (by simp [CauseSound, encoding, State.reset]) fun _ => by show legalConfig (encoding [] 2); decide

theorem witness_EncoderLockstep :
    SoundState { encoding [0xFFFF0100#32] 2 with runCnt := 61#6 } ∧
    (∃ t, step { encoding [0xFFFF0100#32] 2 with runCnt := 61#6 } = .next t) ∧ 61 + 1 ≤ (decoding [] 62).remain.toNat :=
  ⟨sound_encoding _, ⟨_, rfl⟩, by decide⟩

/-- An encode pass right after its START, with the one pixel of its image. -/
def toEncode : State := { fresh .encode with inPix := [0xFF0A141E#32] }

theorem witness_DecodeOfEncodedImageIsTheImage :
    FreshPass toEncode ∧ toEncode.mode = .encode ∧ toEncode.agenda = [] ∧ toEncode.outByte = [] ∧
    toEncode.inPix = [0xFF0A141E#32] ∧ legalConfig toEncode ∧
    (([0xFF0A141E#32] : List Word).length : Int) = s32 toEncode.width * s32 toEncode.height ∧
    FreshPass (fresh .decode) ∧ (fresh .decode).outPix = [] :=
  ⟨⟨rfl, rfl, rfl, rfl⟩, rfl, rfl, rfl, rfl, by decide, by decide, fresh_is_fresh _, rfl⟩

/-- A decode pass right after its START, with a whole stream of one pixel pending. -/
def toDecode : State := { fresh .decode with inByte := encodeHeader 1#32 1#32 4#8 0#8 ++ [0x7A#8] }

theorem witness_DoneMeansAllPixels :
    FreshPass toDecode ∧ toDecode.mode = .decode ∧ toDecode.agenda = [] ∧ toDecode.outPix = [] ∧
    after (runSteps 2 toDecode) (fun t => t.phase) = some .done :=
  ⟨⟨rfl, rfl, rfl, rfl⟩, rfl, rfl, rfl, by decide⟩

/-- A state of each step that raises, with the bytes and pixels that make it raise. -/
def raising : Mode → Phase → State
  | .decode, .header => { fresh .decode with inByte := [0x71#8, 0x6F#8], inByteEnd := true }
  | .decode, .trailer => atMarker [0#8, 0#8, 0#8, 0#8, 0#8, 0#8, 0#8, 2#8, 7#8]
  | .decode, _ => { truncated with remain := 2#64 }
  | .encode, .header => { fresh .encode with channels := 5#8 }
  | .encode, _ => { encoding [] 2 with inPixEnd := true }

theorem sound_raising :
    SoundState (raising .decode .header) ∧ SoundState (raising .decode .blocks) ∧ SoundState (raising .decode .trailer) ∧
    SoundState (raising .encode .header) ∧ SoundState (raising .encode .blocks) :=
  ⟨sound_of_parts rfl rfl (by unfold RunSound RemainSound CauseSound HeaderSound; decide),
    sound_of_parts rfl rfl (by unfold RunSound RemainSound CauseSound HeaderSound; decide),
    sound_of_parts rfl rfl (by unfold RunSound RemainSound CauseSound HeaderSound; decide),
    sound_of_parts rfl rfl (by unfold RunSound RemainSound CauseSound HeaderSound; decide),
    sound_of_parts rfl rfl (by unfold RunSound RemainSound CauseSound HeaderSound; decide)⟩

/-- What an error leaves of the pending bytes, with its cause. -/
def errorLeaves (s : State) : Option (Phase × Cause × List Byte) := after (step s) fun t => (t.phase, t.cause, t.inByte)

/-- The states of `raising` and a sound overshoot meet the hypotheses, one for each clause (60_exceptions.md R302). -/
theorem witness_ErrorEntryIsExact :
    CoreTurn (decoding [0xC2#8, 9#8] 2) (decoding [0xC2#8, 9#8] 2) ∧ SoundState (decoding [0xC2#8, 9#8] 2) ∧
    errorLeaves (decoding [0xC2#8, 9#8] 2) = some (.error, .fRunOvershoot, [9#8]) ∧
    errorLeaves (raising .decode .header) = some (.error, .fTruncHeader, []) ∧
    errorLeaves (raising .decode .blocks) = some (.error, .fTruncBlock, [0xFF#8, 1#8, 2#8, 3#8]) ∧
    errorLeaves (raising .decode .trailer) = some (.error, .fEndMarker, [7#8]) ∧
    errorLeaves (raising .encode .header) = some (.error, .vConfig, []) ∧
    errorLeaves (raising .encode .blocks) = some (.error, .fPixelShort, []) :=
  ⟨.inl ⟨rfl, rfl⟩, sound_decoding _, by decide, by decide, by decide, by decide, by decide, by decide⟩

/-- An error that is being held, with a write of CTRL that is neither START nor ABORT to come. -/
def failed : State := { decoding [] 1 with phase := .error, cause := .fTruncBlock, agenda := [.host (.csrWrite 0 0x1C#32)] }

theorem witness_ErrorIsHeld :
    failed.phase = .error ∧ (∃ t, step failed = .next t) ∧ (0x1C#32).getLsbD 0 = false ∧ (0x1C#32).getLsbD 1 = false ∧
    ∀ later, failed.agenda ≠ .reset :: later :=
  ⟨rfl, ⟨_, rfl⟩, by decide, by decide, fun _ => by simp [failed]⟩

theorem witness_NoInternalErrorsInAPass :
    SoundState (decoding [0xC2#8] 2) ∧ (decoding [0xC2#8] 2).phase ≠ .error ∧ ∃ t, step (decoding [0xC2#8] 2) = .next t :=
  ⟨sound_decoding _, by decide, _, rfl⟩

/-! The host -/

/-- `s` with one host action to come. -/
def hosting (act : HostAction) (s : State) : State := { s with agenda := [.host act] }

theorem hosting_turn (act : HostAction) (s : State) : HostTurn act (hosting act s) { s with agenda := [] } := ⟨[], rfl, rfl⟩

theorem witness_StartCommand :
    HostTurn (.csrWrite 0 0x1D#32) (hosting (.csrWrite 0 0x1D#32) failed) { failed with agenda := [] } ∧
    (0x1D#32).getLsbD 0 = true ∧ (0x1D#32).getLsbD 1 = false ∧ failed.phase = .error ∧ (decoding [] 1).phase = .blocks :=
  ⟨hosting_turn _ _, by decide, by decide, rfl, rfl⟩

theorem witness_AbortCommand :
    HostTurn (.csrWrite 0 3#32) (hosting (.csrWrite 0 3#32) truncated) truncated ∧ (3#32).getLsbD 1 = true :=
  ⟨hosting_turn _ _, by decide⟩

theorem witness_CtrlRegister :
    HostTurn (.csrWrite 0 0x1C#32) (hosting (.csrWrite 0 0x1C#32) State.reset) State.reset ∧
    (0x1C#32).getLsbD 0 = false ∧ (0x1C#32).getLsbD 1 = false ∧ State.reset.phase = .idle ∧ truncated.phase = .blocks :=
  ⟨hosting_turn _ _, by decide, by decide, rfl, rfl⟩

theorem witness_StatusRegister : HostTurn (.csrWrite 1 0#32) (hosting (.csrWrite 1 0#32) truncated) truncated :=
  hosting_turn _ _

theorem witness_ConfigurationRegisters :
    HostTurn (.csrWrite 4 0x103#32) (hosting (.csrWrite 4 0x103#32) State.reset) State.reset ∧ State.reset.phase = .idle ∧
    HostTurn (.csrWrite 2 5#32) (hosting (.csrWrite 2 5#32) truncated) truncated ∧ truncated.phase = .blocks :=
  ⟨hosting_turn _ _, rfl, hosting_turn _ _, rfl⟩

theorem witness_RemainAndUnknownRegisters :
    HostTurn (.csrWrite 5 1#32) (hosting (.csrWrite 5 1#32) truncated) truncated ∧ 7 ≤ 7 :=
  ⟨hosting_turn _ _, by decide⟩

theorem witness_HostStreamActions :
    HostTurn (.csrRead 1) (hosting (.csrRead 1) truncated) truncated ∧
    (HostTurn (.supplyByte 7#8) (hosting (.supplyByte 7#8) truncated) truncated ∧ truncated.inByteEnd = true) ∧
    HostTurn (.supplyPix 7#32) (hosting (.supplyPix 7#32) truncated) truncated ∧
    HostTurn (.endInput .inByte) (hosting (.endInput .inByte) truncated) truncated ∧
    HostTurn (.endInput .inPix) (hosting (.endInput .inPix) truncated) truncated ∧
    (HostTurn (.take .outByte) (hosting (.take .outByte) truncated) truncated ∧ truncated.outByte = []) ∧
    (HostTurn (.take .outPix) (hosting (.take .outPix) { truncated with outPix := [9#32] }) { truncated with outPix := [9#32] } ∧
      ({ truncated with outPix := [9#32] } : State).outPix = [9#32]) :=
  ⟨hosting_turn _ _, ⟨hosting_turn _ _, rfl⟩, hosting_turn _ _, hosting_turn _ _, hosting_turn _ _,
    ⟨hosting_turn _ _, rfl⟩, hosting_turn _ _, rfl⟩

theorem witness_ResetInAnyPhase : ({ truncated with agenda := [.reset] } : State).agenda = .reset :: [] := rfl

theorem witness_StepKeepsInvariant : SoundState (decoding [0x5E#8] 2) ∧ ∃ t, step (decoding [0x5E#8] 2) = .next t :=
  ⟨sound_decoding _, _, rfl⟩

theorem witness_InvariantStepNeverStops : SoundState (decoding [0xC1#8] 2) := sound_decoding _

theorem witness_StreamsAreOrdered :
    CoreTurn (decoding [0x5E#8] 2) (decoding [0x5E#8] 2) ∧ ∃ t, step (decoding [0x5E#8] 2) = .next t :=
  ⟨.inl ⟨rfl, rfl⟩, _, rfl⟩

theorem witness_CoreStepLeavesTheRestAlone :
    CoreTurn (encoding [0#32] 2) (encoding [0#32] 2) ∧ (encoding [0#32] 2).mode = .encode ∧
    ∃ t, step (encoding [0#32] 2) = .next t :=
  ⟨.inl ⟨rfl, rfl⟩, rfl, _, rfl⟩

theorem witness_PassPhasesMoveForward :
    CoreTurn (decoding [0xC1#8] 2) (decoding [0xC1#8] 2) ∧ SoundState (decoding [0xC1#8] 2) ∧
    after (step (decoding [0xC1#8] 2)) (fun t => t.phase) = some .done :=
  ⟨.inl ⟨rfl, rfl⟩, sound_decoding _, by decide⟩

/-- Each way the input of a pass can be complete: END on the pass's own port alone, all pixels pending and no END, a rejected
configuration. -/
theorem witness_PassTerminates :
    (SoundState { fresh .decode with inByteEnd := true } ∧ (fresh .decode).phase = .header ∧ (fresh .decode).agenda = []) ∧
    SoundState { fresh .encode with inPixEnd := true } ∧
    (SoundState toEncode ∧ toEncode.inPixEnd = false ∧ toEncode.width.toNat * toEncode.height.toNat ≤ toEncode.inPix.length) ∧
    SoundState (raising .encode .header) ∧ ¬ legalConfig (raising .encode .header) :=
  ⟨⟨sound_of_parts rfl rfl (by unfold RunSound RemainSound CauseSound HeaderSound; decide), rfl, rfl⟩,
    sound_of_parts rfl rfl (by unfold RunSound RemainSound CauseSound HeaderSound; decide),
    ⟨sound_of_parts rfl rfl (by unfold RunSound RemainSound CauseSound HeaderSound; decide), rfl, by decide⟩,
    sound_raising.2.2.2.1, by decide⟩

theorem witness_AssemblerLines : (Instr.run 63).wellFormed = false ∧ (Instr.run 62).wellFormed = true := by decide

/-- A way of writing operands: 254 as the first operand is `0xFe`, and everything else is decimal. -/
def someHex (k : Nat) (x : Int) : List Char := if k = 0 ∧ x = 254 then ['0', 'x', 'F', 'e'] else operandText x

theorem witness_AssemblerReadsText : (∀ k x, SpellsOperand (someHex k x) x) ∧ [(true, (15 : Fin 16))] ≠ [] := by
  refine ⟨fun k x => ?_, by simp⟩
  unfold someHex
  split_ifs with h
  · exact .inr ⟨[(true, 15), (false, 14)], by simp, rfl, h.2⟩
  · exact .inl rfl

theorem test_hex_line : assemble "RGB 0xFe, 0x0, 0x00A".toList = some [0xFE#8, 0xFE#8, 0x00#8, 0x0A#8] := by decide

end Sys2Proof.Tests
end

section
/-! PROOFS. The status registers of the host port (spec/10_state.md R32, R36): STATUS as a number, REMAIN as two words, and
the registers that ignore writes. -/

namespace Sys2Proof.Machine

/-! ### STATUS as read -/

/-- A register's number from its two parts: the upper part counts from the lower part's width on. -/
theorem toNat_append_eq_add {m n : Nat} (x : BitVec m) (y : BitVec n) : (x ++ y).toNat = x.toNat * 2 ^ n + y.toNat := by
  rw [BitVec.toNat_append, ← Nat.shiftLeft_add_eq_or_of_lt y.isLt, Nat.shiftLeft_eq]

theorem csrRead_status (s : State) : csrRead 1 s = readStatus s := rfl

theorem statusCause_of_error {s : State} (h : s.phase = .error) : statusCause s = s.cause.code := if_pos h

theorem statusCause_of_not_error {s : State} (h : s.phase ≠ .error) : statusCause s = 0#8 := if_neg h

/-- The fields of STATUS by their weights: CAUSE from bit 8, BUSY at bit 3, PHASE from bit 0 (R32). -/
theorem readStatus_toNat (s : State) :
    (readStatus s).toNat = 256 * (statusCause s).toNat + 8 * s.phase.isBusy.toNat + s.phase.code.toNat := by
  simp only [readStatus, toNat_append_eq_add, BitVec.toNat_ofNat, BitVec.toNat_ofBool]
  omega

/-- Outside ERROR the CAUSE field adds nothing. -/
theorem readStatus_toNat_of_not_error {s : State} (h : s.phase ≠ .error) :
    (readStatus s).toNat = 8 * s.phase.isBusy.toNat + s.phase.code.toNat := by
  simp [readStatus_toNat, statusCause_of_not_error h]

/-- In ERROR, which is not busy, the CAUSE field holds the code of CAUSE. -/
theorem readStatus_toNat_of_error {s : State} (h : s.phase = .error) :
    (readStatus s).toNat = 5 + 256 * s.cause.code.toNat := by
  rw [readStatus_toNat, statusCause_of_error h, h, Nat.add_assoc, Nat.add_comm]
  rfl

/-! ### Registers that hold nothing, and writes that do nothing -/

theorem csrRead_of_seven_le {k : Nat} (h : 7 ≤ k) (s : State) : csrRead k s = 0#32 := by
  obtain ⟨n, rfl⟩ := Nat.exists_eq_add_of_le' h
  rfl

/-- STATUS, the words of REMAIN and every index not in the table ignore a write (R30, R32, R36). -/
theorem csrWrite_ignored {k : Nat} (h : k = 1 ∨ 5 ≤ k) (v : Word) (s : State) : csrWrite k v s = s := by
  obtain rfl | h := h
  · rfl
  · obtain ⟨n, rfl⟩ := Nat.exists_eq_add_of_le' h
    rfl

/-- The step of a host turn that writes such a register only uses the turn up. -/
theorem step_of_csrWrite_ignored {s s1 : State} {k : Nat} {v : Word} (hk : k = 1 ∨ 5 ≤ k)
    (h : HostTurn (.csrWrite k v) s s1) : step s = .next s1 := by
  rw [(hostTurn_step h).1, hostStep, csrWrite_ignored hk]

/-! ### REMAIN as read -/

/-- REMAIN_HI and REMAIN_LO are the quotient and the remainder of REMAIN by 2^32. -/
theorem csrRead_remain (s : State) :
    (csrRead 6 s).toNat = s.remain.toNat / 2 ^ 32 ∧ (csrRead 5 s).toNat = s.remain.toNat % 2 ^ 32 := by
  have hlt : s.remain.toNat < 2 ^ 64 := s.remain.isLt
  constructor
  · rw [csrRead, BitVec.extractLsb'_toNat, Nat.shiftRight_eq_div_pow]
    omega
  · rw [csrRead, BitVec.extractLsb'_toNat, Nat.shiftRight_zero]

/-! ### The obligations -/

/-- Settles O47: the number by the phase, and in ERROR by the cause; a write of STATUS is one that is ignored. -/
theorem statusRegister : Obligations.StatusRegister := by
  unfold Obligations.StatusRegister
  refine ⟨fun s => ?_, fun _ _ _ => step_of_csrWrite_ignored (.inl rfl)⟩
  rw [csrRead_status]
  by_cases he : s.phase = .error
  · rw [readStatus_toNat_of_error he, he]
    cases s.cause <;> rfl
  · rw [readStatus_toNat_of_not_error he]
    cases hp : s.phase with
    | error => exact absurd hp he
    | _ => rfl

/-- Settles O49: quotient and remainder give REMAIN back; the rest is what an index not in the table reads and which writes
are ignored. -/
theorem remainAndUnknownRegisters : Obligations.RemainAndUnknownRegisters := by
  unfold Obligations.RemainAndUnknownRegisters
  refine ⟨fun s => ?_, fun s _ hk => csrRead_of_seven_le hk s, fun _ _ _ _ h hk => step_of_csrWrite_ignored (.inr hk) h⟩
  obtain ⟨hhi, hlo⟩ := csrRead_remain s
  rw [hhi, hlo, Nat.div_add_mod']

end Sys2Proof.Machine
end

section
/-! PROOFS. The header as bytes, pixel packing and channel arithmetic (spec/40_header_pixel.md R120, R124, R128, R129), each as
numbers. -/

namespace Sys2Proof.Machine

/-! ### The bytes of a word, and the header -/

/-- The byte of a word that starts at bit `k`, as a number. -/
theorem extractByte_toNat (v : Word) (k : Nat) : (v.extractLsb' k 8).toNat = v.toNat / 2 ^ k % 256 := by
  rw [BitVec.extractLsb'_toNat, Nat.shiftRight_eq_div_pow]

/-- `be32` writes the base-256 digits of a word, most significant first (R120). -/
theorem be32_toNat (v : Word) :
    (be32 v).map BitVec.toNat =
      [v.toNat / 2 ^ 24 % 256, v.toNat / 2 ^ 16 % 256, v.toNat / 2 ^ 8 % 256, v.toNat % 256] := by
  simp only [be32, List.map_cons, List.map_nil, extractByte_toNat, Nat.pow_zero, Nat.div_one]

theorem magic_toNat : magic.map BitVec.toNat = [0x71, 0x6F, 0x69, 0x66] := rfl

/-- Settles O26: magic, the digits of both dimensions, and the two tag bytes. -/
theorem headerBytes : Obligations.HeaderBytes := by
  unfold Obligations.HeaderBytes
  intro w h ch cs
  simp only [encodeHeader, List.map_append, magic_toNat, be32_toNat, List.map_cons, List.map_nil, List.cons_append,
    List.nil_append]

/-! ### Channel arithmetic -/

/-- `sext_8` of a residue modulo 256 is the value in −128..127 of the same residue. -/
theorem sext8_emod (v : Int) : inRange (-128) 127 (sext8 (v % 256)) ∧ sext8 (v % 256) % 256 = v % 256 := by
  unfold sext8
  split_ifs <;> omega

/-- The signed difference lies in −128..127 (R128). -/
theorem sdiff8_inRange (x y : Byte) : inRange (-128) 127 (sdiff8 x y) := (sext8_emod _).1

/-- The signed difference is the plain difference modulo 256 (R128). -/
theorem sdiff8_emod (x y : Byte) : sdiff8 x y % 256 = ((x.toNat : Int) - y.toNat) % 256 := (sext8_emod _).2

@[simp] theorem sdiff8_self (x : Byte) : sdiff8 x x = 0 := by
  rw [sdiff8, sub_self]
  rfl

/-- Settles O9: the range and the congruence of `sext_8`, and the corner values by evaluation. -/
theorem signedDifference : Obligations.SignedDifference := by
  unfold Obligations.SignedDifference
  refine ⟨fun x y => ?_, rfl, rfl, rfl, rfl, rfl, sdiff8_self⟩
  obtain ⟨hlo, hhi⟩ := sdiff8_inRange x y
  exact ⟨hlo, hhi, Int.emod_eq_emod_iff_emod_sub_eq_zero.mp (sdiff8_emod x y)⟩

/-- The reduced sum is a channel value, so the channel holds it unchanged (R129). -/
theorem addc_toNat (x : Byte) (d : Int) : ((addc x d).toNat : Int) = ((x.toNat : Int) + d) % 256 :=
  toNat_ofInt_channel ⟨Int.emod_nonneg _ (by decide), by omega⟩

/-- Settles O10: the reduced sum, and the corner values by evaluation. -/
theorem channelReconstruction : Obligations.ChannelReconstruction := by
  unfold Obligations.ChannelReconstruction
  exact ⟨addc_toNat, rfl, rfl, rfl⟩

/-! ### Pixel packing -/

/-- The channels of a packed pixel are the base-256 digits of the word, alpha the highest (R124). -/
theorem fromPacked_toNat (v : Word) :
    (fromPacked v).a.toNat = v.toNat / 2 ^ 24 ∧ (fromPacked v).r.toNat = v.toNat / 2 ^ 16 % 256 ∧
    (fromPacked v).g.toNat = v.toNat / 2 ^ 8 % 256 ∧ (fromPacked v).b.toNat = v.toNat % 256 := by
  have htop : v.toNat / 2 ^ 24 < 256 := Nat.div_lt_of_lt_mul v.isLt
  simp only [fromPacked, extractByte_toNat, Nat.mod_eq_of_lt htop, Nat.pow_zero, Nat.div_one, and_self]

/-- The packed pixel as the number with the channels as its base-256 digits (R124). -/
theorem toPacked_toNat (p : Pixel) :
    (toPacked p).toNat = p.a.toNat * 2 ^ 24 + p.r.toNat * 2 ^ 16 + p.g.toNat * 2 ^ 8 + p.b.toNat := by
  simp only [toPacked, toNat_append_eq_add]
  omega

/-- Pixels with the same channel values are equal. -/
theorem Pixel.eq_of_toNat_eq {p q : Pixel} (ha : p.a.toNat = q.a.toNat) (hr : p.r.toNat = q.r.toNat)
    (hg : p.g.toNat = q.g.toNat) (hb : p.b.toNat = q.b.toNat) : p = q := by
  cases p
  cases q
  simp_all only [BitVec.toNat_inj]

/-- The digits of a number made of digits are those digits. -/
@[simp] theorem fromPacked_toPacked (p : Pixel) : fromPacked (toPacked p) = p := by
  obtain ⟨ha, hr, hg, hb⟩ := fromPacked_toNat (toPacked p)
  rw [toPacked_toNat] at ha hr hg hb
  have := p.r.isLt
  have := p.g.isLt
  have := p.b.isLt
  apply Pixel.eq_of_toNat_eq <;> omega

/-- A number is made of its digits. -/
@[simp] theorem toPacked_fromPacked (v : Word) : toPacked (fromPacked v) = v := by
  obtain ⟨ha, hr, hg, hb⟩ := fromPacked_toNat v
  apply BitVec.eq_of_toNat_eq
  rw [toPacked_toNat, ha, hr, hg, hb]
  omega

/-! ### The pixel ports -/

/-- A produced pixel is appended to OUT_PIX, packed (R124). -/
theorem producePixel_outPix (p : Pixel) {s : State} (h0 : s.remain ≠ 0#64) :
    ∃ t, producePixel p s = .next t ∧ t.outPix = s.outPix ++ [toPacked p] := by
  have hle : 1 ≤ s.remain.toNat := by
    have := sub_one_toNat h0
    omega
  rw [producePixel_eq, retire_of_le (by exact hle)]
  exact ⟨_, rfl, rfl⟩

/-- The pixel step takes the oldest value of IN_PIX, and its unpacked pixel is LAST after the step, a repeat or not (R124). -/
theorem pixelStep_takes {s : State} {v : Word} {vs : List Word} (hv : s.inPix = v :: vs) (hr : s.runCnt.toNat < Config.maxRun)
    (h0 : s.remain ≠ 0#64) : ∃ t, pixelStep s = .next t ∧ t.last = fromPacked v ∧ t.inPix = vs := by
  rcases pixelStep_cases s with ⟨hn, _⟩ | ⟨hm, _⟩ | ⟨_, hn, _⟩ | ⟨hz, _⟩ | ⟨w, ws, hw, _, _, hstep⟩
  · simp [hn] at hv
  · exact absurd hm (Nat.not_le.mpr hr)
  · simp [hn] at hv
  · exact absurd hz h0
  · obtain ⟨rfl, rfl⟩ := List.cons.inj (hv.symm.trans hw)
    rw [hstep, encodePixel_eq (by exact hr)]
    exact ⟨_, rfl, rfl, rfl⟩

/-- A state for each port lemma: two pixels to go, and for the pixel step two pending. -/
theorem pixelPorts_witness :
    (∃ t, producePixel ⟨10#8, 20#8, 30#8, 255#8⟩ { State.reset with remain := 2#64 } = .next t ∧
      t.outPix = [0xFF0A141E#32]) ∧
    (∃ t, pixelStep { State.reset with inPix := [0xFF0A141E#32, 7#32], remain := 2#64 } = .next t ∧
      t.last = ⟨10#8, 20#8, 30#8, 255#8⟩ ∧ t.inPix = [7#32]) :=
  ⟨producePixel_outPix _ (by decide), pixelStep_takes (v := 0xFF0A141E#32) rfl (by decide) (by decide)⟩

/-- Settles O7: the digits of a word and their inverse, and what the two pixel ports carry. -/
theorem packedPixelInverse : Obligations.PackedPixelInverse := by
  unfold Obligations.PackedPixelInverse
  exact ⟨fromPacked_toNat, toPacked_toNat, fromPacked_toPacked, toPacked_fromPacked, fun p _ => producePixel_outPix p,
    fun _ _ _ hv hr h0 => pixelStep_takes hv hr h0⟩

end Sys2Proof.Machine
end

section
/-! PROOFS. The prediction state (spec/41_prediction.md R152, R153): what `observe` and `advance` answer and write. -/

namespace Sys2Proof.Machine

/-- Settles O12: the slot is written in every case, which changes nothing on a hit and that slot alone on a miss. -/
theorem observeRule : Obligations.ObserveRule := by
  unfold Obligations.ObserveRule
  intro p s
  refine ⟨fun hit => ?_, fun miss => ⟨?_, fun k => ?_, ?_⟩⟩
  · exact Prod.ext ((observe_hit p s).trans (if_pos hit)) ((observe_state p s).trans (cacheWrite_self hit))
  · exact (observe_hit p s).trans (if_neg miss)
  · rw [observe_state, cacheWrite_get]
  · rw [observe_state, cacheWrite_cache, cacheWrite]

/-- Settles O13: LAST is the pixel after every `advance`, which changes nothing when it was so before. -/
theorem advanceRule : Obligations.AdvanceRule := by
  unfold Obligations.AdvanceRule
  intro p s
  refine ⟨fun same => ?_, fun other => ?_, ?_⟩
  · subst same
    exact Prod.ext ((advance_repeat s.last s).trans (decide_eq_true rfl)) (advance_state s.last s)
  · exact Prod.ext ((advance_repeat p s).trans (decide_eq_false other)) (advance_state p s)
  · rw [advance_state, setLast]

end Sys2Proof.Machine
end

section
/-! PROOFS. Validation and the block codec (spec/42_block_codec.md R173, R174): which fields each variant refuses, and that
the decoder reads back the bytes of every valid block. -/

namespace Sys2Proof

/-! ### Validation -/

/-- The block encoder refuses exactly the terms that are no block. -/
theorem encodeBlock_eq_none_iff {i : Instr} : encodeBlock i = none ↔ ¬ i.wellFormed = true := by simp [encodeBlock]

theorem encodeBlock_rgb_eq_none_iff (r g b : Int) :
    encodeBlock (.rgb r g b) = none ↔ r < 0 ∨ 255 < r ∨ g < 0 ∨ 255 < g ∨ b < 0 ∨ 255 < b := by
  rw [encodeBlock_eq_none_iff, wellFormed_rgb]
  omega

theorem encodeBlock_rgba_eq_none_iff (r g b a : Int) :
    encodeBlock (.rgba r g b a) = none ↔ r < 0 ∨ 255 < r ∨ g < 0 ∨ 255 < g ∨ b < 0 ∨ 255 < b ∨ a < 0 ∨ 255 < a := by
  rw [encodeBlock_eq_none_iff, wellFormed_rgba]
  omega

theorem encodeBlock_index_eq_none_iff (k : Int) : encodeBlock (.index k) = none ↔ k < 0 ∨ 63 < k := by
  rw [encodeBlock_eq_none_iff, wellFormed_index]
  omega

theorem encodeBlock_diff_eq_none_iff (dr dg db : Int) :
    encodeBlock (.diff dr dg db) = none ↔ dr < -2 ∨ 1 < dr ∨ dg < -2 ∨ 1 < dg ∨ db < -2 ∨ 1 < db := by
  rw [encodeBlock_eq_none_iff, wellFormed_diff]
  omega

theorem encodeBlock_luma_eq_none_iff (dg drdg dbdg : Int) :
    encodeBlock (.luma dg drdg dbdg) = none ↔
      dg < -32 ∨ 31 < dg ∨ drdg < -8 ∨ 7 < drdg ∨ dbdg < -8 ∨ 7 < dbdg := by
  rw [encodeBlock_eq_none_iff, wellFormed_luma]
  omega

theorem encodeBlock_run_eq_none_iff (n : Int) : encodeBlock (.run n) = none ↔ n < 1 ∨ 62 < n := by
  rw [encodeBlock_eq_none_iff, wellFormed_run]
  omega

/-! ### Block decode after block encode -/

/-- The layout of every variant, as one lemma. -/
theorem encode_layout {i : Instr} (h : i.wellFormed = true) :
    ∃ t x, encode i = t :: x ∧ variantOf t = i.variant ∧ x.length + 1 = blockLength t := by
  cases i with
  | rgb r g b => exact Laws.Layout.rgb r g b h
  | rgba r g b a => exact Laws.Layout.rgba r g b a h
  | index k => exact Laws.Layout.index k h
  | diff dr dg db => exact Laws.Layout.diff dr dg db h
  | luma dg drdg dbdg => exact Laws.Layout.luma dg drdg dbdg h
  | run n => exact Laws.Layout.run n h

/-- Under its own tag, the bit fields of a block's bytes hold the block's fields with their biases added. -/
theorem decodeBlock_of_encode {i : Instr} {t : Byte} {x : List Byte} (h : i.wellFormed = true) (he : encode i = t :: x)
    (hv : variantOf t = i.variant) : decodeBlock t x = i := by
  cases i with
  | rgb r g b =>
    obtain ⟨hr, hg, hb⟩ := (wellFormed_rgb r g b).mp h
    obtain ⟨rfl, rfl⟩ := List.cons.inj he
    simp only [decodeBlock, hv, Instr.variant, extraByte, List.getD_cons_zero, List.getD_cons_succ, toNat_ofInt_channel hr,
      toNat_ofInt_channel hg, toNat_ofInt_channel hb]
  | rgba r g b a =>
    obtain ⟨hr, hg, hb, ha⟩ := (wellFormed_rgba r g b a).mp h
    obtain ⟨rfl, rfl⟩ := List.cons.inj he
    simp only [decodeBlock, hv, Instr.variant, extraByte, List.getD_cons_zero, List.getD_cons_succ, toNat_ofInt_channel hr,
      toNat_ofInt_channel hg, toNat_ofInt_channel hb, toNat_ofInt_channel ha]
  | index k =>
    have hk := (wellFormed_index k).mp h
    obtain ⟨rfl, rfl⟩ := List.cons.inj he
    simp only [decodeBlock, hv, Instr.variant, bitField, packFields_prefix, Instr.index.injEq]
    omega
  | diff dr dg db =>
    have hd := (wellFormed_diff dr dg db).mp h
    obtain ⟨rfl, rfl⟩ := List.cons.inj he
    simp only [decodeBlock, hv, Instr.variant, bitField, packFields_pairs, Instr.diff.injEq]
    omega
  | luma dg drdg dbdg =>
    have hl := (wellFormed_luma dg drdg dbdg).mp h
    obtain ⟨rfl, rfl⟩ := List.cons.inj he
    simp only [decodeBlock, hv, Instr.variant, bitField, extraByte, List.getD_cons_zero, packFields_prefix,
      packFields_nibbles, Instr.luma.injEq]
    omega
  | run n =>
    have hn := (wellFormed_run n).mp h
    obtain ⟨rfl, rfl⟩ := List.cons.inj he
    simp only [decodeBlock, hv, Instr.variant, bitField, packFields_prefix, Instr.run.injEq]
    omega

/-- The decoder reads a valid block back from its bytes, whatever follows (R174). -/
theorem decode_encode {i : Instr} (h : i.wellFormed = true) (rest : List Byte) :
    decode (encode i ++ rest) = .block i rest := by
  obtain ⟨t, x, he, hv, hl⟩ := encode_layout h
  rw [he, decode_append hl, decodeBlock_of_encode h he hv]

/-- The bytes of a valid block, both ways: the block encoder answers them and the decoder reads them back. -/
theorem blockCodec_of_wf {i : Instr} {bs : List Byte} (h : i.wellFormed = true) (he : encode i = bs) :
    encodeBlock i = some bs ∧ ∀ rest, decode (bs ++ rest) = .block i rest := by
  subst he
  exact ⟨encodeBlock_of_wf h, decode_encode h⟩

/-! ### Emitting a block -/

namespace Machine

/-- A refused block ends the step in V_FIELD_RANGE. -/
theorem emitBlock_of_none {i : Instr} (h : encodeBlock i = none) (s : State) (rest : State → State) :
    emitBlock i s rest = raise .vFieldRange s := by
  simp only [emitBlock, h]

/-- Any other block's bytes are emitted and the step goes on. -/
theorem emitBlock_of_some {i : Instr} {bs : List Byte} (h : encodeBlock i = some bs) (s : State) (rest : State → State) :
    emitBlock i s rest = rest (emitBytes bs s) := by
  simp only [emitBlock, h]

/-- Settles O4: the range check of each variant, and the two ways `emitBlock` goes on. -/
theorem fieldValidation : Obligations.FieldValidation := by
  unfold Obligations.FieldValidation
  exact ⟨encodeBlock_index_eq_none_iff, encodeBlock_diff_eq_none_iff, encodeBlock_luma_eq_none_iff,
    encodeBlock_run_eq_none_iff, encodeBlock_rgb_eq_none_iff, encodeBlock_rgba_eq_none_iff,
    fun _ s rest => ⟨fun h => emitBlock_of_none h s rest, fun _ h => emitBlock_of_some h s rest⟩⟩

end Machine

end Sys2Proof
end

section
/-! PROOFS. The six blocks (spec/42_block_codec.md R175 to R180): the bytes of each, both ways, and what `exec` does with it. -/

namespace Sys2Proof.Machine

/-! ### Blocks of one pixel -/

/-- A positive REMAIN pays for one pixel. -/
theorem one_le_remain {s : State} (h : s.remain ≠ 0#64) : 1 ≤ s.remain.toNat := by
  have := sub_one_toNat h
  omega

/-- The state after a block of one pixel is the one R172 describes. -/
theorem producedPixel_afterBlock (p : Pixel) {s : State} (h : s.remain ≠ 0#64) :
    ProducedPixel p s (afterBlock s [p] (s.cache.set (pixelHash p) p) p) where
  last := rfl
  cache k := cacheWrite_get k (pixelHash p) p s
  outPix := rfl
  remain := by
    rw [afterBlock_remain (ps := [p]) _ _ (one_le_remain h)]
    exact Nat.sub_add_cancel (one_le_remain h)
  phase := rfl
  frame := rfl

/-- A valid block that stands for one pixel makes it. -/
theorem exec_of_blockPixel {i : Instr} {p : Pixel} {s : State} (hw : i.wellFormed = true) (hp : blockPixel i s = some p)
    (h : s.remain ≠ 0#64) : exec i s = .next (afterBlock s [p] (s.cache.set (pixelHash p) p) p) := by
  obtain ⟨q, hq, he⟩ | ⟨n, rfl, _⟩ := exec_of_wf hw s
  · obtain rfl := Option.some.inj (hp.symm.trans hq)
    exact he.trans (retire_of_le (ps := [p]) (one_le_remain h))
  · simp [blockPixel] at hp

/-- The same, as the effect R172 gives every such block. -/
theorem exec_producedPixel {i : Instr} {p : Pixel} {s : State} (hw : i.wellFormed = true) (hp : blockPixel i s = some p)
    (h : s.remain ≠ 0#64) : ∃ t, exec i s = .next t ∧ ProducedPixel p s t :=
  ⟨_, exec_of_blockPixel hw hp h, producedPixel_afterBlock p h⟩

/-! ### RGB and RGBA -/

/-- A channel's number, put back into a channel. -/
@[simp] theorem channelOf_toNat (x : Byte) : channelOf x.toNat = x := by simp [channelOf]

theorem wellFormed_rgb_toNat (r g b : Byte) : (Instr.rgb r.toNat g.toNat b.toNat).wellFormed = true :=
  (wellFormed_rgb _ _ _).mpr ⟨isChannel_toNat r, isChannel_toNat g, isChannel_toNat b⟩

theorem wellFormed_rgba_toNat (r g b a : Byte) : (Instr.rgba r.toNat g.toNat b.toNat a.toNat).wellFormed = true :=
  (wellFormed_rgba _ _ _ _).mpr ⟨isChannel_toNat r, isChannel_toNat g, isChannel_toNat b, isChannel_toNat a⟩

theorem encode_rgb_toNat (r g b : Byte) : encode (.rgb r.toNat g.toNat b.toNat) = [0xFE#8, r, g, b] := by simp [encode]

theorem encode_rgba_toNat (r g b a : Byte) : encode (.rgba r.toNat g.toNat b.toNat a.toNat) = [0xFF#8, r, g, b, a] := by
  simp [encode]

theorem blockPixel_rgb_toNat (r g b : Byte) (s : State) :
    blockPixel (.rgb r.toNat g.toNat b.toNat) s = some ⟨r, g, b, s.last.a⟩ := by
  simp only [blockPixel, pixelOfRgb, channelOf_toNat]

theorem blockPixel_rgba_toNat (r g b a : Byte) (s : State) :
    blockPixel (.rgba r.toNat g.toNat b.toNat a.toNat) s = some ⟨r, g, b, a⟩ := by
  simp only [blockPixel, pixelOfRgba, channelOf_toNat]

/-- RGB stands only in the last alternative of the selection, under CTRL.ENC_RGB (R261). -/
theorem encRgb_of_selectBlock_eq_rgb {hit : Option Slot} {p last : Pixel} {encRgb : Bool} {r g b : Int}
    (h : selectBlock hit p last encRgb = .rgb r g b) : encRgb = true := by
  cases hit with
  | some k => simp [selectBlock] at h
  | none =>
    simp only [selectBlock, selectByDeltas] at h
    split_ifs at h
    assumption

/-- Settles O14: the codec and the effect of a one-pixel block, at the pixel with LAST's alpha. -/
theorem rgbBlock : Obligations.RgbBlock := by
  unfold Obligations.RgbBlock
  refine ⟨fun r g b => ?_, fun r g b h => ?_, fun r g b => ?_, fun r g b s => ?_, fun _ _ _ _ _ _ _ => ?_⟩
  · exact (blockCodec_of_wf (wellFormed_rgb_toNat r g b) (encode_rgb_toNat r g b)).1
  · exact (encodeBlock_rgb_eq_none_iff r g b).mpr (by omega)
  · exact (blockCodec_of_wf (wellFormed_rgb_toNat r g b) (encode_rgb_toNat r g b)).2
  · exact exec_producedPixel (wellFormed_rgb_toNat r g b) (blockPixel_rgb_toNat r g b s)
  · exact encRgb_of_selectBlock_eq_rgb

/-- Settles O15: the codec and the effect of a one-pixel block, at the pixel of the four fields. -/
theorem rgbaBlock : Obligations.RgbaBlock := by
  unfold Obligations.RgbaBlock
  refine ⟨fun r g b a => ?_, fun r g b a h => ?_, fun r g b a => ?_, fun r g b a s => ?_⟩
  · exact (blockCodec_of_wf (wellFormed_rgba_toNat r g b a) (encode_rgba_toNat r g b a)).1
  · exact (encodeBlock_rgba_eq_none_iff r g b a).mpr (by omega)
  · exact (blockCodec_of_wf (wellFormed_rgba_toNat r g b a) (encode_rgba_toNat r g b a)).2
  · exact exec_producedPixel (wellFormed_rgba_toNat r g b a) (blockPixel_rgba_toNat r g b a s)

/-! ### INDEX -/

/-- A slot's number names the slot. -/
@[simp] theorem slotOf_val (k : Slot) : slotOf k.val = k := by simp [slotOf]

theorem wellFormed_index_val (k : Slot) : (Instr.index k.val).wellFormed = true :=
  (wellFormed_index _).mpr ⟨by omega, Int.ofNat_le.mpr (Nat.le_of_lt_succ k.isLt)⟩

/-- The two tag bits of INDEX are 0, so its byte is the slot's number. -/
theorem encode_index_val (k : Slot) : encode (.index k.val) = [BitVec.ofNat 8 k.val] := by
  simp [encode, packFields]

theorem blockPixel_index_val (k : Slot) (s : State) : blockPixel (.index k.val) s = some (s.cache.get k) := by
  simp only [blockPixel, slotOf_val]

/-- Writing a slot's pixel to its own hash's slot changes nothing when that is where it stands. -/
theorem cache_set_self {k : Slot} {s : State} (h : pixelHash (s.cache.get k) = k) :
    s.cache.set (pixelHash (s.cache.get k)) (s.cache.get k) = s.cache :=
  congrArg State.cache (cacheWrite_self (congrArg s.cache.get h))

/-- Settles O16: the codec and the effect of a one-pixel block, at the pixel of the slot. -/
theorem indexBlock : Obligations.IndexBlock := by
  unfold Obligations.IndexBlock
  refine ⟨fun k => ?_, fun k h => ?_, fun k => ?_, fun k s h0 => ?_⟩
  · exact (blockCodec_of_wf (wellFormed_index_val k) (encode_index_val k)).1
  · exact (encodeBlock_index_eq_none_iff k).mpr (by omega)
  · exact (blockCodec_of_wf (wellFormed_index_val k) (encode_index_val k)).2
  · have he := exec_of_blockPixel (wellFormed_index_val k) (blockPixel_index_val k s) h0
    exact ⟨_, he, producedPixel_afterBlock _ h0, cache_set_self⟩

/-! ### DIFF and LUMA -/

/-- The tag bits 1 and three biased deltas of two bits. -/
theorem diffByte_toNat {dr dg db : Int} (h : (Instr.diff dr dg db).wellFormed = true) :
    ((packFields [(2, 1), (2, dr + 2), (2, dg + 2), (2, db + 2)]).toNat : Int) =
      0x40 + (dr + 2) * 16 + (dg + 2) * 4 + (db + 2) := by
  have := (wellFormed_diff dr dg db).mp h
  rw [packFields_pairs]
  omega

/-- The tag bits 2 and the biased change of green. -/
theorem lumaTag_toNat {dg : Int} (h : inRange (-32) 31 dg) :
    ((packFields [(2, 2), (6, dg + 32)]).toNat : Int) = 0x80 + (dg + 32) := by
  rw [packFields_prefix]
  omega

/-- The two biased differences of four bits. -/
theorem lumaExtra_toNat {drdg dbdg : Int} (hr : inRange (-8) 7 drdg) (hb : inRange (-8) 7 dbdg) :
    ((packFields [(4, drdg + 8), (4, dbdg + 8)]).toNat : Int) = (drdg + 8) * 16 + (dbdg + 8) := by
  rw [packFields_nibbles]
  omega

/-- Settles O17: the codec and the effect of a one-pixel block; each channel is `addc` of its delta. -/
theorem diffBlock : Obligations.DiffBlock := by
  unfold Obligations.DiffBlock
  refine ⟨fun dr dg db h => (encodeBlock_diff_eq_none_iff dr dg db).mpr (by omega), ?_⟩
  intro dr dg db hr hr' hg hg' hb hb'
  have hw : (Instr.diff dr dg db).wellFormed = true := (wellFormed_diff _ _ _).mpr ⟨⟨hr, hr'⟩, ⟨hg, hg'⟩, hb, hb'⟩
  obtain ⟨henc, hdec⟩ := blockCodec_of_wf hw rfl
  refine ⟨_, diffByte_toNat hw, henc, hdec, fun s h0 => ?_⟩
  obtain ⟨u, hu, hp⟩ := exec_producedPixel hw rfl h0
  exact ⟨_, u, hu, hp, rfl, addc_toNat _ _, addc_toNat _ _, addc_toNat _ _⟩

/-- Settles O18: the codec and the effect of a one-pixel block; red and blue are `addc` of green's change plus their own. -/
theorem lumaBlock : Obligations.LumaBlock := by
  unfold Obligations.LumaBlock
  refine ⟨fun dg drdg dbdg h => (encodeBlock_luma_eq_none_iff dg drdg dbdg).mpr (by omega), ?_⟩
  intro dg drdg dbdg hg hg' hr hr' hb hb'
  have hw : (Instr.luma dg drdg dbdg).wellFormed = true := (wellFormed_luma _ _ _).mpr ⟨⟨hg, hg'⟩, ⟨hr, hr'⟩, hb, hb'⟩
  obtain ⟨henc, hdec⟩ := blockCodec_of_wf hw rfl
  refine ⟨_, _, lumaTag_toNat ⟨hg, hg'⟩, lumaExtra_toNat ⟨hr, hr'⟩ ⟨hb, hb'⟩, henc, hdec, fun s h0 => ?_⟩
  obtain ⟨u, hu, hp⟩ := exec_producedPixel hw rfl h0
  exact ⟨_, u, hu, hp, rfl, addc_toNat _ _, addc_toNat _ _, addc_toNat _ _⟩

/-! ### RUN -/

/-- The tag bits 3 and the length less its bias. -/
theorem encode_run_natCast {n : Nat} (h1 : 1 ≤ n) (h62 : n ≤ 62) : encode (.run n) = [BitVec.ofNat 8 (0xC0 + (n - 1))] := by
  have hbyte : packFields [(2, 3), (6, (n : Int) - 1)] = BitVec.ofNat 8 (0xC0 + (n - 1)) := by
    apply BitVec.eq_of_toNat_eq
    rw [packFields_prefix, BitVec.toNat_ofNat]
    omega
  rw [encode, hbyte]

/-- A run longer than REMAIN is the error entry, before any of its pixels (R225). -/
theorem exec_run_of_lt {n : Nat} {s : State} (hw : (Instr.run n).wellFormed = true) (h : s.remain.toNat < n) :
    exec (.run n) s = .next (raise .fRunOvershoot s) := by
  simp only [exec, execRun, validated_of_wf hw, Int.toNat_natCast, if_pos h]

/-- Any other run makes its copies of LAST, with CACHE and LAST as they were (R180). -/
theorem exec_run_of_le {n : Nat} {s : State} (hw : (Instr.run n).wellFormed = true) (h : n ≤ s.remain.toNat) :
    exec (.run n) s = .next (afterBlock s (List.replicate n s.last) s.cache s.last) := by
  simp only [exec, execRun, validated_of_wf hw, Int.toNat_natCast, if_neg (Nat.not_lt.mpr h)]
  exact retire_of_le (by rwa [List.length_replicate])

/-- A block and a state for each rule of `exec`: one pixel to go for RGBA, and one too few and just enough for RUN(62). -/
theorem execRules_witness :
    (∃ t, exec (.rgba 1 2 3 4) { State.reset with remain := 1#64 } = .next t ∧
      ProducedPixel ⟨1#8, 2#8, 3#8, 4#8⟩ { State.reset with remain := 1#64 } t) ∧
    exec (.run 62) { State.reset with remain := 61#64 } = .next (raise .fRunOvershoot { State.reset with remain := 61#64 }) ∧
    (∃ t, exec (.run 62) { State.reset with remain := 62#64 } = .next t ∧ t.phase = .done) :=
  ⟨exec_producedPixel (by decide) rfl (by decide), exec_run_of_lt (n := 62) (by decide) (by decide),
    _, exec_run_of_le (n := 62) (by decide) (by decide), rfl⟩

/-- Settles O19: the codec, and the two cases of a run's length against REMAIN. -/
theorem runBlock : Obligations.RunBlock := by
  unfold Obligations.RunBlock
  refine ⟨fun n h => (encodeBlock_run_eq_none_iff n).mpr (by omega), fun n h1 h62 => ?_⟩
  have hw : (Instr.run n).wellFormed = true := (wellFormed_run _).mpr (by omega)
  obtain ⟨henc, hdec⟩ := blockCodec_of_wf hw (encode_run_natCast h1 h62)
  refine ⟨henc, hdec, fun s => ⟨exec_run_of_lt hw, fun h => ⟨_, exec_run_of_le hw h, ?_, ?_, ?_, rfl⟩⟩⟩
  · rw [afterBlock, List.map_replicate]
  · rw [afterBlock_remain _ _ (by rwa [List.length_replicate]), List.length_replicate, Nat.sub_add_cancel h]
  · rw [afterBlock, List.length_replicate]

end Sys2Proof.Machine
end

section
/-! PROOFS. The header and trailer steps of a decode pass (spec/43_decoder.md R221, R222, R227): the first problem of a header
in stream order, what an accepted header writes, and the end marker. -/

namespace Sys2Proof.Machine

/-! ### The first problem of a header -/

/-- The byte `x` is legal at offset `k` of a header (R91): the magic at 0 to 3, CHANNELS at 12, COLORSPACE at 13. -/
def LegalByte (k : Nat) (x : Byte) : Prop :=
  (k ≤ 3 → x = magic.getD k 0#8) ∧ (k = 12 → legalChannels x) ∧ (k = 13 → legalColorspace x)

/-- The cause of an illegal byte, by its offset (R221). -/
def byteCause (k : Nat) : Cause := if k ≤ 3 then .fBadMagic else if k = 12 then .fBadChannels else .fBadColorspace

/-- The legal bytes offset by offset, the magic as numbers. -/
theorem legalByte_iff (k : Nat) (x : Byte) :
    LegalByte k x ↔
      (k = 0 → x = 0x71#8) ∧ (k = 1 → x = 0x6F#8) ∧ (k = 2 → x = 0x69#8) ∧ (k = 3 → x = 0x66#8) ∧
      (k = 12 → x = 3#8 ∨ x = 4#8) ∧ (k = 13 → x = 0#8 ∨ x = 1#8) := by
  match k with
  | 0 | 1 | 2 | 3 => simp [LegalByte, magic]
  | k + 4 => simp [LegalByte]

theorem headerProblemAt_of_end {b : List Byte} {k : Nat} (h : b.length ≤ k) : headerProblemAt b k = some .fTruncHeader := by
  simp only [headerProblemAt, List.getElem?_eq_none h]

theorem headerProblemAt_of_legal {b : List Byte} {k : Nat} {x : Byte} (hx : b[k]? = some x) (h : LegalByte k x) :
    headerProblemAt b k = none := by
  obtain ⟨hmagic, hch, hcs⟩ := h
  simp only [headerProblemAt, hx]
  rw [if_neg fun e => e.2 (hmagic e.1), if_neg fun e => e.2 (hch e.1), if_neg fun e => e.2 (hcs e.1)]

theorem headerProblemAt_of_illegal {b : List Byte} {k : Nat} {x : Byte} (hx : b[k]? = some x) (h : ¬ LegalByte k x) :
    headerProblemAt b k = some (byteCause k) := by
  by_cases h3 : k ≤ 3
  · have hmagic : x ≠ magic.getD k 0#8 := fun e => h ⟨fun _ => e, by omega, by omega⟩
    simp only [headerProblemAt, hx, byteCause, if_pos h3, if_pos (And.intro h3 hmagic)]
  by_cases h12 : k = 12
  · have hch : ¬ legalChannels x := fun e => h ⟨by omega, fun _ => e, by omega⟩
    simp only [headerProblemAt, hx, byteCause, if_neg h3, if_pos h12, if_neg (mt And.left h3), if_pos (And.intro h12 hch)]
  · have h13 : k = 13 ∧ ¬ legalColorspace x := by
      by_contra hc
      exact h ⟨by omega, by omega, fun e => by_contra fun hx => hc ⟨e, hx⟩⟩
    simp only [headerProblemAt, hx, byteCause, if_neg h3, if_neg h12, if_neg (mt And.left h3), if_neg (mt And.left h12),
      if_pos h13]

/-- Legal bytes up to an offset that the input reaches are no problem. -/
theorem headerProblemAt_take_of_legal {b : List Byte} {k : Nat} (hk : k ≤ headerLength) (hb : k ≤ b.length)
    (legal : ∀ j x, j < k → b[j]? = some x → LegalByte j x) :
    ∀ j < k, headerProblemAt (b.take headerLength) j = none := by
  intro j hj
  have hget : b[j]? = some b[j] := List.getElem?_eq_getElem (hj.trans_le hb)
  exact headerProblemAt_of_legal ((List.getElem?_take_of_lt (hj.trans_le hk)).trans hget) (legal j _ hj hget)

/-- The problem at the first offset that has one is the header's. -/
theorem headerProblem_of_first {b : List Byte} {k : Nat} {c : Cause} (hk : k < headerLength)
    (hc : headerProblemAt b k = some c) (before : ∀ j < k, headerProblemAt b j = none) : headerProblem b = some c := by
  have hfind : (List.range headerLength).findSome? (headerProblemAt b) = some c := by
    have hsplit : List.range headerLength = List.range k ++ (List.range (headerLength - k)).map (k + ·) := by
      rw [← List.range_add, Nat.add_sub_cancel' hk.le]
    obtain ⟨m, hm⟩ := Nat.exists_eq_add_one.mpr (Nat.sub_pos_of_lt hk)
    rw [hsplit, hm, List.range_succ_eq_map, List.findSome?_append,
      List.findSome?_eq_none_iff.mpr fun j hj => before j (List.mem_range.mp hj)]
    simp [hc]
  rw [headerProblem, hfind]

/-- Without a problem at any offset only the dimensions are left to check. -/
theorem headerProblem_of_none {b : List Byte} (h : ∀ k < headerLength, headerProblemAt b k = none) :
    headerProblem b =
      if negative (decodeHeader b).width ∨ negative (decodeHeader b).height then some .fBadDimension else none := by
  rw [headerProblem, List.findSome?_eq_none_iff.mpr fun k hk => h k (List.mem_range.mp hk)]

/-! ### A written header -/

/-- The four bytes that `be32` writes, read back (R120, R121). -/
theorem ofBe32_be32 (v : Word) :
    ofBe32 (v.extractLsb' 24 8) (v.extractLsb' 16 8) (v.extractLsb' 8 8) (v.extractLsb' 0 8) = v := by
  apply BitVec.eq_of_toNat_eq
  simp only [ofBe32, toNat_append_eq_add, extractByte_toNat]
  have := v.isLt
  omega

/-- Reading a written header gives its fields back (R121). -/
theorem decodeHeader_encodeHeader (w h : Word) (ch cs : Byte) : decodeHeader (encodeHeader w h ch cs) = ⟨w, h, ch, cs⟩ := by
  simp only [encodeHeader, be32, magic, decodeHeader, List.cons_append, List.nil_append, List.getD_cons_succ,
    List.getD_cons_zero, ofBe32_be32]

/-- A header written with legal fields has no problem. -/
theorem headerProblem_encodeHeader {w h : Word} {ch cs : Byte} (hw : 0 ≤ s32 w) (hh : 0 ≤ s32 h) (hch : legalChannels ch)
    (hcs : legalColorspace cs) : headerProblem (encodeHeader w h ch cs) = none := by
  have hlegal : ∀ k < headerLength, headerProblemAt (encodeHeader w h ch cs) k = none := by
    intro k hk
    interval_cases k <;> exact headerProblemAt_of_legal rfl (by simp [legalByte_iff, hch, hcs])
  rw [headerProblem_of_none hlegal, decodeHeader_encodeHeader, if_neg (by simp [negative, hw, hh])]

/-- A dimension that is not negative is its word's number. -/
theorem s32_eq_toNat {v : Word} (h : 0 ≤ s32 v) : s32 v = v.toNat := by
  simp only [s32, BitVec.toInt_eq_toNat_cond] at *
  split_ifs at * <;> omega

/-- REMAIN holds the exact product of two legal dimensions (R127). -/
theorem pixelCount_eq_mul {w h : Word} (hw : 0 ≤ s32 w) (hh : 0 ≤ s32 h) :
    ((pixelCount w h).toNat : Int) = s32 w * s32 h := by
  rw [(pixelCount_toNat (Int.not_lt.mpr hw) (Int.not_lt.mpr hh)).1, s32_eq_toNat hw, s32_eq_toNat hh, Nat.cast_mul]

theorem pixelCount_eq_zero_iff {w h : Word} (hw : 0 ≤ s32 w) (hh : 0 ≤ s32 h) :
    pixelCount w h = 0#64 ↔ s32 w * s32 h = 0 := by
  rw [← pixelCount_eq_mul hw hh, ← BitVec.toNat_inj, BitVec.toNat_ofNat, Nat.zero_mod, Nat.cast_eq_zero]

/-! ### The two steps -/

theorem headerStep_of_problem {s : State} {c : Cause} (hen : headerLength ≤ s.inByte.length ∨ s.inByteEnd = true)
    (hc : headerProblem (s.inByte.take headerLength) = some c) : headerStep s = raise c (dropBytes headerLength s) := by
  obtain ⟨hl, he, -⟩ | ⟨-, ⟨c', hc', e⟩ | ⟨hn, -⟩⟩ := headerStep_cases s
  · exact absurd (hen.resolve_right (Bool.eq_false_iff.mp he)) (Nat.not_le.mpr hl)
  · rw [e, Option.some.inj (hc'.symm.trans hc)]
  · simp [hn] at hc

theorem headerStep_of_no_problem {s : State} (hen : headerLength ≤ s.inByte.length ∨ s.inByteEnd = true)
    (hn : headerProblem (s.inByte.take headerLength) = none) :
    headerStep s = acceptHeader (decodeHeader (s.inByte.take headerLength)) (dropBytes headerLength s) := by
  obtain ⟨hl, he, -⟩ | ⟨-, ⟨c, hc, -⟩ | ⟨-, e⟩⟩ := headerStep_cases s
  · exact absurd (hen.resolve_right (Bool.eq_false_iff.mp he)) (Nat.not_le.mpr hl)
  · simp [hn] at hc
  · exact e

/-- A header step that ends in ERROR leaves the registers a header is written to (R222). -/
theorem headerStep_error_frame {s : State} (hp : s.phase = .header) (he : (headerStep s).phase = .error) :
    (headerStep s).width = s.width ∧ (headerStep s).height = s.height ∧ (headerStep s).channels = s.channels ∧
      (headerStep s).colorspace = s.colorspace ∧ (headerStep s).remain = s.remain := by
  obtain ⟨-, -, e⟩ | ⟨-, ⟨c, -, e⟩ | ⟨-, e⟩⟩ := headerStep_cases s
  · simp [e, hp] at he
  · rw [e]
    exact ⟨rfl, rfl, rfl, rfl, rfl⟩
  · rw [e, acceptHeader_eq] at he
    dsimp only at he
    split_ifs at he

/-! ### The same in the core's turn -/

/-- The core's turn, with the state after it written out. -/
theorem coreTurn_eq {s s1 : State} (h : CoreTurn s s1) :
    ∃ a, s1 = { s with agenda := a } ∧ step s = coreStep { s with agenda := a } := by
  obtain ⟨hstep, hs1⟩ := coreTurn_step h
  exact ⟨s1.agenda, hs1, by rw [← hs1, hstep]⟩

section
variable {s s1 : State} (h : CoreTurn s s1) (hp : s.phase = .header) (hm : s.mode = .decode)
include h hp hm

theorem step_header : step s = .next (headerStep s1) := by
  obtain ⟨a, rfl, hstep⟩ := coreTurn_eq h
  simp only [hstep, coreStep, hp, hm]

theorem step_header_of_problem {c : Cause} (hen : 14 ≤ s.inByte.length ∨ s.inByteEnd = true)
    (hc : headerProblem (s.inByte.take 14) = some c) :
    step s = .next { s1 with phase := .error, cause := c, inByte := s.inByte.drop 14 } := by
  rw [step_header h hp hm]
  obtain ⟨a, rfl, -⟩ := coreTurn_eq h
  exact congrArg _ (headerStep_of_problem (s := { s with agenda := a }) hen hc)

theorem step_header_of_no_problem (hen : 14 ≤ s.inByte.length ∨ s.inByteEnd = true)
    (hn : headerProblem (s.inByte.take 14) = none) :
    step s = .next (acceptHeader (decodeHeader (s.inByte.take 14)) { s1 with inByte := s.inByte.drop 14 }) := by
  rw [step_header h hp hm]
  obtain ⟨a, rfl, -⟩ := coreTurn_eq h
  exact congrArg _ (headerStep_of_no_problem (s := { s with agenda := a }) hen hn)

end

/-- An input for each rule: a wrong magic that ends early, whose wrong byte comes first; and a header step that raises for it
and one that accepts. -/
theorem headerRules_witness :
    headerProblem [0x71#8, 0x6F#8, 0x67#8] = some .fBadMagic ∧
    (∃ s : State, headerStep s = raise .fBadMagic (dropBytes headerLength s)) ∧
    (∃ s : State, headerStep s = acceptHeader ⟨1#32, 2#32, 4#8, 0#8⟩ (dropBytes headerLength s)) := by
  have hbad : headerProblem [0x71#8, 0x6F#8, 0x67#8] = some .fBadMagic :=
    headerProblem_of_first (k := 2) (by decide) rfl (by decide)
  have hok : headerProblem (encodeHeader 1#32 2#32 4#8 0#8) = none :=
    headerProblem_encodeHeader (by decide) (by decide) (.inr rfl) (.inl rfl)
  exact ⟨hbad, ⟨_, headerStep_of_problem (s := { State.reset with inByte := [0x71#8, 0x6F#8, 0x67#8], inByteEnd := true })
    (.inr rfl) hbad⟩, { State.reset with inByte := encodeHeader 1#32 2#32 4#8 0#8 },
    headerStep_of_no_problem (.inl (by decide)) hok⟩

/-- Settles O28: at the first offset with a problem it is the end of the input or the byte's own check; with none, the
dimensions decide. -/
theorem headerStepReportsFirstProblem : Obligations.HeaderStepReportsFirstProblem := by
  unfold Obligations.HeaderStepReportsFirstProblem
  intro s s1 ok hok h hp hm hen
  have legal : ∀ {k}, (∀ j x, j < k → s.inByte[j]? = some x → ok j x) →
      ∀ j x, j < k → s.inByte[j]? = some x → LegalByte j x :=
    fun hl j x hj hx => (legalByte_iff j x).mpr ((hok j x).mp (hl j x hj hx))
  refine ⟨fun k hk hlen before => ?_, fun k y hk hy hbad before => ?_, fun hlen all => ?_⟩
  · have hend : headerProblemAt (s.inByte.take 14) k = some .fTruncHeader :=
      headerProblemAt_of_end (by rw [List.length_take, hlen]; exact Nat.min_le_right _ _)
    rw [step_header_of_problem h hp hm hen
      (headerProblem_of_first hk hend (headerProblemAt_take_of_legal hk.le hlen.ge (legal before))),
      List.drop_eq_nil_of_le (hlen.trans_le hk.le)]
  · have hillegal : ¬ LegalByte k y := fun e => hbad ((hok k y).mpr ((legalByte_iff k y).mp e))
    have hbyte : headerProblemAt (s.inByte.take 14) k = some (byteCause k) :=
      headerProblemAt_of_illegal ((List.getElem?_take_of_lt hk).trans hy) hillegal
    have hkl : k < s.inByte.length := (List.getElem?_eq_some_iff.mp hy).1
    exact step_header_of_problem h hp hm hen
      (headerProblem_of_first hk hbyte (headerProblemAt_take_of_legal hk.le hkl.le (legal before)))
  · have hdim := headerProblem_of_none (headerProblemAt_take_of_legal le_rfl hlen (legal all))
    exact ⟨fun hneg => step_header_of_problem h hp hm hen (hdim.trans (if_pos hneg)),
      fun hw hh => step_header_of_no_problem h hp hm hen (hdim.trans (if_neg (by simp [negative, hw, hh])))⟩

/-- Settles O29: a legal header has no problem, so it is accepted, with the product of its dimensions exact; a rejected one
is not written. -/
theorem headerAcceptance : Obligations.HeaderAcceptance := by
  unfold Obligations.HeaderAcceptance
  refine ⟨fun s s1 w ht ch cs rest h hp hm hin hw hh hch hcs => ?_, fun s s1 t h hp hm hstep he => ?_⟩
  · have htake : s.inByte.take 14 = encodeHeader w ht ch cs := by rw [hin]; rfl
    have hdrop : s.inByte.drop 14 = rest := by rw [hin]; rfl
    have hlen : 14 ≤ s.inByte.length := by rw [hin]; exact Nat.le_add_left 14 rest.length
    have hstep := step_header_of_no_problem h hp hm (.inl hlen) (htake ▸ headerProblem_encodeHeader hw hh hch hcs)
    rw [htake, hdrop, decodeHeader_encodeHeader, acceptHeader_eq] at hstep
    refine ⟨_, hstep, rfl, rfl, rfl, rfl, rfl, pixelCount_eq_mul hw hh, ?_, rfl⟩
    have hend : s1.enforceEnd = s.enforceEnd := by rw [(coreTurn_step h).2]
    simp only [pixelCount_eq_zero_iff hw hh, hend]
  · obtain rfl : headerStep s1 = t := by simpa [step_header h hp hm] using hstep
    obtain ⟨a, rfl, -⟩ := coreTurn_eq h
    exact headerStep_error_frame hp he

/-- Settles O30: the three cases of the trailer step, of which the hold is excluded. -/
theorem endMarkerStep : Obligations.EndMarkerStep := by
  unfold Obligations.EndMarkerStep
  intro s s1 h hp hm hen
  obtain ⟨a, rfl, hstep⟩ := coreTurn_eq h
  have htrailer : step s = .next (trailerStep { s with agenda := a }) := by simp only [hstep, coreStep, hp, hm]
  rw [htrailer]
  obtain ⟨hl, he, -⟩ | ⟨-, hmark, e⟩ | ⟨-, hmark, e⟩ := trailerStep_cases { s with agenda := a }
  · exact absurd (hen.resolve_right (Bool.eq_false_iff.mp he)) (Nat.not_le.mpr hl)
  · exact ⟨fun _ => by rw [e]; rfl, fun hne => absurd hmark hne⟩
  · exact ⟨fun heq => absurd heq hmark, fun _ => by rw [e]; rfl⟩

end Sys2Proof.Machine
end

section
/-! PROOFS. The steps of an encode pass (spec/44_encoder.md R250, R251, R255 to R264): the header, the selection of a pixel's
block, and the two ways the pass ends. -/

namespace Sys2Proof.Machine

/-! ### The core's turn in an encode pass -/

section
variable {s s1 : State} (h : CoreTurn s s1) (hm : s.mode = .encode)
include h hm

theorem step_encHeader (hp : s.phase = .header) : step s = .next (encHeaderStep s1) := by
  obtain ⟨a, rfl, hstep⟩ := coreTurn_eq h
  simp only [hstep, coreStep, hp, hm]

theorem step_pixel (hp : s.phase = .blocks) : step s = pixelStep s1 := by
  obtain ⟨a, rfl, hstep⟩ := coreTurn_eq h
  simp only [hstep, coreStep, hp, hm]

theorem step_encTrailer (hp : s.phase = .trailer) : step s = .next (encTrailerStep s1) := by
  obtain ⟨a, rfl, hstep⟩ := coreTurn_eq h
  simp only [hstep, coreStep, hp, hm]

end

/-! ### The selection of a block -/

/-- A pixel in its cache slot is an INDEX block, whatever else would fit it (R256). -/
theorem selectBlock_of_hit {p : Pixel} {s : State} (hit : s.cache.get (pixelHash p) = p) (last : Pixel) (encRgb : Bool) :
    selectBlock (observe p s).1 p last encRgb = .index (pixelHash p).val := by
  rw [observe_hit, if_pos hit]
  rfl

/-- A pixel not in its slot whose alpha differs from LAST's is an RGBA block (R257). -/
theorem selectBlock_of_alpha_ne {p last : Pixel} {s : State} (miss : s.cache.get (pixelHash p) ≠ p) (ha : p.a ≠ last.a)
    (encRgb : Bool) :
    selectBlock (observe p s).1 p last encRgb = .rgba p.r.toNat p.g.toNat p.b.toNat p.a.toNat := by
  rw [observe_hit, if_neg miss]
  exact if_pos ha

/-- With LAST's alpha the deltas decide (R258). -/
theorem selectBlock_of_alpha_eq {p last : Pixel} {s : State} (miss : s.cache.get (pixelHash p) ≠ p) (ha : p.a = last.a)
    (encRgb : Bool) :
    selectBlock (observe p s).1 p last encRgb =
      selectByDeltas p (sdiff8 p.r last.r) (sdiff8 p.g last.g) (sdiff8 p.b last.b) encRgb := by
  rw [observe_hit, if_neg miss]
  exact if_neg (not_not.mpr ha)

section
variable {dr dg db : Int} (p : Pixel) (encRgb : Bool)

theorem selectByDeltas_of_fitsDiff (hd : fitsDiff dr dg db) : selectByDeltas p dr dg db encRgb = .diff dr dg db :=
  if_pos hd

theorem selectByDeltas_of_fitsLuma (hd : ¬ fitsDiff dr dg db) (hl : fitsLuma dr dg db) :
    selectByDeltas p dr dg db encRgb = .luma dg (dr - dg) (db - dg) :=
  (if_neg hd).trans (if_pos hl)

theorem selectByDeltas_fallback (hd : ¬ fitsDiff dr dg db) (hl : ¬ fitsLuma dr dg db) :
    selectByDeltas p dr dg db encRgb =
      if encRgb then .rgb p.r.toNat p.g.toNat p.b.toNat else .rgba p.r.toNat p.g.toNat p.b.toNat p.a.toNat :=
  (if_neg hd).trans (if_neg hl)

end

/-- The three ranges of a DIFF block as one chain of bounds (R259). -/
theorem fitsDiff_iff (dr dg db : Int) :
    fitsDiff dr dg db ↔ -2 ≤ dr ∧ dr ≤ 1 ∧ -2 ≤ dg ∧ dg ≤ 1 ∧ -2 ≤ db ∧ db ≤ 1 := by
  simp only [fitsDiff, inRange, and_assoc]

/-- The three ranges of a LUMA block as one chain of bounds (R260). -/
theorem fitsLuma_iff (dr dg db : Int) :
    fitsLuma dr dg db ↔ -32 ≤ dg ∧ dg ≤ 31 ∧ -8 ≤ dr - dg ∧ dr - dg ≤ 7 ∧ -8 ≤ db - dg ∧ db - dg ≤ 7 := by
  simp only [fitsLuma, inRange, and_assoc]

/-! ### A pixel that is not a repeat -/

/-- The byte of a pending run: the tag bits 3 and the length less its bias, or nothing without a run (R255, R264). -/
theorem flushBytes_eq {n : BitVec 6} (h : n.toNat < Config.maxRun) :
    flushBytes n = if n = 0#6 then [] else [BitVec.ofNat 8 (0xC0 + (n.toNat - 1))] := by
  by_cases hz : n = 0#6
  · rw [flushBytes, if_pos hz, if_pos hz]
  · have h1 : 1 ≤ n.toNat := Nat.pos_of_ne_zero fun e => hz (BitVec.eq_of_toNat_eq e)
    rw [flushBytes, if_neg hz, if_neg hz, encode_run_natCast h1 h.le]

/-- One taken pixel that is not LAST: it goes to its slot, and its block follows the pending run (R255, R256). -/
theorem afterPixel_of_ne {v : Word} {vs : List Word} {s : State} (hne : fromPacked v ≠ s.last) :
    afterPixel v vs s =
      { s with
        cache := s.cache.set (pixelHash (fromPacked v)) (fromPacked v)
        last := fromPacked v
        runCnt := 0#6
        outByte :=
          s.outByte ++
            (flushBytes s.runCnt ++ encode (selectBlock (observe (fromPacked v) s).1 (fromPacked v) s.last s.encRgb))
        inPix := vs
        remain := s.remain - 1#64
        phase := if s.remain.toNat = 1 then .trailer else .blocks } := by
  simp only [afterPixel, nextRunCnt, pixelBytes, hne, false_and, if_false]

/-- A pixel for each rule, after reset: the sentinel of the cache is an INDEX block, another alpha an RGBA block, a small step of
red a DIFF block, a step of all three channels a LUMA block and a large one the fallback; the last pixel of
an image ends BLOCKS; and a pending run of 61 is the byte FC. -/
theorem encoderRules_witness :
    selectBlock (observe ⟨0#8, 0#8, 0#8, 0#8⟩ State.reset).1 ⟨0#8, 0#8, 0#8, 0#8⟩ State.reset.last true = .index 0 ∧
    selectBlock (observe ⟨0#8, 0#8, 0#8, 1#8⟩ State.reset).1 ⟨0#8, 0#8, 0#8, 1#8⟩ State.reset.last true = .rgba 0 0 0 1 ∧
    selectBlock (observe ⟨1#8, 0#8, 0#8, 255#8⟩ State.reset).1 ⟨1#8, 0#8, 0#8, 255#8⟩ State.reset.last true = .diff 1 0 0 ∧
    selectByDeltas ⟨20#8, 20#8, 20#8, 255#8⟩ 20 20 20 true = .luma 20 0 0 ∧
    selectByDeltas ⟨99#8, 0#8, 0#8, 255#8⟩ 99 0 0 true = .rgb 99 0 0 ∧
    (afterPixel 0xFF010000#32 [] { State.reset with remain := 1#64 }).phase = .trailer ∧
    flushBytes 61#6 = [0xFC#8] := by
  refine ⟨selectBlock_of_hit (by decide) _ true, selectBlock_of_alpha_ne (by decide) (by decide) true,
    (selectBlock_of_alpha_eq (by decide) (by decide) true).trans (selectByDeltas_of_fitsDiff _ true (by decide)),
    selectByDeltas_of_fitsLuma _ true (by decide) (by decide), selectByDeltas_fallback _ true (by decide) (by decide), ?_,
    flushBytes_eq (by decide)⟩
  rw [afterPixel_of_ne (by decide)]
  rfl

/-! ### The obligations -/

/-- Settles O32: the two cases of the header step are the two answers of the configuration check. -/
theorem encoderHeaderStep : Obligations.EncoderHeaderStep := by
  unfold Obligations.EncoderHeaderStep
  intro s s1 h hp hm
  rw [step_encHeader h hm hp]
  obtain ⟨a, rfl, -⟩ := coreTurn_eq h
  obtain ⟨illegal, e⟩ | ⟨legal, e⟩ := encHeaderStep_cases { s with agenda := a } <;> rw [e]
  · exact ⟨fun _ => rfl, fun hw hh hch hcs => absurd ⟨Int.not_lt.mpr hw, Int.not_lt.mpr hh, hch, hcs⟩ illegal⟩
  · obtain ⟨hw, hh, hch, hcs⟩ := legal
    refine ⟨fun bad => ?_, fun hw hh _ _ => ⟨_, rfl, rfl, pixelCount_eq_mul hw hh, rfl, ?_, rfl⟩⟩
    · obtain hneg | hneg | ⟨h3, h4⟩ | ⟨h0, h1⟩ := bad
      · exact absurd hneg hw
      · exact absurd hneg hh
      · exact absurd hch (not_or.mpr ⟨h3, h4⟩)
      · exact absurd hcs (not_or.mpr ⟨h0, h1⟩)
    · simp only [pixelCount_eq_zero_iff hw hh]

/-- Settles O34: the step's state is `afterPixel` of a pixel that is not LAST, and its block is the first of the selection
that applies. -/
theorem nonRepeatPixelIsEncoded : Obligations.NonRepeatPixelIsEncoded := by
  unfold Obligations.NonRepeatPixelIsEncoded
  rintro s s1 v vs p dr dg db h hp hm hv rfl hne hr h0 rfl rfl rfl
  rw [step_pixel h hm hp]
  obtain ⟨a, rfl, -⟩ := coreTurn_eq h
  have hstep := (pixelStep_of_pixel (s := { s with agenda := a }) hp hv hr h0).trans (congrArg _ (afterPixel_of_ne hne))
  refine ⟨_, selectBlock (observe (fromPacked v) s).1 (fromPacked v) s.last s.encRgb, hstep, selectBlock_wf _ _ _ _, ?_,
    fun hit => selectBlock_of_hit hit _ _, fun miss ha => selectBlock_of_alpha_ne miss ha _, fun miss ha => ?_,
    rfl, fun k => cacheWrite_get k _ _ s, rfl, rfl, sub_one_toNat h0, rfl, rfl⟩
  · rw [← flushBytes_eq hr, List.append_assoc]
    rfl
  · rw [selectBlock_of_alpha_eq miss ha, ← fitsDiff_iff, ← fitsLuma_iff]
    exact ⟨selectByDeltas_of_fitsDiff _ _, fun hd => ⟨selectByDeltas_of_fitsLuma _ _ hd, selectByDeltas_fallback _ _ hd⟩⟩

/-- Settles O35: the trailer step within the run counter's range, its pending run written as one byte. -/
theorem encoderTrailerStep : Obligations.EncoderTrailerStep := by
  unfold Obligations.EncoderTrailerStep
  intro s s1 h hp hm hr
  rw [step_encTrailer h hm hp, ← flushBytes_eq hr]
  obtain ⟨a, rfl, -⟩ := coreTurn_eq h
  exact congrArg _ (encTrailerStep_eq (s := { s with agenda := a }) hr.le)

/-- Settles O36: of the pixel step's cases only the short input is left. -/
theorem shortPixelInputRaises : Obligations.ShortPixelInputRaises := by
  unfold Obligations.ShortPixelInputRaises
  intro s s1 h hp hm hv he hr h0
  rw [step_pixel h hm hp]
  obtain ⟨a, rfl, -⟩ := coreTurn_eq h
  obtain ⟨-, hend, -⟩ | ⟨hmax, -⟩ | ⟨-, -, -, e⟩ | ⟨hz, -⟩ | ⟨v, vs, hcons, -⟩ := pixelStep_cases { s with agenda := a }
  · exact absurd (he.symm.trans hend) (by decide)
  · exact absurd hmax (Nat.not_le.mpr hr)
  · exact e
  · exact absurd hz h0
  · exact absurd (hv.symm.trans hcons) (List.cons_ne_nil v vs).symm

end Sys2Proof.Machine
end

section
/-! PROOFS. What ends an error (spec/60_exceptions.md R304): PHASE and CAUSE under the core's turn outside a pass and under
the host's actions. -/

namespace Sys2Proof.Machine

/-! ### The core outside a pass -/

/-- In IDLE, DONE and ERROR no core step is enabled (R71). -/
theorem coreStep_of_not_busy {s : State} (h : s.phase.isBusy = false) : coreStep s = .next s := by
  cases hp : s.phase with
  | idle | done | error => simp only [coreStep, hp]
  | header | blocks | trailer => rw [hp] at h; contradiction

/-! ### PHASE and CAUSE under the host's actions -/

/-- A write of CTRL with neither START nor ABORT only latches the options, and not even those while BUSY. -/
theorem writeCtrl_of_no_command {v : Word} (hstart : v.getLsbD 0 = false) (habort : v.getLsbD 1 = false) (s : State) :
    writeCtrl v s = if s.phase.isBusy then s else writeOptions v s := by
  simp only [writeCtrl, hstart, habort, Bool.false_eq_true, if_false]

/-- `t` has the PHASE and the CAUSE of `s`. -/
def SamePhaseCause (s t : State) : Prop := t.phase = s.phase ∧ t.cause = s.cause

theorem SamePhaseCause.refl (s : State) : SamePhaseCause s s := ⟨rfl, rfl⟩

/-- An operation that acts only under a condition keeps both if it keeps them when it acts. -/
theorem samePhaseCause_ite {c : Prop} [Decidable c] {s t : State} (h : SamePhaseCause s t) :
    SamePhaseCause s (if c then s else t) := by
  split
  · exact .refl s
  · exact h

theorem writeCtrl_samePhaseCause {v : Word} (h : v.getLsbD 0 = false ∧ v.getLsbD 1 = false) (s : State) :
    SamePhaseCause s (writeCtrl v s) := by
  obtain ⟨hstart, habort⟩ := h
  rw [writeCtrl_of_no_command hstart habort]
  exact samePhaseCause_ite ⟨writeOptions_phase v s, writeOptions_cause v s⟩

/-- Of the registers only CTRL can change PHASE or CAUSE, and only by a command. -/
theorem csrWrite_samePhaseCause {k : Nat} {v : Word} (h : k = 0 → v.getLsbD 0 = false ∧ v.getLsbD 1 = false) (s : State) :
    SamePhaseCause s (csrWrite k v s) := by
  match k with
  | 0 => exact writeCtrl_samePhaseCause (h rfl) s
  | 2 | 3 | 4 => exact samePhaseCause_ite ⟨rfl, rfl⟩
  | 1 => rw [csrWrite_ignored (.inl rfl)]; exact .refl s
  | n + 5 => rw [csrWrite_ignored (.inr (Nat.le_add_left 5 n))]; exact .refl s

theorem takeOutput_samePhaseCause (p : OutPort) (s : State) : SamePhaseCause s (takeOutput p s) := by
  cases p with
  | outByte | outPix =>
    simp only [takeOutput]
    split
    · exact .refl s
    · exact ⟨giveHost_phase _ _, giveHost_cause _ _⟩

/-- Every host action but a CTRL write with START or ABORT keeps PHASE and CAUSE. -/
theorem hostStep_samePhaseCause {act : HostAction}
    (h : ∀ v, act = .csrWrite 0 v → v.getLsbD 0 = false ∧ v.getLsbD 1 = false) (s : State) :
    SamePhaseCause s (hostStep act s) := by
  cases act with
  | csrRead k => exact ⟨giveHost_phase _ s, giveHost_cause _ s⟩
  | csrWrite k v => exact csrWrite_samePhaseCause (fun hk => h v (by rw [hk])) s
  | supplyByte x => exact samePhaseCause_ite ⟨rfl, rfl⟩
  | supplyPix v => exact samePhaseCause_ite ⟨rfl, rfl⟩
  | endInput p => cases p <;> exact ⟨rfl, rfl⟩
  | take p => exact takeOutput_samePhaseCause p s

/-! ### The obligation -/

/-- Settles O42: the core holds in ERROR, and the host's actions that are left keep PHASE and CAUSE. -/
theorem errorIsHeld : Obligations.ErrorIsHeld := by
  unfold Obligations.ErrorIsHeld
  intro s t hp hstep hctrl hreset
  have hbusy : s.phase.isBusy = false := by rw [hp]; rfl
  suffices hsame : SamePhaseCause s t by
    obtain ⟨hphase, hcause⟩ := hsame
    exact ⟨hphase.trans hp, hcause⟩
  obtain ⟨-, e⟩ | ⟨later, -, e⟩ | ⟨act, later, ha, e⟩ | ⟨later, ha, -⟩ := step_cases s
  · rw [e, coreStep_of_not_busy hbusy] at hstep
    cases hstep
    exact .refl s
  · rw [e, coreStep_of_not_busy (s := { s with agenda := later }) hbusy] at hstep
    cases hstep
    exact ⟨rfl, rfl⟩
  · rw [e] at hstep
    cases hstep
    exact hostStep_samePhaseCause (fun v hv => hctrl v later (by rw [ha, hv])) { s with agenda := later }
  · exact absurd ha (hreset later)

end Sys2Proof.Machine
end

section
/-! PROOFS. The commands of CTRL, the configuration registers and reset (spec/70_reset_and_hazards.md R340, R343 to R346). -/

namespace Sys2Proof.Machine

/-! ### BUSY by the phase, in the host's turn -/

/-- Using a turn up leaves PHASE alone. -/
theorem hostTurn_phase {act : HostAction} {s s1 : State} (h : HostTurn act s s1) : s1.phase = s.phase := by
  rw [(hostTurn_step h).2]

/-- BUSY is 1 in HEADER, BLOCKS and TRAILER (R32). -/
theorem isBusy_of_pass {p : Phase} (h : p = .header ∨ p = .blocks ∨ p = .trailer) : p.isBusy = true := by
  obtain rfl | rfl | rfl := h <;> rfl

/-- BUSY is 0 in IDLE, DONE and ERROR (R32). -/
theorem isBusy_of_no_pass {p : Phase} (h : p = .idle ∨ p = .done ∨ p = .error) : p.isBusy = false := by
  obtain rfl | rfl | rfl := h <;> rfl

/-- The step of a host turn that writes a register. -/
theorem step_of_csrWrite {s s1 : State} {k : Nat} {v : Word} (h : HostTurn (.csrWrite k v) s s1) :
    step s = .next (csrWrite k v s1) :=
  (hostTurn_step h).1

/-! ### The commands of CTRL -/

theorem csrWrite_ctrl (v : Word) (s : State) : csrWrite 0 v s = writeCtrl v s := rfl

/-- ABORT acts in any phase, and START beside it does nothing (R344, R345). -/
theorem writeCtrl_of_abort {v : Word} (habort : v.getLsbD 1 = true) (s : State) : writeCtrl v s = abortPass s :=
  if_pos habort

/-- While BUSY a write without ABORT does nothing (R31). -/
theorem writeCtrl_of_busy {v : Word} {s : State} (habort : v.getLsbD 1 = false) (hbusy : s.phase.isBusy = true) :
    writeCtrl v s = s := by
  simp only [writeCtrl, habort, hbusy, Bool.false_eq_true, if_false, if_true]

/-- When not BUSY, START without ABORT begins a pass with the options it latches (R343). -/
theorem writeCtrl_of_start {v : Word} {s : State} (hstart : v.getLsbD 0 = true) (habort : v.getLsbD 1 = false)
    (hfree : s.phase.isBusy = false) : writeCtrl v s = startPass (writeOptions v s) := by
  simp only [writeCtrl, hstart, habort, hfree, Bool.false_eq_true, if_false, if_true]

/-! ### The configuration registers -/

/-- While BUSY a write of WIDTH, HEIGHT or FORMAT does nothing (R346). -/
theorem csrWrite_config_of_busy {k : Nat} {s : State} (hk : k = 2 ∨ k = 3 ∨ k = 4) (hbusy : s.phase.isBusy = true)
    (v : Word) : csrWrite k v s = s := by
  obtain rfl | rfl | rfl := hk <;> exact if_pos hbusy

theorem csrWrite_width {s : State} (hfree : s.phase.isBusy = false) (v : Word) :
    csrWrite 2 v s = { s with width := v } :=
  if_neg (ne_true_of_eq_false hfree)

theorem csrWrite_height {s : State} (hfree : s.phase.isBusy = false) (v : Word) :
    csrWrite 3 v s = { s with height := v } :=
  if_neg (ne_true_of_eq_false hfree)

/-- The byte of a word that starts at bit `k`, as a truncated quotient. -/
theorem extractByte_eq_ofNat (v : Word) (k : Nat) : v.extractLsb' k 8 = BitVec.ofNat 8 (v.toNat / 2 ^ k) :=
  BitVec.eq_of_toNat_eq (by rw [extractByte_toNat, BitVec.toNat_ofNat])

/-- FORMAT takes the two low bytes of the word written and drops the others (R35). -/
theorem csrWrite_format {s : State} (hfree : s.phase.isBusy = false) (v : Word) :
    csrWrite 4 v s =
      { s with channels := BitVec.ofNat 8 v.toNat, colorspace := BitVec.ofNat 8 (v.toNat / 256) } := by
  have hlow : v.extractLsb' 0 8 = BitVec.ofNat 8 v.toNat := by rw [extractByte_eq_ofNat, Nat.pow_zero, Nat.div_one]
  have hhigh : v.extractLsb' 8 8 = BitVec.ofNat 8 (v.toNat / 256) := extractByte_eq_ofNat v 8
  rw [← hlow, ← hhigh]
  exact if_neg (ne_true_of_eq_false hfree)

/-- FORMAT as read: COLORSPACE counts from bit 8, CHANNELS from bit 0 (R35). -/
theorem readFormat_toNat (s : State) : (readFormat s).toNat = s.colorspace.toNat * 256 + s.channels.toNat := by
  simp only [readFormat, toNat_append_eq_add, BitVec.toNat_ofNat]
  omega

/-! ### Reset -/

/-- The step of a reset turn. -/
theorem step_of_reset {s : State} {later : List Turn} (h : s.agenda = .reset :: later) :
    step s = .next (resetCore { s with agenda := later }) := by
  rw [step, takeTurn, h]

/-! ### The obligations -/

/-- Settles O48: what each of the three registers reads, and its write by BUSY. -/
theorem configurationRegisters : Obligations.ConfigurationRegisters := by
  unfold Obligations.ConfigurationRegisters
  refine ⟨fun s => ⟨rfl, rfl, readFormat_toNat s⟩, fun s s1 k v h hk => ?_⟩
  rw [step_of_csrWrite h, ← hostTurn_phase h]
  refine ⟨fun hpass => by rw [csrWrite_config_of_busy hk (isBusy_of_pass hpass)], fun hno => ?_⟩
  have hfree : s1.phase.isBusy = false := isBusy_of_no_pass hno
  refine ⟨?_, ?_, ?_⟩ <;> rintro rfl
  · rw [csrWrite_width hfree]
  · rw [csrWrite_height hfree]
  · rw [csrWrite_format hfree]

/-- Settles O44: the write without ABORT begins a pass or does nothing, by BUSY. -/
theorem startCommand : Obligations.StartCommand := by
  unfold Obligations.StartCommand
  intro s s1 v h hstart habort
  rw [step_of_csrWrite h, ← hostTurn_phase h, csrWrite_ctrl]
  constructor
  · intro hno
    rw [writeCtrl_of_start hstart habort (isBusy_of_no_pass hno)]
    rfl
  · intro hpass
    rw [writeCtrl_of_busy habort (isBusy_of_pass hpass)]

/-- Settles O45: ABORT is taken before BUSY and START are looked at. -/
theorem abortCommand : Obligations.AbortCommand := by
  unfold Obligations.AbortCommand
  intro s s1 v h habort
  rw [step_of_csrWrite h, csrWrite_ctrl, writeCtrl_of_abort habort]
  rfl

/-- Settles O51: a reset turn ends in the reset state but for the two fields that are the model's own. -/
theorem resetInAnyPhase : Obligations.ResetInAnyPhase := by
  unfold Obligations.ResetInAnyPhase
  intro s later h
  exact ⟨_, step_of_reset h, rfl⟩

end Sys2Proof.Machine
end

section
/-! PROOFS. Block decode as arithmetic, and block encode after block decode (spec/30_encoding.md R93 to R99, 42_block_codec.md
R171, R174). -/

namespace Sys2Proof

/-! ### Tag bytes -/

theorem variantOf_eq_index_iff (t : Byte) : variantOf t = .index ↔ t.toNat ≤ 0x3F := by
  rw [variantOf_by_range]
  split_ifs <;> simp <;> omega

theorem variantOf_eq_diff_iff (t : Byte) : variantOf t = .diff ↔ 0x40 ≤ t.toNat ∧ t.toNat ≤ 0x7F := by
  rw [variantOf_by_range]
  split_ifs <;> simp <;> omega

theorem variantOf_eq_luma_iff (t : Byte) : variantOf t = .luma ↔ 0x80 ≤ t.toNat ∧ t.toNat ≤ 0xBF := by
  rw [variantOf_by_range]
  split_ifs <;> simp <;> omega

theorem variantOf_eq_run_iff (t : Byte) : variantOf t = .run ↔ 0xC0 ≤ t.toNat ∧ t.toNat ≤ 0xFD := by
  have := t.isLt
  rw [variantOf_by_range]
  split_ifs <;> simp <;> omega

theorem variantOf_eq_rgb_iff (t : Byte) : variantOf t = .rgb ↔ t.toNat = 0xFE := by
  rw [variantOf_by_range]
  split_ifs <;> simp <;> omega

theorem variantOf_eq_rgba_iff (t : Byte) : variantOf t = .rgba ↔ t.toNat = 0xFF := by
  rw [variantOf_by_range]
  split_ifs <;> simp <;> omega

/-- The number of bytes of a block of each variant, tag byte included (R93, R94). -/
def Variant.byteCount : Variant → Nat
  | .rgb => 4
  | .rgba => 5
  | .luma => 2
  | .index | .diff | .run => 1

/-- The length of a block is a function of the variant its tag byte selects (R97). -/
theorem blockLength_eq_byteCount (t : Byte) : blockLength t = (variantOf t).byteCount := by
  rw [blockLength_by_range, variantOf_by_range]
  split_ifs <;> first | rfl | omega

/-! ### The fields of a block -/

section
variable {t : Byte} (x : List Byte)

theorem decodeBlock_of_rgb (h : variantOf t = .rgb) :
    decodeBlock t x = .rgb (extraByte x 0).toNat (extraByte x 1).toNat (extraByte x 2).toNat := by
  simp only [decodeBlock, h]

theorem decodeBlock_of_rgba (h : variantOf t = .rgba) :
    decodeBlock t x =
      .rgba (extraByte x 0).toNat (extraByte x 1).toNat (extraByte x 2).toNat (extraByte x 3).toNat := by
  simp only [decodeBlock, h]

theorem decodeBlock_of_index (h : variantOf t = .index) : decodeBlock t x = .index t.toNat := by
  have hrange := (variantOf_eq_index_iff t).mp h
  simp only [decodeBlock, h, bitField, Instr.index.injEq]
  omega

theorem decodeBlock_of_diff (h : variantOf t = .diff) :
    decodeBlock t x =
      .diff ((t.toNat / 16 % 4 : Nat) - 2 : Int) ((t.toNat / 4 % 4 : Nat) - 2 : Int) ((t.toNat % 4 : Nat) - 2 : Int) := by
  simp only [decodeBlock, h, bitField, Nat.reducePow, Nat.div_one]

theorem decodeBlock_of_luma (h : variantOf t = .luma) :
    decodeBlock t x =
      .luma ((t.toNat % 64 : Nat) - 32 : Int) (((extraByte x 0).toNat / 16 : Nat) - 8 : Int)
        (((extraByte x 0).toNat % 16 : Nat) - 8 : Int) := by
  have := (extraByte x 0).isLt
  simp only [decodeBlock, h, bitField, Instr.luma.injEq]
  omega

theorem decodeBlock_of_run (h : variantOf t = .run) : decodeBlock t x = .run ((t.toNat % 64 : Nat) + 1 : Int) := by
  simp only [decodeBlock, h, bitField, Nat.reducePow, Nat.div_one]

end

/-! ### Block encode after block decode -/

/-- Encoding the block read from a tag byte and the extra bytes its length asks for gives these bytes back (R174). -/
theorem encode_decodeBlock {t : Byte} {x : List Byte} (h : x.length + 1 = blockLength t) :
    encode (decodeBlock t x) = t :: x := by
  rw [blockLength_eq_byteCount] at h
  cases hv : variantOf t with
  | rgb =>
    have htag : t = 0xFE#8 := (byte_eq_iff _ _).mpr ((variantOf_eq_rgb_iff t).mp hv)
    rw [hv] at h
    obtain ⟨r, g, b, rfl⟩ := List.length_eq_three.mp (Nat.succ.inj h)
    rw [decodeBlock_of_rgb _ hv, htag]
    simp [encode, extraByte]
  | rgba =>
    have htag : t = 0xFF#8 := (byte_eq_iff _ _).mpr ((variantOf_eq_rgba_iff t).mp hv)
    rw [hv] at h
    obtain ⟨r, g, b, a, rfl⟩ := List.length_eq_four.mp (Nat.succ.inj h)
    rw [decodeBlock_of_rgba _ hv, htag]
    simp [encode, extraByte]
  | index =>
    have hrange := (variantOf_eq_index_iff t).mp hv
    rw [hv] at h
    obtain rfl := List.length_eq_zero_iff.mp (Nat.succ.inj h)
    rw [decodeBlock_of_index _ hv, encode]
    congr 1
    rw [byte_eq_iff, packFields_prefix]
    omega
  | diff =>
    have hrange := (variantOf_eq_diff_iff t).mp hv
    rw [hv] at h
    obtain rfl := List.length_eq_zero_iff.mp (Nat.succ.inj h)
    rw [decodeBlock_of_diff _ hv, encode]
    congr 1
    rw [byte_eq_iff, packFields_pairs]
    omega
  | luma =>
    have hrange := (variantOf_eq_luma_iff t).mp hv
    rw [hv] at h
    obtain ⟨y, rfl⟩ := List.length_eq_one_iff.mp (Nat.succ.inj h)
    have hy : extraByte [y] 0 = y := rfl
    have := y.isLt
    rw [decodeBlock_of_luma _ hv, encode, hy]
    congr 2
    · rw [byte_eq_iff, packFields_prefix]
      omega
    · rw [byte_eq_iff, packFields_nibbles]
      omega
  | run =>
    have hrange := (variantOf_eq_run_iff t).mp hv
    rw [hv] at h
    obtain rfl := List.length_eq_zero_iff.mp (Nat.succ.inj h)
    rw [decodeBlock_of_run _ hv, encode]
    congr 1
    rw [byte_eq_iff, packFields_prefix]
    omega

/-- A block the decoder reads is the bytes it is read from. -/
theorem eq_encode_of_decode {bs rest : List Byte} {i : Instr} (h : decode bs = .block i rest) : bs = encode i ++ rest := by
  obtain ⟨t, x, rfl, hl, rfl⟩ := decode_eq_block h
  rw [encode_decodeBlock hl]

/-! ### The bytes of a block, as numbers -/

/-- The layouts of R93 and R94 with the biases of R95, byte by byte. -/
def layoutNumbers : Instr → List Int
  | .rgb r g b => [0xFE, r, g, b]
  | .rgba r g b a => [0xFF, r, g, b, a]
  | .index k => [k]
  | .diff dr dg db => [0x40 + (dr + 2) * 16 + (dg + 2) * 4 + (db + 2)]
  | .luma dg drdg dbdg => [0x80 + (dg + 32), (drdg + 8) * 16 + (dbdg + 8)]
  | .run n => [0xC0 + (n - 1)]

/-- The number of every byte of a valid block. -/
theorem encode_toNat {i : Instr} (h : i.wellFormed = true) :
    (encode i).map (fun b => (b.toNat : Int)) = layoutNumbers i := by
  cases i with
  | rgb r g b =>
    obtain ⟨hr, hg, hb⟩ := (wellFormed_rgb r g b).mp h
    simp only [encode, layoutNumbers, List.map_cons, List.map_nil, toNat_ofInt_channel hr, toNat_ofInt_channel hg,
      toNat_ofInt_channel hb, tagRgb_toNat, Nat.cast_ofNat]
  | rgba r g b a =>
    obtain ⟨hr, hg, hb, ha⟩ := (wellFormed_rgba r g b a).mp h
    simp only [encode, layoutNumbers, List.map_cons, List.map_nil, toNat_ofInt_channel hr, toNat_ofInt_channel hg,
      toNat_ofInt_channel hb, toNat_ofInt_channel ha, tagRgba_toNat, Nat.cast_ofNat]
  | index k =>
    have hk := (wellFormed_index k).mp h
    simp only [encode, layoutNumbers, List.map_cons, List.map_nil, packFields_prefix, List.cons.injEq, and_true]
    omega
  | diff dr dg db =>
    simp only [encode, layoutNumbers, List.map_cons, List.map_nil, Machine.diffByte_toNat h]
  | luma dg drdg dbdg =>
    obtain ⟨hg, hr, hb⟩ := (wellFormed_luma dg drdg dbdg).mp h
    simp only [encode, layoutNumbers, List.map_cons, List.map_nil, Machine.lumaTag_toNat hg, Machine.lumaExtra_toNat hr hb]
  | run n =>
    have hn := (wellFormed_run n).mp h
    simp only [encode, layoutNumbers, List.map_cons, List.map_nil, packFields_prefix, List.cons.injEq, and_true]
    omega

/-! ### The obligations -/

/-- Settles O1: decode after encode for every valid block, encode after decode by the variant of the tag byte, and the
validity of what the encoder builds. -/
theorem blockCodecIsABijection : Obligations.BlockCodecIsABijection := by
  unfold Obligations.BlockCodecIsABijection
  refine ⟨fun i h => ⟨encode i, encodeBlock_of_wf h, decode_encode h, ?_⟩, fun t x hx => ?_, fun hit p last encRgb => ?_,
    fun n h0 h62 => ?_⟩
  · rw [encode_toNat h]
    cases i <;> rfl
  · rw [encodeBlock_of_wf (decodeBlock_wf t x), encode_decodeBlock hx]
  · rw [encodeBlock_of_wf (Machine.selectBlock_wf hit p last encRgb), Option.isSome_some]
  · have h1 : 1 ≤ n.toNat := Nat.pos_of_ne_zero fun e => h0 (BitVec.eq_of_toNat_eq e)
    rw [encodeBlock_of_wf ((wellFormed_run _).mpr ⟨by omega, by omega⟩), Option.isSome_some]

/-- Settles O2: the fields under each variant, and that a read block is valid. -/
theorem blockFieldsFromBytes : Obligations.BlockFieldsFromBytes := by
  unfold Obligations.BlockFieldsFromBytes
  refine ⟨fun r g b => rfl, fun r g b a => rfl, fun t h => ?_, fun t h1 h2 => ?_, fun t x h1 h2 => ?_, fun t h1 h2 => ?_,
    fun t x _ => decodeBlock_wf t x⟩
  · exact decodeBlock_of_index [] ((variantOf_eq_index_iff t).mpr (by omega))
  · exact decodeBlock_of_diff [] ((variantOf_eq_diff_iff t).mpr (by omega))
  · exact decodeBlock_of_luma [x] ((variantOf_eq_luma_iff t).mpr (by omega))
  · exact decodeBlock_of_run [] ((variantOf_eq_run_iff t).mpr (by omega))

/-- Settles O3: the range of each variant, and the length by the variant. -/
theorem tagByteMap : Obligations.TagByteMap := by
  unfold Obligations.TagByteMap
  intro t
  refine ⟨variantOf_eq_index_iff t, variantOf_eq_diff_iff t, variantOf_eq_luma_iff t, variantOf_eq_run_iff t,
    variantOf_eq_rgb_iff t, variantOf_eq_rgba_iff t, ?_⟩
  rw [blockLength_eq_byteCount]
  cases variantOf t <;> rfl

/-- Settles O5: each word is the encoding of its block, and the decoder reads an encoding back. -/
theorem specWordsDecode : Obligations.SpecWordsDecode := by
  unfold Obligations.SpecWordsDecode
  exact ⟨(blockCodec_of_wf (i := .rgb 10 20 30) (bs := [0xFE#8, 0x0A#8, 0x14#8, 0x1E#8]) rfl (by decide)).2 [],
    (blockCodec_of_wf (i := .rgba 1 2 3 4) (bs := [0xFF#8, 1#8, 2#8, 3#8, 4#8]) rfl (by decide)).2 [9#8],
    (blockCodec_of_wf (i := .index 53) (bs := [0x35#8]) rfl (by decide)).2 [],
    (blockCodec_of_wf (i := .diff (-1) 1 0) (bs := [0x5E#8]) rfl (by decide)).2 [],
    (blockCodec_of_wf (i := .luma (-3) 2 (-8)) (bs := [0x9D#8, 0xA0#8]) rfl (by decide)).2 [],
    (blockCodec_of_wf (i := .run 62) (bs := [0xFD#8]) rfl (by decide)).2 [0xC0#8]⟩

/-- Settles O6: a block that is read is its own bytes and the rest; a rejection is an input too short for its tag byte. -/
theorem decoderReadsAnyBytes : Obligations.DecoderReadsAnyBytes := by
  unfold Obligations.DecoderReadsAnyBytes
  intro bs
  cases hd : decode bs with
  | block i rest => exact .inl ⟨i, rest, rfl, decode_wf hd, eq_encode_of_decode hd⟩
  | rejected why =>
    refine .inr ⟨why, rfl, ?_⟩
    cases bs with
    | nil => exact .inl rfl
    | cons t x =>
      refine .inr ⟨t, x, rfl, Nat.lt_of_not_le fun hle => ?_⟩
      simp [decode_of_le hle] at hd

end Sys2Proof
end

section
/-! PROOFS. The invariant (spec/10_state.md R22, R24, R32, 41_prediction.md R155): it holds at reset, every turn keeps it, and
from it every turn answers a next state. -/

namespace Sys2Proof.Machine

/-! ### The state after a block -/

section
variable (s : State) (ps : List Pixel) (c : Vector Pixel Config.cacheSlots) (l : Pixel)

@[simp] theorem afterBlock_cache : (afterBlock s ps c l).cache = c := rfl
@[simp] theorem afterBlock_last : (afterBlock s ps c l).last = l := rfl
@[simp] theorem afterBlock_runCnt : (afterBlock s ps c l).runCnt = s.runCnt := rfl
@[simp] theorem afterBlock_cause : (afterBlock s ps c l).cause = s.cause := rfl
@[simp] theorem afterBlock_mode : (afterBlock s ps c l).mode = s.mode := rfl
@[simp] theorem afterBlock_enforceEnd : (afterBlock s ps c l).enforceEnd = s.enforceEnd := rfl
@[simp] theorem afterBlock_width : (afterBlock s ps c l).width = s.width := rfl
@[simp] theorem afterBlock_height : (afterBlock s ps c l).height = s.height := rfl
@[simp] theorem afterBlock_channels : (afterBlock s ps c l).channels = s.channels := rfl
@[simp] theorem afterBlock_colorspace : (afterBlock s ps c l).colorspace = s.colorspace := rfl
@[simp] theorem afterBlock_inByte : (afterBlock s ps c l).inByte = s.inByte := rfl
@[simp] theorem afterBlock_inByteEnd : (afterBlock s ps c l).inByteEnd = s.inByteEnd := rfl
@[simp] theorem afterBlock_outPix : (afterBlock s ps c l).outPix = s.outPix ++ ps.map toPacked := rfl
@[simp] theorem afterBlock_agenda : (afterBlock s ps c l).agenda = s.agenda := rfl

theorem afterBlock_phase :
    (afterBlock s ps c l).phase =
      if s.remain.toNat = ps.length then (if s.enforceEnd then .trailer else .done) else s.phase := rfl

variable {s ps}

/-- REMAIN is 0 after a block exactly when the block made all the pixels that were left. -/
theorem afterBlock_remain_eq_zero (h : ps.length ≤ s.remain.toNat) :
    (afterBlock s ps c l).remain = 0#64 ↔ s.remain.toNat = ps.length := by
  rw [← BitVec.toNat_inj, afterBlock_remain c l h, BitVec.toNat_ofNat]
  omega

end

/-! ### The invariant under the operations of a core step -/

/-- The invariant says nothing of the pending bytes. -/
theorem SoundState.setBytes {s : State} (h : SoundState s) (bs : List Byte) : SoundState { s with inByte := bs } :=
  ⟨h.cache, h.last, h.run, h.remain, h.cause, h.header⟩

/-- Nor of the turns to come. -/
theorem SoundState.setAgenda {s : State} (h : SoundState s) (later : List Turn) : SoundState { s with agenda := later } :=
  ⟨h.cache, h.last, h.run, h.remain, h.cause, h.header⟩

/-- A slot written with a pixel that hashes to it keeps the cache sound (R22). -/
theorem CacheSound.write {s : State} (h : CacheSound s) (p : Pixel) : CacheSound (cacheWrite (pixelHash p) p s) := by
  intro k
  rw [cacheWrite_get]
  split
  · next hk => exact .inr (hk ▸ rfl)
  · exact h k

/-- A pixel in its slot and in LAST makes LAST sound (R155). -/
theorem lastSound_of_written (p : Pixel) (s : State) : LastSound (setLast p (cacheWrite (pixelHash p) p s)) :=
  .inr ((cacheWrite_get _ _ p s).trans (if_pos rfl))

/-- An error with a cause keeps the invariant. -/
theorem SoundState.raised {s : State} (h : SoundState s) {c : Cause} (hc : c ≠ .noCause) : SoundState (raise c s) where
  cache := h.cache
  last := h.last
  run := ⟨h.run.1, by simp [Phase.isBusy]⟩
  remain := ⟨by simp, by simp, h.remain.2.2⟩
  cause := by simp [CauseSound, hc]
  header := by simp [HeaderSound]

/-- Outside ERROR there is no cause. -/
theorem SoundState.noCause {s : State} (h : SoundState s) (hp : s.phase ≠ .error) : s.cause = .noCause := h.cause.mpr hp

/-- In a decode pass no run is ever pending (R24). -/
theorem SoundState.runCnt_of_decode {s : State} (h : SoundState s) (hb : s.phase.isBusy = true) (hm : s.mode = .decode) :
    s.runCnt = 0#6 :=
  h.run.2 (.inr (.inr ⟨hb, hm⟩))

/-- A state outside ERROR and IDLE with a sound prediction state, no pending run, no cause and a legal header meets the
invariant when its REMAIN is as its phase asks. -/
theorem soundState_of_noRun {s : State} (hc : CacheSound s) (hl : LastSound s) (hr : s.runCnt = 0#6) (he : s.cause = .noCause)
    (hh : legalConfig s) (hb : s.remain.toNat ≤ (2 ^ 31 - 1) ^ 2)
    (hp : s.phase = .blocks ∧ s.remain ≠ 0#64 ∨ (s.phase = .trailer ∨ s.phase = .done) ∧ s.remain = 0#64) :
    SoundState s where
  cache := hc
  last := hl
  run := ⟨by rw [hr]; decide, fun _ => hr⟩
  remain := by obtain ⟨hp, h0⟩ | ⟨hp | hp, h0⟩ := hp <;> exact ⟨by simp [hp, h0], by simp [hp, h0], hb⟩
  cause := by obtain ⟨hp, -⟩ | ⟨hp | hp, -⟩ := hp <;> simp [CauseSound, hp, he]
  header _ := hh

/-- The phase in which a decode pass goes on when its REMAIN is set: BLOCKS, or at 0 one of the two ends. -/
theorem streamPhase_cases (r : BitVec 64) (e : Bool) {ph : Phase}
    (h : ph = if r = 0#64 then (if e then .trailer else .done) else .blocks) :
    ph = .blocks ∧ r ≠ 0#64 ∨ (ph = .trailer ∨ ph = .done) ∧ r = 0#64 := by
  subst h
  split
  · next h0 => exact .inr ⟨endPhase_cases e, h0⟩
  · next h0 => exact .inl ⟨rfl, h0⟩

/-- Accepting a legal header keeps the invariant: REMAIN is its product, and BLOCKS is entered only when that is positive. -/
theorem SoundState.accepted {s : State} (h : SoundState s) (hp : s.phase = .header) {f : HeaderFields}
    (hf : ¬ negative f.width ∧ ¬ negative f.height ∧ legalChannels f.channels ∧ legalColorspace f.colorspace) :
    SoundState (acceptHeader f s) := by
  obtain ⟨hcount, hbound⟩ := pixelCount_toNat hf.1 hf.2.1
  rw [acceptHeader_eq]
  exact soundState_of_noRun h.cache h.last (h.run.2 (.inl hp)) (h.noCause (by simp [hp])) hf (hcount ▸ hbound)
    (streamPhase_cases _ s.enforceEnd rfl)

/-- A block that makes no more than REMAIN pixels keeps the invariant, if it leaves the cache and LAST sound. -/
theorem SoundState.blockDone {s : State} (h : SoundState s) (hp : s.phase = .blocks) (hm : s.mode = .decode)
    {ps : List Pixel} (hle : ps.length ≤ s.remain.toNat) {c : Vector Pixel Config.cacheSlots} {l : Pixel}
    (hc : CacheSound { s with cache := c }) (hl : LastSound { s with cache := c, last := l }) :
    SoundState (afterBlock s ps c l) := by
  have hbound : (afterBlock s ps c l).remain.toNat ≤ (2 ^ 31 - 1) ^ 2 := by
    rw [afterBlock_remain c l hle]
    exact (Nat.sub_le _ _).trans h.remain.2.2
  refine soundState_of_noRun hc hl (h.runCnt_of_decode (by rw [hp]; rfl) hm) (h.noCause (by simp [hp]))
    (h.header (.inl hp)) hbound (streamPhase_cases _ s.enforceEnd ?_)
  simp only [afterBlock_remain_eq_zero c l hle, afterBlock_phase, hp]

/-- The run counter after a repeat: one more, or 0 at the 62nd (R254). -/
theorem repeatCnt_toNat {n : BitVec 6} (h : n.toNat < Config.maxRun) :
    (if n = 61#6 then 0#6 else n + 1#6).toNat = if n.toNat = 61 then 0 else n.toNat + 1 := by
  have hiff : n = 61#6 ↔ n.toNat = 61 := BitVec.toNat_inj.symm
  simp only [hiff, Config.maxRun] at *
  split_ifs
  · rfl
  · rw [BitVec.toNat_add, BitVec.toNat_ofNat]
    omega

theorem nextRunCnt_of_eq {p : Pixel} {s : State} (h : p = s.last) :
    nextRunCnt p s = if s.runCnt = 61#6 then 0#6 else s.runCnt + 1#6 := by
  simp only [nextRunCnt, h, true_and, ne_eq, ite_not]

theorem nextRunCnt_of_ne {p : Pixel} {s : State} (h : p ≠ s.last) : nextRunCnt p s = 0#6 := by
  simp only [nextRunCnt, h, false_and, if_false]

/-- The last pixel leaves REMAIN at 0. -/
theorem sub_one_eq_zero_iff {x : BitVec 64} (h : x ≠ 0#64) : x - 1#64 = 0#64 ↔ x.toNat = 1 := by
  have := sub_one_toNat h
  rw [← BitVec.toNat_inj, BitVec.toNat_ofNat]
  omega

/-- The run counter after a pixel is below 62 again: the 62nd repeat clears it (R24, R254). -/
theorem nextRunCnt_lt {s : State} (h : s.runCnt.toNat < Config.maxRun) (p : Pixel) :
    (nextRunCnt p s).toNat < Config.maxRun := by
  by_cases hrep : p = s.last
  · rw [nextRunCnt_of_eq hrep, repeatCnt_toNat h]
    simp only [Config.maxRun] at *
    split_ifs <;> omega
  · rw [nextRunCnt_of_ne hrep]
    decide

/-- A pixel taken in an encode pass keeps the invariant: a repeat leaves cache and LAST, any other pixel goes to both. -/
theorem SoundState.pixelTaken {s : State} (h : SoundState s) (hp : s.phase = .blocks) (hm : s.mode = .encode)
    (h0 : s.remain ≠ 0#64) (v : Word) (vs : List Word) : SoundState (afterPixel v vs s) := by
  have hremain := sub_one_toNat h0
  have hphase : (afterPixel v vs s).phase = .trailer ∧ s.remain - 1#64 = 0#64 ∨
      (afterPixel v vs s).phase = .blocks ∧ s.remain - 1#64 ≠ 0#64 := by
    simp only [afterPixel, sub_one_eq_zero_iff h0, ne_eq]
    split <;> simp_all
  have hbound : (s.remain - 1#64).toNat ≤ (2 ^ 31 - 1) ^ 2 := (Nat.le_of_succ_le hremain.le).trans h.remain.2.2
  have hpred : CacheSound (afterPixel v vs s) ∧ LastSound (afterPixel v vs s) := by
    by_cases hrep : fromPacked v = s.last
    · simp only [CacheSound, LastSound, afterPixel, hrep]
      exact ⟨h.cache, h.last⟩
    · rw [afterPixel_of_ne hrep]
      exact ⟨h.cache.write _, lastSound_of_written _ s⟩
  have hcause : s.cause = .noCause := h.noCause (by simp [hp])
  refine ⟨hpred.1, hpred.2, ⟨nextRunCnt_lt h.run.1 _, ?_⟩, ⟨?_, ?_, hbound⟩, ?_, fun _ => h.header (.inl hp)⟩
  · have : (afterPixel v vs s).mode = .encode := hm
    obtain ⟨e, -⟩ | ⟨e, -⟩ := hphase <;> simp [e, this]
  · obtain ⟨e, -⟩ | ⟨-, e⟩ := hphase
    · simp [e]
    · exact fun _ => e
  · obtain ⟨-, e⟩ | ⟨e, -⟩ := hphase
    · exact fun _ => e
    · simp [e]
  · have : (afterPixel v vs s).cause = .noCause := hcause
    obtain ⟨e, -⟩ | ⟨e, -⟩ := hphase <;> simp [CauseSound, e, this]

/-! ### The invariant under a turn -/

/-- A header is never rejected without a cause. -/
theorem headerProblem_ne_noCause {b : List Byte} {c : Cause} (h : headerProblem b = some c) : c ≠ .noCause := by
  obtain rfl | rfl | rfl | rfl | rfl := headerProblem_cause h <;> decide

/-- Every effect of a core step keeps the invariant. -/
theorem CoreEffect.sound {s t : State} (e : CoreEffect s t) (h : SoundState s) : SoundState t := by
  cases e with
  | held _ => exact h
  | badHeader c _ _ hc => exact (h.setBytes _).raised (headerProblem_ne_noCause hc)
  | truncated => exact h.raised (by decide)
  | overshoot => exact (h.setBytes _).raised (by decide)
  | badMarker => exact (h.setBytes _).raised (by decide)
  | badConfig => exact h.raised (by decide)
  | pixelShort => exact h.raised (by decide)
  | header f hp _ hf => exact (h.setBytes (s.inByte.drop headerLength)).accepted hp hf
  | pixel i rest p hp hm _ _ h0 =>
    exact (h.setBytes rest).blockDone (ps := [p]) hp hm (one_le_remain h0) (h.cache.write p) (lastSound_of_written p s)
  | run n rest hp hm _ _ _ hle =>
    exact (h.setBytes rest).blockDone hp hm (by rwa [List.length_replicate]) h.cache h.last
  | trailer hp hm _ =>
    exact soundState_of_noRun h.cache h.last (h.runCnt_of_decode (by rw [hp]; rfl) hm) (h.noCause (by simp [hp]))
      (h.header (.inr hp)) h.remain.2.2 (.inr ⟨.inr rfl, h.remain.2.1 (.inr (.inl hp))⟩)
  | encHeader hp _ hl =>
    obtain ⟨hcount, hbound⟩ := pixelCount_toNat hl.1 hl.2.1
    refine soundState_of_noRun h.cache h.last rfl (h.noCause (by simp [hp])) hl (hcount ▸ hbound) ?_
    exact streamPhase_cases _ true rfl
  | encPixel v vs hp hm _ h0 => exact h.pixelTaken hp hm h0 v vs
  | encTrailer hp _ =>
    exact soundState_of_noRun h.cache h.last rfl (h.noCause (by simp [hp])) (h.header (.inr hp)) h.remain.2.2
      (.inr ⟨.inr rfl, h.remain.2.1 (.inr (.inl hp))⟩)

/-- From an invariant state the core's turn answers a next state, one of the effects. -/
theorem SoundState.coreStep_next {s : State} (h : SoundState s) : ∃ t, coreStep s = .next t ∧ CoreEffect s t :=
  coreStep_effect h.run.1 h.remain.1

/-- Every effect of a host action keeps the invariant. -/
theorem HostEffect.sound {s t : State} (e : HostEffect s t) (h : SoundState s) : SoundState t := by
  cases e with
  | ports => exact ⟨h.cache, h.last, h.run, h.remain, h.cause, h.header⟩
  | abort =>
    exact ⟨h.cache, h.last, ⟨h.run.1, by simp [Phase.isBusy]⟩, ⟨by simp, by simp, h.remain.2.2⟩, by simp [CauseSound],
      by simp [HeaderSound]⟩
  | start v _ =>
    exact ⟨fun k => .inl (by simp [Vector.get]), .inl rfl, ⟨by simp, fun _ => rfl⟩, ⟨by simp, fun _ => rfl, by simp⟩,
      by simp [CauseSound], by simp [HeaderSound]⟩
  | config m e r wd ht ch cs hb =>
    refine ⟨h.cache, h.last, ⟨h.run.1, ?_⟩, h.remain, h.cause, ?_⟩
    · rintro (hp | hp | ⟨hp, -⟩)
      · exact h.run.2 (.inl hp)
      · exact h.run.2 (.inr (.inl hp))
      · exact absurd hp (ne_true_of_eq_false hb)
    · rintro (hp | hp) <;> rw [show s.phase = _ from hp] at hb <;> contradiction

/-- The values of R39 meet the invariant, whatever the environment's two fields hold. -/
theorem soundState_resetCore (s : State) : SoundState (resetCore s) where
  cache k := .inl (by simp [resetCore, State.reset, Vector.get])
  last := .inl rfl
  run := ⟨by simp [resetCore, State.reset], fun _ => rfl⟩
  remain := ⟨by simp [resetCore, State.reset], fun _ => rfl, by simp [resetCore, State.reset]⟩
  cause := by simp [CauseSound, resetCore, State.reset]
  header := by simp [HeaderSound, resetCore, State.reset]

/-- From an invariant state every turn answers a next state, and that meets the invariant. -/
theorem SoundState.step_next {s : State} (h : SoundState s) : ∃ t, step s = .next t ∧ SoundState t := by
  obtain ⟨-, e⟩ | ⟨later, -, e⟩ | ⟨act, later, -, e⟩ | ⟨later, -, e⟩ := step_cases s <;> rw [e]
  · obtain ⟨t, ht, he⟩ := h.coreStep_next
    exact ⟨t, ht, he.sound h⟩
  · obtain ⟨t, ht, he⟩ := (h.setAgenda later).coreStep_next
    exact ⟨t, ht, he.sound (h.setAgenda later)⟩
  · exact ⟨_, rfl, (hostStep_effect act _).sound (h.setAgenda later)⟩
  · exact ⟨_, rfl, soundState_resetCore _⟩

/-! ### The obligations -/

/-- Settles O53: the one next state of a turn meets the invariant. -/
theorem stepKeepsInvariant : Obligations.StepKeepsInvariant := by
  unfold Obligations.StepKeepsInvariant
  intro s t h hstep
  obtain ⟨u, hu, hsound⟩ := h.step_next
  obtain rfl : u = t := by simpa [hu] using hstep
  exact hsound

/-- Settles O54: the core's turn has an effect, and the host's turn and a reset always answer. -/
theorem invariantStepNeverStops : Obligations.InvariantStepNeverStops := by
  unfold Obligations.InvariantStepNeverStops
  intro s h
  obtain ⟨t, ht, -⟩ := h.step_next
  exact ⟨t, ht⟩

/-- Settles O52: the reset state is what a reset leaves of itself. -/
theorem resetMeetsInvariant : Obligations.ResetMeetsInvariant := soundState_resetCore State.reset

end Sys2Proof.Machine
end

section
/-! PROOFS. What a core turn may write (spec/20_memory.md R60, R66, R70, 10_state.md R24, R31), in any state. -/

namespace Sys2Proof.Machine

/-! ### The core step of each pass and phase -/

theorem Mode.eq_decode_or_encode (m : Mode) : m = .decode ∨ m = .encode := by cases m <;> simp

section
variable {s : State}

theorem coreStep_header (hp : s.phase = .header) (hm : s.mode = .decode) : coreStep s = .next (headerStep s) := by
  simp only [coreStep, hp, hm]

theorem coreStep_block (hp : s.phase = .blocks) (hm : s.mode = .decode) : coreStep s = blockStep s := by
  simp only [coreStep, hp, hm]

theorem coreStep_trailer (hp : s.phase = .trailer) (hm : s.mode = .decode) : coreStep s = .next (trailerStep s) := by
  simp only [coreStep, hp, hm]

theorem coreStep_encHeader (hp : s.phase = .header) (hm : s.mode = .encode) : coreStep s = .next (encHeaderStep s) := by
  simp only [coreStep, hp, hm]

theorem coreStep_pixel (hp : s.phase = .blocks) (hm : s.mode = .encode) : coreStep s = pixelStep s := by
  simp only [coreStep, hp, hm]

theorem coreStep_encTrailer (hp : s.phase = .trailer) (hm : s.mode = .encode) : coreStep s = .next (encTrailerStep s) := by
  simp only [coreStep, hp, hm]

end

/-! ### One statement for all core steps -/

/-- `t` is `s` with nothing written but what the steps of its pass may write: in a decode pass CACHE, LAST, REMAIN, PHASE, CAUSE
and the configuration, IN_BYTE from the front and OUT_PIX at the end; in an encode pass CACHE, LAST, RUN_CNT, REMAIN, PHASE and
CAUSE, IN_PIX from the front and OUT_BYTE at the end. -/
inductive PassWrites (s : State) : State → Prop where
  | decode {c : Vector Pixel Config.cacheSlots} {l : Pixel} {r : BitVec 64} {ph : Phase} {ca : Cause} {w h : Word} {ch cs : Byte}
    {ib : List Byte} {op : List Word} (hm : s.mode = .decode) (hi : ib <:+ s.inByte) (ho : s.outPix <+: op) :
    PassWrites s
      { s with
        cache := c, last := l, remain := r, phase := ph, cause := ca, width := w, height := h, channels := ch, colorspace := cs
        inByte := ib, outPix := op }
  | encode {c : Vector Pixel Config.cacheSlots} {l : Pixel} {n : BitVec 6} {r : BitVec 64} {ph : Phase} {ca : Cause}
    {ip : List Word} {ob : List Byte} (hm : s.mode = .encode) (hi : ip <:+ s.inPix) (ho : s.outByte <+: ob) :
    PassWrites s { s with cache := c, last := l, runCnt := n, remain := r, phase := ph, cause := ca, inPix := ip, outByte := ob }

/-- Nothing, or an error, is written in either pass. -/
theorem passWrites_phaseCause (s : State) (ph : Phase) (c : Cause) : PassWrites s { s with phase := ph, cause := c } := by
  obtain hm | hm := s.mode.eq_decode_or_encode
  · exact .decode hm List.suffix_rfl List.prefix_rfl
  · exact .encode hm List.suffix_rfl List.prefix_rfl

theorem passWrites_raise (s : State) (c : Cause) : PassWrites s (raise c s) := passWrites_phaseCause s .error c

theorem passWrites_refl (s : State) : PassWrites s s := passWrites_phaseCause s s.phase s.cause

theorem headerStep_writes {s : State} (hm : s.mode = .decode) : PassWrites s (headerStep s) := by
  obtain ⟨-, -, e⟩ | ⟨-, ⟨c, -, e⟩ | ⟨-, e⟩⟩ := headerStep_cases s <;> rw [e]
  · exact passWrites_refl s
  · exact .decode hm (List.drop_suffix _ _) List.prefix_rfl
  · rw [acceptHeader_eq]
    exact .decode hm (List.drop_suffix _ _) List.prefix_rfl

theorem trailerStep_writes {s : State} (hm : s.mode = .decode) : PassWrites s (trailerStep s) := by
  obtain ⟨-, -, e⟩ | ⟨-, -, e⟩ | ⟨-, -, e⟩ := trailerStep_cases s <;> rw [e]
  · exact passWrites_refl s
  · exact .decode hm (List.drop_suffix _ _) List.prefix_rfl
  · exact .decode hm (List.drop_suffix _ _) List.prefix_rfl

/-- The block step on bytes that are a block. -/
theorem blockStep_of_block {s : State} {i : Instr} {rest : List Byte} (h : decode s.inByte = .block i rest) :
    blockStep s = exec i { s with inByte := rest } := by
  simp only [blockStep, h]

/-- The block step on bytes that are none yet. -/
theorem blockStep_of_rejected {s : State} {why : Reject} (h : decode s.inByte = .rejected why) :
    blockStep s = .next (if s.inByteEnd then raise .fTruncBlock s else s) := by
  simp only [blockStep, h]

theorem blockStep_writes {s t : State} (hm : s.mode = .decode) (h : blockStep s = .next t) : PassWrites s t := by
  cases hd : decode s.inByte with
  | block i rest =>
    rw [blockStep_of_block hd] at h
    have hsuf : rest <:+ s.inByte := ⟨encode i, (eq_encode_of_decode hd).symm⟩
    have he := exec_effect i { s with inByte := rest }
    rw [h] at he
    cases he with
    | badField => exact .decode hm hsuf List.prefix_rfl
    | overshoot => exact .decode hm hsuf List.prefix_rfl
    | pixel => exact .decode hm hsuf (List.prefix_append _ _)
    | run => exact .decode hm hsuf (List.prefix_append _ _)
  | rejected why =>
    rw [blockStep_of_rejected hd] at h
    cases h
    split
    · exact passWrites_raise s _
    · exact passWrites_refl s

theorem encHeaderStep_writes {s : State} (hm : s.mode = .encode) : PassWrites s (encHeaderStep s) := by
  obtain ⟨-, e⟩ | ⟨-, e⟩ := encHeaderStep_cases s <;> rw [e]
  · exact passWrites_raise s _
  · exact .encode hm List.suffix_rfl (List.prefix_append _ _)

theorem pixelStep_writes {s t : State} (hm : s.mode = .encode) (h : pixelStep s = .next t) : PassWrites s t := by
  obtain ⟨-, -, e⟩ | ⟨-, e⟩ | ⟨-, -, -, e⟩ | ⟨-, e⟩ | ⟨v, vs, hv, hr, -, e⟩ := pixelStep_cases s <;> rw [e] at h
  · cases h
    exact passWrites_refl s
  · cases h
    exact passWrites_raise s _
  · cases h
    exact passWrites_raise s _
  · cases h
  · cases h
    rw [encodePixel_eq (by exact hr)]
    exact .encode hm (hv ▸ List.suffix_cons v vs) (List.prefix_append _ _)

/-- A run counter above 62 has no RUN block, so the trailer step ends in V_FIELD_RANGE (R173). No pass reaches this (R24). -/
theorem encTrailerStep_of_gt {s : State} (h : Config.maxRun < s.runCnt.toNat) : encTrailerStep s = raise .vFieldRange s := by
  have hz : s.runCnt ≠ 0#6 := by
    rintro e
    simp [e] at h
  have hw : (Instr.run s.runCnt.toNat).wellFormed = false := by
    rw [← Bool.not_eq_true, wellFormed_run]
    simp only [Config.maxRun] at h
    omega
  rw [encTrailerStep, flushRun, if_neg hz, emitBlock_of_not_wf hw]

theorem encTrailerStep_writes {s : State} (hm : s.mode = .encode) : PassWrites s (encTrailerStep s) := by
  by_cases h : s.runCnt.toNat ≤ Config.maxRun
  · rw [encTrailerStep_eq h, List.append_assoc]
    exact .encode hm List.suffix_rfl (List.prefix_append _ _)
  · rw [encTrailerStep_of_gt (Nat.lt_of_not_le h)]
    exact passWrites_raise s _

/-- A core step writes nothing but what the steps of its pass may write. -/
theorem coreStep_writes {s t : State} (h : coreStep s = .next t) : PassWrites s t := by
  cases hp : s.phase with
  | idle | done | error =>
    rw [coreStep_of_not_busy (by rw [hp]; rfl)] at h
    cases h
    exact passWrites_refl s
  | header =>
    obtain hm | hm := s.mode.eq_decode_or_encode
    · obtain rfl := Host.Outcome.next.inj ((coreStep_header hp hm).symm.trans h)
      exact headerStep_writes hm
    · obtain rfl := Host.Outcome.next.inj ((coreStep_encHeader hp hm).symm.trans h)
      exact encHeaderStep_writes hm
  | blocks =>
    obtain hm | hm := s.mode.eq_decode_or_encode
    · exact blockStep_writes hm ((coreStep_block hp hm).symm.trans h)
    · exact pixelStep_writes hm ((coreStep_pixel hp hm).symm.trans h)
  | trailer =>
    obtain hm | hm := s.mode.eq_decode_or_encode
    · obtain rfl := Host.Outcome.next.inj ((coreStep_trailer hp hm).symm.trans h)
      exact trailerStep_writes hm
    · obtain rfl := Host.Outcome.next.inj ((coreStep_encTrailer hp hm).symm.trans h)
      exact encTrailerStep_writes hm

/-- In the core's turn, the same of the state with the turn used up. -/
theorem coreTurn_writes {s s1 t : State} (h : CoreTurn s s1) (hstep : step s = .next t) : PassWrites s1 t :=
  coreStep_writes ((coreTurn_step h).1.symm.trans hstep)

/-! ### The obligations -/

/-- Settles O55: what a pass may write on the four ports. -/
theorem streamsAreOrdered : Obligations.StreamsAreOrdered := by
  unfold Obligations.StreamsAreOrdered
  intro s s1 t h hstep
  have hw := coreTurn_writes h hstep
  obtain ⟨a, rfl, -⟩ := coreTurn_eq h
  cases hw with
  | decode _ hi ho => exact ⟨List.prefix_rfl, ho, hi, List.suffix_rfl, rfl, rfl⟩
  | encode _ hi ho => exact ⟨ho, List.prefix_rfl, List.suffix_rfl, hi, rfl, rfl⟩

/-- Settles O56: what no pass may write, and what the pass of the other mode may. -/
theorem coreStepLeavesTheRestAlone : Obligations.CoreStepLeavesTheRestAlone := by
  unfold Obligations.CoreStepLeavesTheRestAlone
  intro s s1 t h hstep
  have hw := coreTurn_writes h hstep
  obtain ⟨a, rfl, -⟩ := coreTurn_eq h
  cases hw with
  | decode hm =>
    exact ⟨rfl, rfl, rfl, rfl, rfl, fun _ => ⟨rfl, rfl, rfl⟩, fun he => absurd (hm.symm.trans he) (by decide)⟩
  | encode hm =>
    exact ⟨rfl, rfl, rfl, rfl, rfl, fun hd => absurd (hm.symm.trans hd) (by decide),
      fun _ => ⟨rfl, rfl, rfl, rfl, rfl, rfl⟩⟩

end Sys2Proof.Machine
end

section
/-! PROOFS. Core turns in the pass (spec/10_state.md R26, 43_decoder.md R223 to R228, 60_exceptions.md R301 to R303): the phases,
the errors and their input, and the turns that change nothing. -/

namespace Sys2Proof.Machine

/-! ### The moves of PHASE -/

/-- The moves of PHASE a core step of a pass can make. -/
inductive PhaseMove : Mode → Phase → Phase → Prop where
  | stay (m : Mode) (p : Phase) : PhaseMove m p p
  | error (m : Mode) {p : Phase} (h : p.isBusy = true) : PhaseMove m p .error
  | headerBlocks (m : Mode) : PhaseMove m .header .blocks
  | headerTrailer (m : Mode) : PhaseMove m .header .trailer
  | headerDone : PhaseMove .decode .header .done
  | blocksTrailer (m : Mode) : PhaseMove m .blocks .trailer
  | blocksDone : PhaseMove .decode .blocks .done
  | trailerDone (m : Mode) : PhaseMove m .trailer .done

/-- The end of a block stream, if it ends: a move of BLOCKS in a decode pass (R226). -/
theorem phaseMove_blocks (ended : Prop) [Decidable ended] (e : Bool) :
    PhaseMove .decode .blocks (if ended then (if e then .trailer else .done) else .blocks) := by
  split
  · cases e
    · exact .blocksDone
    · exact .blocksTrailer _
  · exact .stay _ _

theorem CoreEffect.phaseMove {s t : State} (e : CoreEffect s t) : PhaseMove s.mode s.phase t.phase := by
  cases e with
  | held => exact .stay _ _
  | badHeader _ hp => exact .error _ (by rw [hp]; rfl)
  | truncated _ hp => exact .error _ (by rw [hp]; rfl)
  | overshoot _ _ hp => exact .error _ (by rw [hp]; rfl)
  | badMarker hp => exact .error _ (by rw [hp]; rfl)
  | badConfig hp => exact .error _ (by rw [hp]; rfl)
  | pixelShort hp => exact .error _ (by rw [hp]; rfl)
  | header f hp hm =>
    rw [acceptHeader_eq, hp, hm]
    dsimp only
    split
    · split
      · exact .headerTrailer _
      · exact .headerDone
    · exact .headerBlocks _
  | pixel i rest p hp hm =>
    rw [afterBlock_phase, hp, hm]
    exact phaseMove_blocks _ _
  | run n rest hp hm =>
    rw [afterBlock_phase, hp, hm]
    exact phaseMove_blocks _ _
  | trailer hp => rw [hp]; exact .trailerDone _
  | encHeader hp =>
    rw [hp]
    dsimp only
    split
    · exact .headerTrailer _
    · exact .headerBlocks _
  | encPixel v vs hp =>
    rw [hp, afterPixel]
    dsimp only
    split
    · exact .blocksTrailer _
    · exact .stay _ _
  | encTrailer hp => rw [hp]; exact .trailerDone _

/-- In the core's turn from an invariant state, the next state is an effect of the state with the turn used up. -/
theorem SoundState.coreTurn {s s1 t : State} (h : SoundState s) (hc : CoreTurn s s1) (hstep : step s = .next t) :
    CoreEffect s1 t ∧ SoundState s1 := by
  obtain ⟨a, rfl, e⟩ := coreTurn_eq hc
  obtain ⟨u, hu, he⟩ := (h.setAgenda a).coreStep_next
  obtain rfl := Host.Outcome.next.inj (hu.symm.trans (e.symm.trans hstep))
  exact ⟨he, h.setAgenda a⟩

section
variable {m : Mode} {p q : Phase}

theorem PhaseMove.eq_of_not_busy (h : PhaseMove m p q) (hp : p.isBusy = false) : q = p := by
  cases h with
  | stay => rfl
  | error _ hb => exact absurd hb (ne_true_of_eq_false hp)
  | headerBlocks | headerTrailer | headerDone | blocksTrailer | blocksDone | trailerDone => simp [Phase.isBusy] at hp

theorem PhaseMove.ne_idle (h : PhaseMove m p q) (hp : p.isBusy = true) : q ≠ .idle := by
  rintro rfl
  cases h
  simp [Phase.isBusy] at hp

theorem PhaseMove.ne_header_of_blocks (h : PhaseMove m .blocks q) : q ≠ .header := by
  rintro rfl
  cases h

theorem PhaseMove.of_trailer (h : PhaseMove m .trailer q) : q = .trailer ∨ q = .done ∨ q = .error := by
  cases h <;> simp

theorem PhaseMove.encode_done (h : PhaseMove .encode p .done) : p = .trailer ∨ p = .done := by
  cases h <;> simp

end

/-- Settles O57: each claim is read off the moves of PHASE, and REMAIN in DONE off the invariant of the next state. -/
theorem passPhasesMoveForward : Obligations.PassPhasesMoveForward := by
  unfold Obligations.PassPhasesMoveForward
  intro s s1 t hc h hstep
  obtain ⟨e, h1⟩ := h.coreTurn hc hstep
  have hmove : PhaseMove s.mode s.phase t.phase := by
    have := e.phaseMove
    rwa [(coreTurn_step hc).2] at this
  refine ⟨fun hp => hmove.eq_of_not_busy (isBusy_of_no_pass hp), fun hp => hmove.ne_idle (isBusy_of_pass (.inl hp)),
    fun hp => ⟨hmove.ne_idle (isBusy_of_pass (.inr (.inl hp))), ?_⟩, fun hp => ?_, fun hm ht => ?_,
    fun ht => (e.sound h1).remain.2.1 (.inr (.inr ht))⟩
  · rw [hp] at hmove
    exact hmove.ne_header_of_blocks
  · rw [hp] at hmove
    exact hmove.of_trailer
  · rw [hm, ht] at hmove
    exact hmove.encode_done

/-! ### Errors -/

/-- The variant of a block that is read is the one its tag byte selects. -/
theorem variant_decodeBlock (t : Byte) (x : List Byte) : (decodeBlock t x).variant = variantOf t := by
  cases hv : variantOf t <;> simp only [decodeBlock, hv, Instr.variant]

/-- A RUN block that is read is one byte, its tag. -/
theorem decode_run {bs rest : List Byte} {n : Int} (h : decode bs = .block (.run n) rest) :
    ∃ tag, variantOf tag = .run ∧ bs = tag :: rest := by
  obtain ⟨t, x, rfl, hl, hi⟩ := decode_eq_block h
  have hv : variantOf t = .run := by rw [← variant_decodeBlock t x, ← hi]; rfl
  rw [blockLength_eq_byteCount, hv] at hl
  obtain rfl := List.length_eq_zero_iff.mp (Nat.succ.inj hl)
  exact ⟨t, hv, rfl⟩

/-- The input an error entry has consumed, by the mode and the phase of its step (R302). -/
def ErrorInput (s t : State) : Prop :=
  (s.mode = .decode → s.phase = .header → t.inByte = s.inByte.drop 14) ∧
  (s.mode = .decode → s.phase = .blocks →
    (t.cause = .fTruncBlock ∧ t.inByte = s.inByte) ∨
    (t.cause = .fRunOvershoot ∧ ∃ tag, variantOf tag = .run ∧ s.inByte = tag :: t.inByte)) ∧
  (s.mode = .decode → s.phase = .trailer → t.inByte = s.inByte.drop 8) ∧
  (s.mode = .encode → t.inByte = s.inByte)

/-- What an error entry of a core step is. -/
def ErrorEntry (s t : State) : Prop :=
  t.cause ≠ .noCause ∧ t = { s with phase := .error, cause := t.cause, inByte := t.inByte } ∧ ErrorInput s t

/-- Of the effects of a core step outside ERROR, those that end there are error entries. -/
theorem CoreEffect.errorEntry {s t : State} (e : CoreEffect s t) (hs : s.phase ≠ .error) (ht : t.phase = .error) :
    ErrorEntry s t := by
  cases e with
  | held => exact absurd ht hs
  | badHeader c hp hm hc => exact ⟨headerProblem_ne_noCause hc, rfl, by simp [ErrorInput, hp, hm, headerLength]⟩
  | truncated _ hp hm => exact ⟨by simp, rfl, by simp [ErrorInput, hp, hm]⟩
  | overshoot n rest hp hm hd => exact ⟨by simp, rfl, by simpa [ErrorInput, hp, hm] using decode_run hd⟩
  | badMarker hp hm => exact ⟨by simp, rfl, by simp [ErrorInput, hp, hm, endMarker]⟩
  | badConfig hp hm => exact ⟨by simp, rfl, by simp [ErrorInput, hm]⟩
  | pixelShort hp hm => exact ⟨by simp, rfl, by simp [ErrorInput, hm]⟩
  | header f hp hm hf =>
    rw [acceptHeader_eq] at ht
    dsimp only at ht
    split_ifs at ht
  | pixel i rest p hp hm =>
    rw [afterBlock_phase, hp] at ht
    split_ifs at ht
  | run n rest hp hm =>
    rw [afterBlock_phase, hp] at ht
    split_ifs at ht
  | trailer => simp at ht
  | encHeader => dsimp only at ht; split_ifs at ht
  | encPixel => rw [afterPixel] at ht; dsimp only at ht; split_ifs at ht
  | encTrailer => simp at ht

/-- Settles O41: the error entries among the effects of a core step. -/
theorem errorEntryIsExact : Obligations.ErrorEntryIsExact := by
  unfold Obligations.ErrorEntryIsExact
  intro s s1 t hc h hs hstep ht
  have e := (h.coreTurn hc hstep).1
  obtain ⟨a, rfl, -⟩ := coreTurn_eq hc
  exact e.errorEntry hs ht

/-! ### Causes -/

/-- A cause that a step of a pass may leave: neither of the two internal ones. -/
def PassCause (c : Cause) : Prop := c ≠ .vFieldRange ∧ c ≠ .iRunInvariant

theorem passCause_header {b : List Byte} {c : Cause} (h : headerProblem b = some c) : PassCause c := by
  obtain rfl | rfl | rfl | rfl | rfl := headerProblem_cause h <;> exact ⟨by decide, by decide⟩

theorem CoreEffect.passCause {s t : State} (e : CoreEffect s t) (h : PassCause s.cause) : PassCause t.cause := by
  cases e with
  | badHeader c _ _ hc => exact passCause_header hc
  | truncated | overshoot | badMarker | badConfig | pixelShort => exact ⟨by simp, by simp⟩
  | header => rwa [acceptHeader_eq]
  | held | pixel | run | trailer | encHeader | encPixel | encTrailer => exact h

theorem HostEffect.passCause {s t : State} (e : HostEffect s t) (h : PassCause s.cause) : PassCause t.cause := by
  cases e with
  | abort | start => exact ⟨by simp, by simp⟩
  | ports | config => exact h

/-- Settles O43: outside ERROR there is no cause, and no turn brings one of the two. -/
theorem noInternalErrorsInAPass : Obligations.NoInternalErrorsInAPass := by
  unfold Obligations.NoInternalErrorsInAPass
  intro s t h hs hstep
  have hcause : PassCause s.cause := by rw [h.noCause hs]; exact ⟨by decide, by decide⟩
  obtain ⟨ha, -⟩ | ⟨later, ha, -⟩ | ⟨act, later, -, e⟩ | ⟨later, -, e⟩ := step_cases s
  · exact (h.coreTurn (.inl ⟨ha, rfl⟩) hstep).1.passCause hcause
  · exact (h.coreTurn (.inr ⟨later, ha, rfl⟩) hstep).1.passCause hcause
  · obtain rfl := Host.Outcome.next.inj (e.symm.trans hstep)
    exact (hostStep_effect act { s with agenda := later }).passCause hcause
  · obtain rfl := Host.Outcome.next.inj (e.symm.trans hstep)
    exact ⟨by simp [resetCore, State.reset], by simp [resetCore, State.reset]⟩

/-! ### The block step -/

section
variable {s s1 : State} (h : CoreTurn s s1) (hp : s.phase = .blocks) (hm : s.mode = .decode)
include h hp hm

theorem step_block : step s = blockStep s1 := by
  obtain ⟨a, rfl, hstep⟩ := coreTurn_eq h
  exact hstep.trans (coreStep_block (s := { s with agenda := a }) hp hm)

/-- On a whole block the step is `exec` of it, its bytes taken (R223). -/
theorem step_of_block {i : Instr} {rest : List Byte} (hd : decode s.inByte = .block i rest) :
    step s = exec i { s1 with inByte := rest } := by
  rw [step_block h hp hm]
  obtain ⟨a, rfl, -⟩ := coreTurn_eq h
  exact blockStep_of_block hd

/-- On less than a block the step raises after END and holds before it (R224, R63). -/
theorem step_of_short (hshort : s.inByte = [] ∨ ∃ t x, s.inByte = t :: x ∧ x.length + 1 < blockLength t) :
    step s = .next (if s.inByteEnd then raise .fTruncBlock s1 else s1) := by
  obtain ⟨why, hd⟩ := decode_of_short hshort
  rw [step_block h hp hm]
  obtain ⟨a, rfl, -⟩ := coreTurn_eq h
  exact blockStep_of_rejected hd

end

/-- A valid run makes at least one pixel. -/
theorem replicate_ne_nil_of_run {n : Int} (h : (Instr.run n).wellFormed = true) (p : Pixel) :
    List.replicate n.toNat p ≠ [] := by
  have := (wellFormed_run n).mp h
  simp only [ne_eq, List.replicate_eq_nil_iff]
  omega

/-- The account of a block that made the pixels `ps`: they are emitted and taken off REMAIN, and the stream ends at 0 (R226). -/
theorem afterBlock_account {s : State} {ps : List Pixel} (c : Vector Pixel Config.cacheSlots) (l : Pixel) (hne : ps ≠ [])
    (hle : ps.length ≤ s.remain.toNat) (hp : s.phase = .blocks) :
    (∃ vs, vs ≠ [] ∧ (afterBlock s ps c l).outPix = s.outPix ++ vs ∧
      (afterBlock s ps c l).remain.toNat + vs.length = s.remain.toNat) ∧
    (afterBlock s ps c l).phase =
      if (afterBlock s ps c l).remain = 0#64 then (if s.enforceEnd then .trailer else .done) else .blocks := by
  refine ⟨⟨ps.map toPacked, by simpa using hne, rfl, ?_⟩, ?_⟩
  · rw [afterBlock_remain c l hle, List.length_map, Nat.sub_add_cancel hle]
  · simp only [afterBlock_remain_eq_zero c l hle, afterBlock_phase, hp]

/-- Settles O31: a step that neither holds nor raises is a block of one pixel or a run. -/
theorem decodeBlockAccounting : Obligations.DecodeBlockAccounting := by
  unfold Obligations.DecodeBlockAccounting
  intro s s1 t h hp hm hstep ht
  rw [step_block h hp hm] at hstep
  obtain ⟨a, rfl, -⟩ := coreTurn_eq h
  cases hd : decode s.inByte with
  | rejected why =>
    have e := (blockStep_of_rejected (s := { s with agenda := a }) hd).symm.trans hstep
    cases e
    split at ht
    · simp at ht
    · next hend => exact .inl (if_neg hend)
  | block i rest =>
    have e := exec_effect i { s with agenda := a, inByte := rest }
    rw [← blockStep_of_block (s := { s with agenda := a }) hd, hstep] at e
    refine .inr ?_
    cases e with
    | badField | overshoot => simp at ht
    | pixel p _ _ h0 => exact afterBlock_account (ps := [p]) _ _ (List.cons_ne_nil _ _) (one_le_remain h0) hp
    | run n hi hw hle =>
      subst hi
      exact afterBlock_account _ _ (replicate_ne_nil_of_run hw _) (by rwa [List.length_replicate]) hp

/-- Settles O22: the core's turn in BLOCKS of a decode pass is the block step. -/
theorem stepRunsDecodedBlock : Obligations.StepRunsDecodedBlock := by
  unfold Obligations.StepRunsDecodedBlock
  exact fun s s1 i rest h hp hm hd => step_of_block h hp hm hd

/-- Settles O23: the block step on too few bytes, with END set. -/
theorem truncatedBlockRaises : Obligations.TruncatedBlockRaises := by
  unfold Obligations.TruncatedBlockRaises
  intro s s1 h hp hm he hshort
  rw [step_of_short h hp hm hshort, if_pos he]
  rfl

/-! ### Turns that change nothing -/

/-- Settles O24: the hold of each of the four steps that need input. -/
theorem heldStepChangesNothing : Obligations.HeldStepChangesNothing := by
  unfold Obligations.HeldStepChangesNothing
  intro s s1 h
  refine ⟨fun hp hm he hl => ?_, fun hp hm he hshort => ?_, fun hp hm he hl => ?_, fun hp hm he hv => ?_⟩
  · rw [step_header h hp hm]
    obtain ⟨a, rfl, -⟩ := coreTurn_eq h
    exact congrArg _ (if_pos ⟨hl, by simp [he]⟩)
  · rw [step_of_short h hp hm hshort, if_neg (by simp [he])]
  · obtain ⟨a, rfl, hstep⟩ := coreTurn_eq h
    refine hstep.trans ((coreStep_trailer (s := { s with agenda := a }) hp hm).trans (congrArg _ ?_))
    exact if_pos ⟨hl, by simp [he]⟩
  · rw [step_pixel h hm hp]
    obtain ⟨a, rfl, -⟩ := coreTurn_eq h
    exact if_pos ⟨hv, by simp [he]⟩

/-- Settles O25: no core step is enabled outside a pass. -/
theorem idleCoreTakesNothing : Obligations.IdleCoreTakesNothing := by
  unfold Obligations.IdleCoreTakesNothing
  intro s s1 h hp
  obtain ⟨a, rfl, hstep⟩ := coreTurn_eq h
  exact hstep.trans (coreStep_of_not_busy (s := { s with agenda := a }) (isBusy_of_no_pass hp))

end Sys2Proof.Machine
end

section
/-! PROOFS. Values (spec/40_header_pixel.md R121, R131, 41_prediction.md R150): the colour hash, the delta datapath and the fields
of a header. -/

namespace Sys2Proof.Machine

/-! ### The colour hash -/

/-- The weighted sum of the channels, before its reduction (R150). -/
def hashSum (p : Pixel) : Nat := p.r.toNat * 3 + p.g.toNat * 5 + p.b.toNat * 7 + p.a.toNat * 11

theorem pixelHash_val (p : Pixel) : (pixelHash p).val = hashSum p % 64 := rfl

/-- Pixels with the same sum modulo 64 share a slot. -/
theorem pixelHash_eq_of_hashSum {p q : Pixel} (h : hashSum p % 64 = hashSum q % 64) : pixelHash p = pixelHash q := Fin.ext h

/-- The sum is largest when every channel is 255. -/
theorem hashSum_le (p : Pixel) : hashSum p ≤ 6630 := by
  have := p.r.isLt
  have := p.g.isLt
  have := p.b.isLt
  have := p.a.isLt
  simp only [hashSum]
  omega

/-- 64 more in a channel, wrapped or not, is a multiple of 64 more in the sum. -/
theorem add_sixtyFour_toNat (x : Byte) : (x + 64#8).toNat % 64 = x.toNat % 64 := by
  rw [BitVec.toNat_add, BitVec.toNat_ofNat]
  omega

/-- Settles O8: the sum and its bound; a change of 64 in one channel leaves the sum modulo 64. -/
theorem hashFormula : Obligations.HashFormula := by
  unfold Obligations.HashFormula
  intro p
  have hr := add_sixtyFour_toNat p.r
  have hg := add_sixtyFour_toNat p.g
  have hb := add_sixtyFour_toNat p.b
  have ha := add_sixtyFour_toNat p.a
  refine ⟨pixelHash_val p, hashSum_le p, ?_, ?_, ?_, ?_, rfl, rfl, rfl, rfl, rfl⟩ <;>
    apply pixelHash_eq_of_hashSum <;> simp only [hashSum] <;> omega

/-! ### The delta datapath -/

/-- A delta congruent to the signed difference brings the channel back (R131). -/
theorem addc_of_emod_eq {x y : Byte} {d : Int} (h : (d - sdiff8 x y) % 256 = 0) : addc y d = x := by
  have hd := sdiff8_emod x y
  have hx := x.isLt
  have hy := y.isLt
  have hc := addc_toNat y d
  rw [byte_eq_iff]
  omega

theorem addc_sdiff8 (x y : Byte) : addc y (sdiff8 x y) = x := addc_of_emod_eq (by simp)

/-- Red and blue of a LUMA block: green's change and the difference to it make the channel's own change. -/
theorem addc_add_sub (x y : Byte) (d : Int) : addc y (d + (sdiff8 x y - d)) = x := by
  rw [add_sub_cancel, addc_sdiff8]

/-- The pixel a selected block stands for, against LAST, is the pixel it was selected for. -/
theorem blockPixel_selectByDeltas {p : Pixel} {s : State} (ha : p.a = s.last.a) (encRgb : Bool) :
    blockPixel (selectByDeltas p (sdiff8 p.r s.last.r) (sdiff8 p.g s.last.g) (sdiff8 p.b s.last.b) encRgb) s = some p := by
  unfold selectByDeltas
  split_ifs
  · simp only [blockPixel, pixelOfDiff, addc_sdiff8, ← ha]
  · simp only [blockPixel, pixelOfLuma, addc_add_sub, addc_sdiff8, ← ha]
  · rw [blockPixel_rgb_toNat, ← ha]
  · exact blockPixel_rgba_toNat _ _ _ _ s

theorem blockPixel_selectBlock_none (p : Pixel) (s : State) (encRgb : Bool) :
    blockPixel (selectBlock none p s.last encRgb) s = some p := by
  by_cases ha : p.a = s.last.a
  · simp only [selectBlock, ne_eq, ha, not_true_eq_false, if_false]
    exact blockPixel_selectByDeltas ha encRgb
  · simp only [selectBlock, ne_eq, ha, not_false_eq_true, if_true]
    exact blockPixel_rgba_toNat _ _ _ _ s

/-- The pixel of the block the encoder selects is the pixel it is selected for, in a cache that the hit was found in (R256 to
R261). -/
theorem blockPixel_selectBlock (p : Pixel) (s : State) (encRgb : Bool) :
    blockPixel (selectBlock (observe p s).1 p s.last encRgb) s = some p := by
  by_cases hit : s.cache.get (pixelHash p) = p
  · rw [selectBlock_of_hit hit, blockPixel_index_val, hit]
  · rw [observe_hit, if_neg hit]
    exact blockPixel_selectBlock_none p s encRgb

/-- The same of a block that the selection answered without a hit, in any state with that LAST. -/
theorem blockPixel_of_selected {p last : Pixel} {encRgb : Bool} {i : Instr} (h : selectBlock none p last encRgb = i) (s : State)
    (hs : s.last = last) : blockPixel i s = some p := by
  rw [← h, ← hs, blockPixel_selectBlock_none]

/-- Settles O11: each channel by its congruence, and a selected block by the pixel it stands for. -/
theorem deltaRoundTrip : Obligations.DeltaRoundTrip := by
  unfold Obligations.DeltaRoundTrip
  refine ⟨addc_sdiff8, fun x y d => addc_of_emod_eq, fun p last encRgb dr dg db h => ?_, fun p last encRgb dg dr db h => ?_⟩
  · exact Option.some.inj (blockPixel_of_selected h { State.reset with last := last } rfl)
  · exact Option.some.inj (blockPixel_of_selected h { State.reset with last := last } rfl)

/-! ### The fields of a header -/

/-- The word of four bytes, most significant first, as a number (R121). -/
theorem ofBe32_toNat (b0 b1 b2 b3 : Byte) :
    (ofBe32 b0 b1 b2 b3).toNat = b0.toNat * 2 ^ 24 + b1.toNat * 2 ^ 16 + b2.toNat * 2 ^ 8 + b3.toNat := by
  simp only [ofBe32, toNat_append_eq_add]
  omega

/-- A word's signed reading, from its number (R4). -/
theorem s32_of_toNat {v : Word} {n : Nat} (h : v.toNat = n) : s32 v = if n < 2 ^ 31 then (n : Int) else (n : Int) - 2 ^ 32 := by
  rw [s32, BitVec.toInt_eq_toNat_cond, h]
  split_ifs <;> omega

/-- Settles O27: the number of four bytes and its signed reading, and a written header read back. -/
theorem headerFieldsFromBytes : Obligations.HeaderFieldsFromBytes := by
  unfold Obligations.HeaderFieldsFromBytes
  refine ⟨?_, decodeHeader_encodeHeader⟩
  intro b0 b1 b2 b3 b4 b5 b6 b7 b8 b9 b10 b11 b12 b13
  exact ⟨s32_of_toNat (ofBe32_toNat b4 b5 b6 b7), s32_of_toNat (ofBe32_toNat b8 b9 b10 b11), rfl, rfl⟩

end Sys2Proof.Machine
end

section
/-! PROOFS. Single blocks and pixels (spec/41_prediction.md R155, 44_encoder.md R253, R254, R267): a term that is no block, the
initial run, and the repeats an encode pass counts. -/

namespace Sys2Proof.Machine

/-- Settles O20: `exec` looks at the fields before anything else. -/
theorem outOfRangeBlockIsAnError : Obligations.OutOfRangeBlockIsAnError := by
  unfold Obligations.OutOfRangeBlockIsAnError
  exact fun i s h => exec_of_not_wf h s

/-- Every slot of the cache of a pass's start holds the sentinel (R21). -/
theorem startCache_get (k : Slot) :
    (Vector.replicate 64 (⟨0#8, 0#8, 0#8, 0#8⟩ : Pixel)).get k = ⟨0#8, 0#8, 0#8, 0#8⟩ := by
  simp [Vector.get]

/-- Settles O21: a run leaves the cache, so slot 53 still holds the sentinel when INDEX 53 reads it. -/
theorem initialRunIsNotCached : Obligations.InitialRunIsNotCached := by
  unfold Obligations.InitialRunIsNotCached
  intro n s h1 h62 _ _ hc hl hn
  have hrun := exec_run_of_le (s := s) ((wellFormed_run _).mpr ⟨by omega, by omega⟩) hn.le
  set t := afterBlock s (List.replicate n s.last) s.cache s.last with ht
  have hslot : t.cache.get 53 = ⟨0#8, 0#8, 0#8, 0#8⟩ := by rw [ht, afterBlock_cache, hc, startCache_get]
  have h0 : t.remain ≠ 0#64 := by
    rw [ht, ne_eq, afterBlock_remain_eq_zero _ _ (by rw [List.length_replicate]; exact hn.le), List.length_replicate]
    exact hn.ne'
  have hindex := exec_of_blockPixel (i := .index 53) rfl (congrArg some hslot) h0
  refine ⟨t, _, hrun, hl, hslot, hindex, rfl, ?_⟩
  rw [afterBlock_outPix, ht, afterBlock_outPix, List.map_replicate, hl]
  rfl

/-! ### A repeat in an encode pass -/

/-- One taken pixel that is LAST: it is only counted, and the 62nd of a run is written with all of them (R253, R254). -/
theorem afterPixel_of_eq {v : Word} {vs : List Word} {s : State} (heq : fromPacked v = s.last) :
    afterPixel v vs s =
      { s with
        runCnt := if s.runCnt = 61#6 then 0#6 else s.runCnt + 1#6
        outByte := s.outByte ++ if s.runCnt = 61#6 then [0xFD#8] else []
        inPix := vs
        remain := s.remain - 1#64
        phase := if s.remain.toNat = 1 then .trailer else .blocks } := by
  have hbyte : encode (.run 62) = [0xFD#8] := encode_run_natCast (n := 62) (by decide) (by decide)
  rw [afterPixel, nextRunCnt_of_eq heq]
  simp only [pixelBytes, heq, if_true, hbyte]

theorem runCnt_eq_iff (n : BitVec 6) : n = 61#6 ↔ n.toNat = 61 := BitVec.toNat_inj.symm

/-- A run counter out of its range is an internal error, once the step has its input (R252). -/
theorem pixelStep_of_maxRun_le {s : State} {v : Word} {vs : List Word} (hv : s.inPix = v :: vs)
    (h : Config.maxRun ≤ s.runCnt.toNat) : pixelStep s = .next (raise .iRunInvariant s) := by
  rw [pixelStep, if_neg (by simp [hv]), if_pos h]

/-- Settles O33: the check of the run counter, and a taken pixel that is LAST. -/
theorem repeatPixelIsCounted : Obligations.RepeatPixelIsCounted := by
  unfold Obligations.RepeatPixelIsCounted
  intro s s1 v vs h hp hm hv
  rw [step_pixel h hm hp]
  obtain ⟨a, rfl, -⟩ := coreTurn_eq h
  refine ⟨fun hr => pixelStep_of_maxRun_le (s := { s with agenda := a }) hv hr, fun hr h0 heq => ?_⟩
  have hstep := (pixelStep_of_pixel (s := { s with agenda := a }) hp hv hr h0).trans (congrArg _ (afterPixel_of_eq heq))
  exact ⟨_, hstep, rfl, sub_one_toNat h0, repeatCnt_toNat hr, by simp only [runCnt_eq_iff], rfl, rfl⟩

/-! ### A stretch of repeats -/

/-- With no turns to come the turn is the core's. -/
theorem step_of_no_agenda {s : State} (h : s.agenda = []) : step s = coreStep s := (coreTurn_step (.inl ⟨h, rfl⟩)).1

/-- The core's turn on a pending pixel, with no turns to come. -/
theorem step_of_pixel {s : State} {v : Word} {vs : List Word} (ha : s.agenda = []) (hp : s.phase = .blocks)
    (hm : s.mode = .encode) (hv : s.inPix = v :: vs) (hr : s.runCnt.toNat < Config.maxRun) (h0 : s.remain ≠ 0#64) :
    step s = .next (afterPixel v vs s) := by
  rw [step_of_no_agenda ha, coreStep_pixel hp hm, pixelStep_of_pixel hp hv hr h0]

/-- `t` is an encode pass in BLOCKS that has counted `k` repeats since `s`, where no run was pending, with the pixels `vs`
left. -/
structure CountedRepeats (k : Nat) (vs : List Word) (s t : State) : Prop where
  outByte : t.outByte = s.outByte ++ List.replicate (k / 62) 0xFD#8
  runCnt : t.runCnt.toNat = k % 62
  inPix : t.inPix = vs
  remain : t.remain.toNat + k = s.remain.toNat
  cache : t.cache = s.cache
  last : t.last = s.last
  phase : t.phase = .blocks
  mode : t.mode = .encode
  agenda : t.agenda = []

/-- One more repeat, short of the last pixel. -/
theorem CountedRepeats.succ {k : Nat} {vs : List Word} {s t : State} (h : CountedRepeats k (toPacked s.last :: vs) s t)
    (hk : k + 1 < s.remain.toNat) : ∃ u, step t = .next u ∧ CountedRepeats (k + 1) vs s u := by
  have hremain := h.remain
  have hcnt := h.runCnt
  have hr : t.runCnt.toNat < Config.maxRun := by rw [hcnt]; exact Nat.mod_lt _ (by decide)
  have h0 : t.remain ≠ 0#64 := by
    intro e
    simp [e] at hremain
    omega
  have heq : fromPacked (toPacked s.last) = t.last := by rw [fromPacked_toPacked, h.last]
  have hstep := step_of_pixel h.agenda h.phase h.mode h.inPix hr h0
  rw [afterPixel_of_eq heq] at hstep
  refine ⟨_, hstep, ?_, ?_, rfl, ?_, h.cache, h.last, ?_, h.mode, h.agenda⟩
  · simp only [runCnt_eq_iff, h.outByte, hcnt]
    split
    · next h61 =>
      have hdiv : (k + 1) / 62 = k / 62 + 1 := by omega
      rw [hdiv, List.replicate_succ', List.append_assoc]
    · next h61 =>
      have hdiv : (k + 1) / 62 = k / 62 := by omega
      rw [hdiv, List.append_nil]
  · refine (repeatCnt_toNat hr).trans ?_
    rw [hcnt]
    split_ifs <;> omega
  · have := sub_one_toNat h0
    dsimp only
    omega
  · exact if_neg (by omega)

/-- `k` steps count `k` repeats. -/
theorem countedRepeats_run {k : Nat} {s : State} {vs : List Word} (hp : s.phase = .blocks) (hm : s.mode = .encode)
    (ha : s.agenda = []) (hr : s.runCnt = 0#6) (hv : s.inPix = List.replicate k (toPacked s.last) ++ vs)
    (hk : k < s.remain.toNat) : ∃ t, SafeRun k s t ∧ CountedRepeats k vs s t := by
  induction k generalizing vs with
  | zero => exact ⟨s, rfl, by simp, by simp [hr], hv, rfl, rfl, rfl, hp, hm, ha⟩
  | succ k ih =>
    obtain ⟨t, hrun, ht⟩ := ih (vs := toPacked s.last :: vs) (by rw [hv, List.replicate_succ', List.append_assoc]; rfl)
      (Nat.lt_of_succ_lt hk)
    obtain ⟨u, hstep, hu⟩ := ht.succ hk
    exact ⟨u, safeRun_trans hrun (safeRun_one hstep), hu⟩

/-- Settles O37: the stretch of repeats, counted one by one. -/
theorem runSplitting : Obligations.RunSplitting := by
  unfold Obligations.RunSplitting
  intro k s vs hp hm ha hr hv hk
  obtain ⟨t, hrun, h⟩ := countedRepeats_run hp hm ha hr hv hk
  exact ⟨t, hrun, h.outByte, h.runCnt, h.inPix, h.remain, h.cache, h.last, h.phase⟩

end Sys2Proof.Machine
end

section
/-! PROOFS. CTRL as read, the stream actions of the host (spec/10_state.md R31, 20_memory.md R64) and the assembler
(30_encoding.md R102 to R104). -/

namespace Sys2Proof.Machine

/-! ### The host -/

theorem csrRead_ctrl (s : State) : csrRead 0 s = readCtrl s := rfl

theorem mode_bit_eq (m : Mode) : m.bit = (m == .encode) := by cases m <;> rfl

/-- CTRL bit by bit (R31). -/
theorem readCtrl_getLsbD (s : State) (k : Nat) :
    (readCtrl s).getLsbD k = ((k == 2 && s.mode == .encode) || (k == 3 && s.enforceEnd) || (k == 4 && s.encRgb)) := by
  have hparts : (readCtrl s).getLsbD k = @BitVec.getLsbD (27 + 1 + 1 + 1 + 2)
      (0#27 ++ BitVec.ofBool s.encRgb ++ BitVec.ofBool s.enforceEnd ++ BitVec.ofBool s.mode.bit ++ 0#2) k := rfl
  rw [hparts, ← mode_bit_eq]
  simp only [BitVec.getLsbD_append]
  match k with
  | 0 | 1 | 2 | 3 | 4 => simp
  | k + 5 => simp

/-- Settles O46: the bits of CTRL, and the write that only latches the options. -/
theorem ctrlRegister : Obligations.CtrlRegister := by
  unfold Obligations.CtrlRegister
  refine ⟨fun s k => (csrRead_ctrl s ▸ readCtrl_getLsbD s k), fun s s1 v h hstart habort => ?_⟩
  rw [step_of_csrWrite h, ← hostTurn_phase h, csrWrite_ctrl, writeCtrl_of_no_command hstart habort]
  refine ⟨fun hno => ?_, fun hpass => by rw [if_pos (isBusy_of_pass hpass)]⟩
  rw [if_neg (ne_true_of_eq_false (isBusy_of_no_pass hno))]
  rfl

/-- The host's turn, with the state after it written out. -/
theorem hostTurn_eq {act : HostAction} {s s1 : State} (h : HostTurn act s s1) :
    ∃ a, s1 = { s with agenda := a } ∧ step s = .next (hostStep act { s with agenda := a }) := by
  obtain ⟨hstep, hs1⟩ := hostTurn_step h
  exact ⟨s1.agenda, hs1, by rw [← hs1, hstep]⟩

/-- The registers do not show the turns to come. -/
theorem csrRead_setAgenda (k : Nat) (s : State) (a : List Turn) : csrRead k { s with agenda := a } = csrRead k s := rfl

/-- Settles O50: each action, on the state with its turn used up. -/
theorem hostStreamActions : Obligations.HostStreamActions := by
  unfold Obligations.HostStreamActions
  intro s s1
  refine ⟨fun k h => ?_, fun x h => ?_, fun v h => ?_, fun h => ?_, fun h => ?_, fun h => ⟨fun hn => ?_, fun x xs hx => ?_⟩,
    fun h => ⟨fun hn => ?_, fun v vs hv => ?_⟩⟩ <;>
    obtain ⟨a, rfl, hstep⟩ := hostTurn_eq h <;> rw [hstep]
  · rw [← csrRead_setAgenda k s a]
    rfl
  · rfl
  · rfl
  · rfl
  · rfl
  · simp only [hostStep, takeOutput, hn]
  · simp only [hostStep, takeOutput, hx]
    rfl
  · simp only [hostStep, takeOutput, hn]
  · simp only [hostStep, takeOutput, hv]
    rfl

/-! ### The assembler -/

/-- The signed reading of a word is a legal operand of `.header`. -/
theorem s32_inRange (v : Word) : inRange (-2147483648) 2147483647 (s32 v) := by
  have := v.isLt
  simp only [s32, BitVec.toInt_eq_toNat_cond]
  split_ifs <;> constructor <;> omega

/-- `.header` with the values of a header's registers gives that header (R103). -/
theorem assembleLine_header (w h : Word) (ch cs : Byte) :
    assembleLine (.headerLine (s32 w) (s32 h) ch.toNat cs.toNat) = some (encodeHeader w h ch cs) := by
  rw [assembleLine, if_pos ⟨s32_inRange w, s32_inRange h, isChannel_toNat ch, isChannel_toNat cs⟩]
  simp [s32]

/-- Settles O59: a block line is the block encoder, and the two directives their own bytes. -/
theorem assemblerLines : Obligations.AssemblerLines := by
  unfold Obligations.AssemblerLines
  refine ⟨rfl, assembleLine_header, fun i h => encodeBlock_of_not_wf h, fun i h => ⟨encode i, encodeBlock_of_wf h, ?_⟩⟩
  simpa using decode_encode h []

/-- A line's text, whichever form each operand has, assembles to what the line stands for. -/
theorem assemble_lineTextBy {w : Nat → Int → List Char} (h : ∀ k x, SpellsOperand (w k x) x) (l : AsmLine) :
    assemble (lineTextBy w l) = assembleLine l := by
  rw [assemble, parseLine_lineTextBy h, Option.bind_some]

/-- Decimal is one of the two forms. -/
theorem assemble_lineText (l : AsmLine) : assemble (lineText l) = assembleLine l :=
  assemble_lineTextBy (fun _ _ => .inl rfl) l

/-- The hexadecimal digits, as a table for each letter case. -/
theorem hexDigit_eq_getD (d : Bool × Fin 16) :
    hexDigit d.1 d.2 =
      (if d.1 then ['0', '1', '2', '3', '4', '5', '6', '7', '8', '9', 'A', 'B', 'C', 'D', 'E', 'F']
        else ['0', '1', '2', '3', '4', '5', '6', '7', '8', '9', 'a', 'b', 'c', 'd', 'e', 'f'] : List Char).getD d.2.val '0' := by
  revert d
  decide

/-- Settles O60: reading a line's text gives the line back, and a hexadecimal operand its number. -/
theorem assemblerReadsText : Obligations.AssemblerReadsText := by
  unfold Obligations.AssemblerReadsText
  refine
    ⟨fun w h => ⟨fun i => assemble_lineTextBy h _, fun wd ht ch cs => assemble_lineTextBy h _, assemble_lineTextBy h _⟩,
    fun i => assemble_lineText _, fun wd ht ch cs => assemble_lineText _, fun ds hd => ?_⟩
  simp only [← hexDigit_eq_getD]
  exact parseOperand_hexText hd

end Sys2Proof.Machine
end

section
/-! PROOFS. Whole passes (spec/43_decoder.md R228, 70_reset_and_hazards.md R349): what DONE says of a decode pass, and that a pass
with its input complete ends. -/

namespace Sys2Proof.Machine

/-! ### Runs -/

/-- A step, then a run. -/
theorem safeRun_cons {n : Nat} {s t u : State} (h : step s = .next t) (hrun : SafeRun n t u) : SafeRun (n + 1) s u := by
  rw [SafeRun, runSteps, h]
  exact hrun

/-- What every step keeps, a run keeps. -/
theorem SafeRun.keeps {P : State → Prop} (hstep : ∀ s t, P s → step s = .next t → P t) {n : Nat} {s t : State}
    (h : SafeRun n s t) (hs : P s) : P t := by
  induction n generalizing s with
  | zero =>
    obtain rfl := Host.Outcome.next.inj h
    exact hs
  | succ n ih =>
    rw [SafeRun, runSteps] at h
    split at h
    · next u hu => exact ih h (hstep s u hs hu)
    · cases h
    · cases h

/-! ### A decode pass from its start -/

/-- The header registers are legal, and the pixels emitted and the pixels to go make up the image. -/
def Accounted (s : State) : Prop :=
  legalConfig s ∧ s.outPix.length + s.remain.toNat = s.width.toNat * s.height.toNat

/-- How far a decode pass has come. -/
inductive DecodeStage (s : State) : Prop where
  | header (hp : s.phase = .header) (ho : s.outPix = [])
  | blocks (hp : s.phase = .blocks) (h0 : s.remain ≠ 0#64) (ha : Accounted s)
  | ended (hp : s.phase = .trailer ∨ s.phase = .done) (h0 : s.remain = 0#64) (ha : Accounted s)
  | stopped (hp : s.phase = .error)

/-- The invariant of a decode pass that the host leaves alone. -/
structure DecodePass (s : State) : Prop where
  mode : s.mode = .decode
  agenda : s.agenda = []
  runCnt : s.runCnt = 0#6
  stage : DecodeStage s

/-- The stage after REMAIN was set or counted down. -/
theorem decodeStage_of_phase {s : State} (ha : Accounted s)
    (hp : s.phase = if s.remain = 0#64 then (if s.enforceEnd then .trailer else .done) else .blocks) : DecodeStage s := by
  obtain ⟨hb, h0⟩ | ⟨he, h0⟩ := streamPhase_cases _ _ hp
  · exact .blocks hb h0 ha
  · exact .ended he h0 ha

/-- An accepted header accounts for an image of which nothing is emitted yet. -/
theorem decodeStage_accepted {s : State} {f : HeaderFields} (ho : s.outPix = [])
    (hf : ¬ negative f.width ∧ ¬ negative f.height ∧ legalChannels f.channels ∧ legalColorspace f.colorspace) :
    DecodeStage (acceptHeader f s) := by
  rw [acceptHeader_eq]
  refine decodeStage_of_phase ⟨hf, ?_⟩ rfl
  simp only [ho, List.length_nil, Nat.zero_add, (pixelCount_toNat hf.1 hf.2.1).1]

/-- A block takes off REMAIN what it emits. -/
theorem decodeStage_afterBlock {s : State} {ps : List Pixel} (c : Vector Pixel Config.cacheSlots) (l : Pixel) (ha : Accounted s)
    (hp : s.phase = .blocks) (hne : ps ≠ []) (hle : ps.length ≤ s.remain.toNat) : DecodeStage (afterBlock s ps c l) := by
  obtain ⟨⟨vs, -, hout, hremain⟩, hphase⟩ := afterBlock_account c l hne hle hp
  refine decodeStage_of_phase ⟨ha.1, ?_⟩ hphase
  have hsum := ha.2
  rw [hout, List.length_append, afterBlock_width, afterBlock_height]
  omega

theorem CoreEffect.decodeStage {s t : State} (e : CoreEffect s t) (hm : s.mode = .decode) (hs : DecodeStage s) :
    DecodeStage t := by
  have hmode : s.mode ≠ .encode := by rw [hm]; decide
  cases e with
  | held => exact hs
  | badHeader | truncated | overshoot | badMarker | badConfig | pixelShort => exact .stopped rfl
  | header f hp _ hf =>
    cases hs with
    | header _ ho => exact decodeStage_accepted ho hf
    | blocks hp' | ended hp' | stopped hp' => simp [hp] at hp'
  | pixel i rest p hp _ _ _ h0 =>
    cases hs with
    | blocks _ _ ha =>
      exact decodeStage_afterBlock (s := { s with inByte := rest }) (ps := [p]) _ _ ha hp (List.cons_ne_nil _ _)
        (one_le_remain h0)
    | header hp' | ended hp' | stopped hp' => simp [hp] at hp'
  | run n rest hp _ _ h1 _ hle =>
    cases hs with
    | blocks _ _ ha =>
      exact decodeStage_afterBlock (s := { s with inByte := rest }) _ _ ha hp (by simp; omega)
        (by rwa [List.length_replicate])
    | header hp' | ended hp' | stopped hp' => simp [hp] at hp'
  | trailer hp =>
    cases hs with
    | ended _ h0 ha => exact .ended (.inr rfl) h0 ha
    | header hp' | blocks hp' | stopped hp' => simp [hp] at hp'
  | encHeader _ h | encPixel _ _ _ h | encTrailer _ h => exact absurd h hmode

/-- In a decode pass that the host leaves alone, every step is an effect of a core step. -/
theorem DecodePass.effect {s t : State} (h : DecodePass s) (hstep : step s = .next t) : CoreEffect s t := by
  have h0 : s.phase = .blocks → s.remain ≠ 0#64 := by
    intro hp
    cases h.stage with
    | blocks _ h0 => exact h0
    | header hp' | ended hp' | stopped hp' => simp [hp] at hp'
  obtain ⟨u, hu, e⟩ := coreStep_effect (by rw [h.runCnt]; decide) h0
  obtain rfl := Host.Outcome.next.inj (hu.symm.trans ((step_of_no_agenda h.agenda).symm.trans hstep))
  exact e

theorem DecodePass.next {s t : State} (h : DecodePass s) (hstep : step s = .next t) : DecodePass t := by
  obtain ⟨hmode, -, -, -, hagenda, hdecode, -⟩ := coreStepLeavesTheRestAlone s s t (.inl ⟨h.agenda, rfl⟩) hstep
  obtain ⟨-, -, hrun⟩ := hdecode h.mode
  exact ⟨hmode.trans h.mode, hagenda.trans h.agenda, hrun.trans h.runCnt, (h.effect hstep).decodeStage h.mode h.stage⟩

/-- The start of a decode pass, and one that has a pixel to go of its one-pixel image. -/
theorem decodePass_witness :
    DecodePass { State.reset with phase := .header } ∧
    DecodePass { State.reset with phase := .blocks, width := 1#32, height := 1#32, remain := 1#64 } :=
  ⟨⟨rfl, rfl, rfl, .header rfl rfl⟩, rfl, rfl, rfl, .blocks rfl (by decide) ⟨by decide, by decide⟩⟩

/-- Settles O40: a fresh decode pass meets the invariant, and in DONE no pixel of the account is left to go. -/
theorem doneMeansAllPixels : Obligations.DoneMeansAllPixels := by
  unfold Obligations.DoneMeansAllPixels
  intro n s t hfresh hm ha ho hrun hdone
  have ht : DecodePass t := hrun.keeps (fun _ _ => DecodePass.next) ⟨hm, ha, hfresh.runCnt, .header hfresh.phase ho⟩
  cases ht.stage with
  | ended _ h0 hacc =>
    obtain ⟨hlegal, hcount⟩ := hacc
    refine ⟨?_, hlegal⟩
    rw [s32_eq_toNat (Int.not_lt.mp hlegal.1), s32_eq_toNat (Int.not_lt.mp hlegal.2.1), ← Nat.cast_mul, ← hcount, h0]
    simp
  | header hp | blocks hp | stopped hp => simp [hdone] at hp

/-! ### A pass whose input is complete -/

/-- The pass is over (R307). -/
def Ended (s : State) : Prop := s.phase = .done ∨ s.phase = .error

/-- All the input of a pass in BLOCKS or TRAILER is there: END on its port, or in an encode pass all its pixels. -/
def InputComplete (s : State) : Prop :=
  (s.mode = .decode → s.inByteEnd = true) ∧ (s.mode = .encode → s.inPixEnd = true ∨ s.remain.toNat ≤ s.inPix.length)

/-- A pass that the host leaves alone, past its header, with its input complete. -/
structure Finishing (s : State) : Prop where
  sound : SoundState s
  agenda : s.agenda = []
  phase : s.phase = .blocks ∨ s.phase = .trailer
  input : InputComplete s

/-- A bound on the steps to the end: one for each pixel to go and one for the marker. -/
def stepsLeft (s : State) : Nat := if s.phase = .blocks then s.remain.toNat + 1 else 1

/-- The end of a pass, or less of it to go with the same dimensions. -/
def Closer (s t : State) : Prop :=
  t.width = s.width ∧ t.height = s.height ∧ (Ended t ∨ Finishing t ∧ stepsLeft t < stepsLeft s)

/-- In BLOCKS, a smaller REMAIN or another phase is closer to the end. -/
theorem closer_of_blocks {s t : State} (hs : s.phase = .blocks) (hw : t.width = s.width ∧ t.height = s.height)
    (ht : SoundState t) (ha : t.agenda = []) (hi : InputComplete t) (hr : t.remain.toNat < s.remain.toNat)
    (hp : t.phase = .blocks ∨ t.phase = .trailer ∨ t.phase = .done) : Closer s t := by
  have hleft : t.phase ≠ .done → stepsLeft t < stepsLeft s := by
    intro _
    simp only [stepsLeft, hs, if_true]
    split_ifs <;> omega
  obtain hp | hp | hp := hp
  · exact ⟨hw.1, hw.2, .inr ⟨⟨ht, ha, .inl hp, hi⟩, hleft (by simp [hp])⟩⟩
  · exact ⟨hw.1, hw.2, .inr ⟨⟨ht, ha, .inr hp, hi⟩, hleft (by simp [hp])⟩⟩
  · exact ⟨hw.1, hw.2, .inl (.inl hp)⟩

/-- A block of at least one pixel is closer to the end. -/
theorem Finishing.closer_afterBlock {s : State} (h : Finishing s) (hp : s.phase = .blocks) (hm : s.mode = .decode)
    {ps : List Pixel} {c : Vector Pixel Config.cacheSlots} {l : Pixel} {rest : List Byte} (hne : 0 < ps.length)
    (hle : ps.length ≤ s.remain.toNat)
    (ht : SoundState (afterBlock { s with inByte := rest } ps c l)) : Closer s (afterBlock { s with inByte := rest } ps c l) := by
  have hremain := afterBlock_remain (s := { s with inByte := rest }) c l hle
  dsimp only at hremain
  refine closer_of_blocks hp ⟨rfl, rfl⟩ ht h.agenda ⟨h.input.1, ?_⟩ (by omega) ?_
  · exact fun he => absurd (hm.symm.trans he) (by decide)
  · rw [afterBlock_phase]
    split_ifs <;> simp [hp]

/-- A pass with its input complete never holds, and every step brings it closer to the end. -/
theorem Finishing.next {s : State} (h : Finishing s) : ∃ t, step s = .next t ∧ Closer s t := by
  obtain ⟨t, hstep, e⟩ := h.sound.coreStep_next
  rw [← step_of_no_agenda h.agenda] at hstep
  have ht := e.sound h.sound
  refine ⟨t, hstep, ?_⟩
  have hheader : s.phase ≠ .header := by obtain hp | hp := h.phase <;> simp [hp]
  cases e with
  | held hheld =>
    exfalso
    have hbusy := hheld (by obtain hp | hp := h.phase <;> rw [hp] <;> rfl)
    obtain hm | hm := s.mode.eq_decode_or_encode
    · simp [hm, h.input.1 hm] at hbusy
    · simp only [hm, reduceCtorEq, if_false] at hbusy
      obtain ⟨hp, he, hv⟩ := hbusy
      have hall := (h.input.2 hm).resolve_left (by simp [he])
      have hpos := one_le_remain (h.sound.remain.1 hp)
      rw [hv] at hall
      exact absurd (hpos.trans hall) (by decide)
  | badHeader _ hp | badConfig hp | header _ hp | encHeader hp => exact absurd hp hheader
  | truncated | overshoot | badMarker | pixelShort => exact ⟨rfl, rfl, .inl (.inr rfl)⟩
  | trailer | encTrailer => exact ⟨rfl, rfl, .inl (.inl rfl)⟩
  | pixel i rest p hp hm _ _ h0 =>
    exact h.closer_afterBlock hp hm (ps := [p]) Nat.one_pos (one_le_remain h0) ht
  | run n rest hp hm _ h1 _ hle =>
    exact h.closer_afterBlock hp hm (by rw [List.length_replicate]; exact h1) (by rwa [List.length_replicate]) ht
  | encPixel v vs hp hm hv h0 =>
    have hremain := sub_one_toNat h0
    refine closer_of_blocks hp ⟨rfl, rfl⟩ ht h.agenda ⟨?_, fun _ => ?_⟩ (by simp only [afterPixel]; omega) ?_
    · exact fun hd => absurd (hm.symm.trans hd) (by decide)
    · refine (h.input.2 hm).imp id fun hall => ?_
      rw [hv, List.length_cons] at hall
      simp only [afterPixel]
      omega
    · simp only [afterPixel]
      split_ifs <;> simp

/-- So it ends within that bound. -/
theorem Finishing.run {s : State} (h : Finishing s) :
    ∃ n t, SafeRun n s t ∧ Ended t ∧ n ≤ stepsLeft s ∧ t.width = s.width ∧ t.height = s.height := by
  induction hk : stepsLeft s using Nat.strong_induction_on generalizing s with
  | _ k ih =>
    subst hk
    obtain ⟨t, hstep, hw, hh, hend | ⟨ht, hlt⟩⟩ := h.next
    · exact ⟨1, t, safeRun_one hstep, hend, by simp only [stepsLeft]; split_ifs <;> omega, hw, hh⟩
    · obtain ⟨n, u, hrun, hend, hn, hw', hh'⟩ := ih _ hlt ht rfl
      exact ⟨n + 1, u, safeRun_cons hstep hrun, hend, by omega, hw'.trans hw, hh'.trans hh⟩

/-- A decode pass with one pixel to go and no byte left of its input ends. -/
theorem finishing_witness :
    ∃ n t, SafeRun n { State.reset with phase := .blocks, remain := 1#64, inByteEnd := true } t ∧ Ended t ∧ n ≤ 2 := by
  have hs := soundState_resetCore State.reset
  have hfin : Finishing { State.reset with phase := .blocks, remain := 1#64, inByteEnd := true } :=
    ⟨soundState_of_noRun hs.cache hs.last rfl rfl (by decide) (by decide) (.inl ⟨rfl, by decide⟩), rfl, .inl rfl,
      fun _ => rfl, fun hm => nomatch hm⟩
  obtain ⟨n, t, hrun, hend, hn, -, -⟩ := hfin.run
  exact ⟨n, t, hrun, hend, hn⟩

/-- A pass with its header done and all the pixels of its image to go is over, or finishing within that many steps and one. -/
theorem finishing_of_remain {t : State} (ht : SoundState t) (ha : t.agenda = []) (hi : InputComplete t)
    (hcount : t.remain.toNat = t.width.toNat * t.height.toNat)
    (hp : t.phase = .blocks ∨ t.phase = .trailer ∨ t.phase = .done) :
    Ended t ∨ Finishing t ∧ stepsLeft t ≤ t.width.toNat * t.height.toNat + 1 := by
  have hleft : stepsLeft t ≤ t.width.toNat * t.height.toNat + 1 := by
    rw [stepsLeft, ← hcount]
    split_ifs <;> omega
  obtain hp | hp | hp := hp
  · exact .inr ⟨⟨ht, ha, .inl hp, hi⟩, hleft⟩
  · exact .inr ⟨⟨ht, ha, .inr hp, hi⟩, hleft⟩
  · exact .inl (.inl hp)

/-- A header step whose input is complete ends the pass, or leaves it finishing with all its pixels to go. -/
theorem header_next {s : State} (h : SoundState s) (hp : s.phase = .header) (ha : s.agenda = [])
    (hd : s.mode = .decode → s.inByteEnd = true)
    (he : s.mode = .encode → s.inPixEnd = true ∨ s.width.toNat * s.height.toNat ≤ s.inPix.length ∨ ¬ legalConfig s) :
    ∃ t, step s = .next t ∧ (Ended t ∨ Finishing t ∧ stepsLeft t ≤ t.width.toNat * t.height.toNat + 1) := by
  obtain ⟨t, hstep, e⟩ := h.coreStep_next
  rw [← step_of_no_agenda ha] at hstep
  have ht := e.sound h
  refine ⟨t, hstep, ?_⟩
  cases e with
  | held hheld =>
    exfalso
    have hbusy := hheld (by rw [hp]; rfl)
    obtain hm | hm := s.mode.eq_decode_or_encode
    · simp [hm, hd hm] at hbusy
    · simp [hm, hp] at hbusy
  | badHeader | truncated | overshoot | badMarker | badConfig | pixelShort => exact .inl (.inr rfl)
  | trailer | encTrailer => exact .inl (.inl rfl)
  | pixel _ _ _ hp' | run _ _ hp' | encPixel _ _ hp' => exact absurd (hp.symm.trans hp') (by decide)
  | header f _ hm hf =>
    rw [acceptHeader_eq] at ht ⊢
    refine finishing_of_remain ht ha ⟨fun _ => hd hm, fun h' => absurd (hm.symm.trans h') (by decide)⟩
      (pixelCount_toNat hf.1 hf.2.1).1 ?_
    exact (streamPhase_cases (pixelCount f.width f.height) s.enforceEnd rfl).imp And.left And.left
  | encHeader _ hm hl =>
    have hcount := (pixelCount_toNat hl.1 hl.2.1).1
    refine finishing_of_remain ht ha ⟨fun h' => absurd (hm.symm.trans h') (by decide), fun _ => ?_⟩ hcount ?_
    · obtain hend | hall | hbad := he hm
      · exact .inl hend
      · exact .inr (hcount.trans_le hall)
      · exact absurd hl hbad
    · exact (streamPhase_cases (pixelCount s.width s.height) true rfl).imp And.left And.left

/-- Settles O58: the header step, and the run of what is left after it. -/
theorem passTerminates : Obligations.PassTerminates := by
  unfold Obligations.PassTerminates
  intro s h hp ha hd he
  obtain ⟨t, hstep, hend | ⟨hfin, hleft⟩⟩ := header_next h hp ha hd he
  · exact ⟨1, t, safeRun_one hstep, hend, by omega⟩
  · obtain ⟨n, u, hrun, hend, hn, hw, hh⟩ := hfin.run
    exact ⟨n + 1, u, safeRun_cons hstep hrun, hend, by rw [hw, hh]; omega⟩

end Sys2Proof.Machine
end

section
/-! PROOFS. Encoder and decoder in lockstep (spec/44_encoder.md R269): what a list of blocks does to a decoder, the blocks of one
pixel step, and the step that keeps both sides' CACHE and LAST equal. -/

namespace Sys2Proof.Machine

/-! ### A decoder that runs blocks -/

/-- The number of pixels a block makes. -/
def pixelTotal : Instr → Nat
  | .run n => n.toNat
  | _ => 1

/-- The state a block leaves when REMAIN pays for its pixels. -/
def ranBlock (i : Instr) (s : State) : State :=
  match blockPixel i s with
  | some p => afterBlock s [p] (s.cache.set (pixelHash p) p) p
  | none => afterBlock s (List.replicate (pixelTotal i) s.last) s.cache s.last

theorem ranBlock_of_pixel {i : Instr} {s : State} {p : Pixel} (h : blockPixel i s = some p) :
    ranBlock i s = afterBlock s [p] (s.cache.set (pixelHash p) p) p := by
  simp only [ranBlock, h]

theorem ranBlock_run (n : Int) (s : State) :
    ranBlock (.run n) s = afterBlock s (List.replicate n.toNat s.last) s.cache s.last := rfl

/-- Whatever the block, the state after it is that of a block of as many pixels. -/
theorem ranBlock_eq_afterBlock (i : Instr) (s : State) :
    ∃ ps c l, ps.length = pixelTotal i ∧ ranBlock i s = afterBlock s ps c l := by
  cases i with
  | run n => exact ⟨_, _, _, List.length_replicate, ranBlock_run n s⟩
  | rgb | rgba | index | diff | luma => exact ⟨_, _, _, rfl, ranBlock_of_pixel rfl⟩

theorem pixelTotal_pos {i : Instr} (h : i.wellFormed = true) : 0 < pixelTotal i := by
  cases i with
  | run n =>
    have := (wellFormed_run n).mp h
    simp only [pixelTotal]
    omega
  | rgb | rgba | index | diff | luma => exact Nat.one_pos

theorem pixelTotal_of_blockPixel {i : Instr} {s : State} {p : Pixel} (h : blockPixel i s = some p) : pixelTotal i = 1 := by
  cases i with
  | run n => simp [blockPixel] at h
  | rgb | rgba | index | diff | luma => rfl

/-- `exec` of a valid block that REMAIN pays for. -/
theorem exec_eq_ranBlock {i : Instr} {s : State} (h : i.wellFormed = true) (hle : pixelTotal i ≤ s.remain.toNat) :
    exec i s = .next (ranBlock i s) := by
  obtain ⟨p, hp, he⟩ | ⟨n, rfl, he⟩ := exec_of_wf h s
  · have hone : 1 ≤ s.remain.toNat := (pixelTotal_pos h).trans_le hle
    rw [he, ranBlock_of_pixel hp]
    exact retire_of_le (ps := [p]) hone
  · rw [he, if_neg (Nat.not_lt.mpr hle : ¬ s.remain.toNat < n.toNat), ranBlock_run]
    exact retire_of_le (by rwa [List.length_replicate])

theorem ranBlock_remain {i : Instr} {s : State} (hle : pixelTotal i ≤ s.remain.toNat) :
    (ranBlock i s).remain.toNat = s.remain.toNat - pixelTotal i := by
  obtain ⟨ps, c, l, hl, e⟩ := ranBlock_eq_afterBlock i s
  rw [e, ← hl, afterBlock_remain c l (by rwa [hl])]

/-- The state a list of blocks leaves. -/
def ranBlocks (is : List Instr) (s : State) : State := is.foldl (fun s i => ranBlock i s) s

@[simp] theorem ranBlocks_nil (s : State) : ranBlocks [] s = s := rfl

@[simp] theorem ranBlocks_cons (i : Instr) (is : List Instr) (s : State) :
    ranBlocks (i :: is) s = ranBlocks is (ranBlock i s) := rfl

theorem ranBlocks_append (is js : List Instr) (s : State) : ranBlocks (is ++ js) s = ranBlocks js (ranBlocks is s) :=
  List.foldl_append

/-- The number of pixels a list of blocks makes. -/
def pixelSum (is : List Instr) : Nat := (is.map pixelTotal).sum

@[simp] theorem pixelSum_nil : pixelSum [] = 0 := rfl

@[simp] theorem pixelSum_cons (i : Instr) (is : List Instr) : pixelSum (i :: is) = pixelTotal i + pixelSum is := by
  simp [pixelSum]

@[simp] theorem pixelSum_append (is js : List Instr) : pixelSum (is ++ js) = pixelSum is + pixelSum js := by
  simp [pixelSum]

/-- Valid blocks that REMAIN pays for run one after the other. -/
theorem execAll_eq_ranBlocks {is : List Instr} {s : State} (hw : ∀ i ∈ is, i.wellFormed = true)
    (hle : pixelSum is ≤ s.remain.toNat) : execAll is s = .next (ranBlocks is s) := by
  induction is generalizing s with
  | nil => rfl
  | cons i is ih =>
    rw [pixelSum_cons] at hle
    have hi : pixelTotal i ≤ s.remain.toNat := by omega
    rw [execAll, exec_eq_ranBlock (hw i List.mem_cons_self) hi]
    exact ih (fun j hj => hw j (List.mem_cons_of_mem i hj)) (by rw [ranBlock_remain hi]; omega)

/-! ### The blocks of a pixel step -/

/-- The pending run as blocks: one RUN, or none. -/
def flushBlocks (n : BitVec 6) : List Instr := if n = 0#6 then [] else [.run n.toNat]

theorem flushBlocks_encode (n : BitVec 6) : (flushBlocks n).flatMap encode = flushBytes n := by
  unfold flushBlocks flushBytes
  split <;> simp

theorem flushBlocks_wf {n : BitVec 6} (h : n.toNat < Config.maxRun) : ∀ i ∈ flushBlocks n, i.wellFormed = true := by
  intro i hi
  unfold flushBlocks at hi
  split at hi
  · cases hi
  · next h0 =>
    obtain rfl := List.mem_singleton.mp hi
    have h1 : n.toNat ≠ 0 := fun e => h0 (BitVec.eq_of_toNat_eq e)
    simp only [Config.maxRun] at h
    exact (wellFormed_run _).mpr ⟨by omega, by omega⟩

theorem flushBlocks_pixelSum (n : BitVec 6) : pixelSum (flushBlocks n) = n.toNat := by
  unfold flushBlocks
  split
  · next h0 => rw [h0]; rfl
  · simp [pixelTotal]

/-- A decoder that runs the pending run makes its copies of LAST. -/
theorem ranBlocks_flushBlocks (n : BitVec 6) (d : State) :
    (ranBlocks (flushBlocks n) d).cache = d.cache ∧ (ranBlocks (flushBlocks n) d).last = d.last ∧
      (ranBlocks (flushBlocks n) d).outPix = d.outPix ++ List.replicate n.toNat (toPacked d.last) := by
  unfold flushBlocks
  split
  · next h0 => simp [h0]
  · simp [ranBlock_run]

/-- The blocks one taken pixel adds to OUT_BYTE (R252 to R261). -/
def pixelBlocks (p : Pixel) (s : State) : List Instr :=
  if p = s.last then (if s.runCnt = 61#6 then [.run 62] else [])
  else flushBlocks s.runCnt ++ [selectBlock (observe p s).1 p s.last s.encRgb]

theorem pixelBlocks_encode (p : Pixel) (s : State) : (pixelBlocks p s).flatMap encode = pixelBytes p s := by
  unfold pixelBlocks pixelBytes
  split_ifs <;> simp [flushBlocks_encode]

theorem pixelBlocks_wf {s : State} (h : s.runCnt.toNat < Config.maxRun) (p : Pixel) :
    ∀ i ∈ pixelBlocks p s, i.wellFormed = true := by
  intro i hi
  unfold pixelBlocks at hi
  split_ifs at hi
  · obtain rfl := List.mem_singleton.mp hi
    rfl
  · cases hi
  · obtain hi | hi := List.mem_append.mp hi
    · exact flushBlocks_wf h i hi
    · obtain rfl := List.mem_singleton.mp hi
      exact selectBlock_wf _ _ _ _

/-- The blocks make the pixels that were pending and the one taken, but for those that are pending then. -/
theorem pixelBlocks_pixelSum {s : State} (h : s.runCnt.toNat < Config.maxRun) (p : Pixel) :
    pixelSum (pixelBlocks p s) + (nextRunCnt p s).toNat = s.runCnt.toNat + 1 := by
  by_cases hrep : p = s.last
  · rw [pixelBlocks, if_pos hrep, nextRunCnt_of_eq hrep, repeatCnt_toNat h]
    simp only [runCnt_eq_iff]
    split
    · next h61 => rw [h61]; rfl
    · exact Nat.zero_add _
  · have hone : pixelTotal (selectBlock (observe p s).1 p s.last s.encRgb) = 1 :=
      pixelTotal_of_blockPixel (blockPixel_selectBlock p s _)
    rw [pixelBlocks, if_neg hrep, nextRunCnt_of_ne hrep, pixelSum_append, flushBlocks_pixelSum, pixelSum_cons, hone]
    rfl

/-- The decoder `d` holds the CACHE and LAST of the encoder `s`, and its pixels with the run still pending are `seen`. -/
structure Lockstep (s d : State) (seen : List Word) : Prop where
  cache : d.cache = s.cache
  last : d.last = s.last
  pixels : d.outPix ++ List.replicate s.runCnt.toNat (toPacked s.last) = seen

/-- A block stands for the same pixel in any state with the same CACHE and LAST. -/
theorem blockPixel_congr {s d : State} (hc : d.cache = s.cache) (hl : d.last = s.last) (i : Instr) :
    blockPixel i d = blockPixel i s := by
  cases i <;> simp only [blockPixel, hc, hl]

/-- The blocks of a pixel step keep the decoder in lockstep, with one more pixel seen. -/
theorem Lockstep.pixel {s d : State} {seen : List Word} (h : Lockstep s d seen) (hr : s.runCnt.toNat < Config.maxRun) (v : Word)
    (vs : List Word) : Lockstep (afterPixel v vs s) (ranBlocks (pixelBlocks (fromPacked v) s) d) (seen ++ [v]) := by
  obtain ⟨hc, hl, rfl⟩ := h
  by_cases hrep : fromPacked v = s.last
  · have hv : v = toPacked s.last := by rw [← hrep, toPacked_fromPacked]
    rw [afterPixel_of_eq hrep, pixelBlocks, if_pos hrep]
    by_cases h61 : s.runCnt = 61#6
    · simp only [if_pos h61]
      refine ⟨hc, hl, ?_⟩
      simp only [ranBlocks_cons, ranBlocks_nil, ranBlock_run, afterBlock_outPix, List.map_replicate, hl, h61, hv,
        List.append_assoc]
      rfl
    · simp only [if_neg h61]
      refine ⟨hc, hl, ?_⟩
      have hcnt : (s.runCnt + 1#6).toNat = s.runCnt.toNat + 1 := by
        have hcnt := repeatCnt_toNat hr
        rwa [if_neg h61, if_neg (mt (runCnt_eq_iff _).mpr h61)] at hcnt
      simp only [ranBlocks_nil, hcnt, hv, List.replicate_succ', List.append_assoc]
  · obtain ⟨hcache, hlast, hout⟩ := ranBlocks_flushBlocks s.runCnt d
    rw [afterPixel_of_ne hrep, pixelBlocks, if_neg hrep, ranBlocks_append, ranBlocks_cons, ranBlocks_nil,
      ranBlock_of_pixel ((blockPixel_congr (hcache.trans hc) (hlast.trans hl) _).trans (blockPixel_selectBlock _ s _))]
    refine ⟨by rw [afterBlock_cache, hcache, hc], rfl, ?_⟩
    rw [afterBlock_outPix, hout, hl]
    simp

/-- A decoder and an encoder at the start of their passes, and the first pixel of a run. -/
theorem lockstep_witness :
    Lockstep (afterPixel 0xFF000000#32 [] State.reset) (ranBlocks [] State.reset) [0xFF000000#32] :=
  Lockstep.pixel (s := State.reset) (d := State.reset) (seen := []) ⟨rfl, rfl, rfl⟩ (by decide) 0xFF000000#32 []

/-- Settles O38: the blocks of the pixel step, run by a decoder whose REMAIN pays for them. -/
theorem encoderLockstep : Obligations.EncoderLockstep := by
  unfold Obligations.EncoderLockstep
  intro s s1 t v vs hturn h hp hm hv hstep
  have hr := h.run.1
  have h0 := h.remain.1 hp
  rw [step_pixel hturn hm hp] at hstep
  obtain ⟨a, rfl, -⟩ := coreTurn_eq hturn
  obtain rfl := Host.Outcome.next.inj ((pixelStep_of_pixel (s := { s with agenda := a }) hp hv hr h0).symm.trans hstep)
  refine ⟨pixelBlocks (fromPacked v) s, pixelBlocks_wf hr _, congrArg _ (pixelBlocks_encode _ _).symm, fun d hc hl hle => ?_⟩
  have hsum := pixelBlocks_pixelSum hr (fromPacked v)
  have hlock := Lockstep.pixel ⟨hc, hl, rfl⟩ hr v vs
  exact ⟨_, execAll_eq_ranBlocks (pixelBlocks_wf hr _) (by omega), hlock.cache, hlock.last, hlock.pixels⟩

end Sys2Proof.Machine
end

section
/-! PROOFS. Decoding an encoded image (spec/43_decoder.md R231, 44_encoder.md R269): the encode pass as a list of blocks, the decode
pass that reads them, and the two together. -/

namespace Sys2Proof.Machine

/-! ### The encode pass -/

/-- An encode pass past its header that the host leaves alone, with just the pixels `vs` pending and to go. -/
structure EncodesPixels (vs : List Word) (s : State) : Prop where
  mode : s.mode = .encode
  agenda : s.agenda = []
  runCnt : s.runCnt.toNat < Config.maxRun
  inPix : s.inPix = vs
  remain : s.remain.toNat = vs.length
  phase : s.phase = if s.remain = 0#64 then .trailer else .blocks

/-- `t` is the end of an encode pass from `s` that had the pixels `vs` to go: it wrote `blocks` and the marker, and a decoder in
lockstep with `s` that runs `blocks` has the pixels and the encoder's CACHE and LAST. -/
structure WroteBlocks (vs : List Word) (s t : State) (blocks : List Instr) : Prop where
  phase : t.phase = .done
  wf : ∀ i ∈ blocks, i.wellFormed = true
  outByte : t.outByte = s.outByte ++ blocks.flatMap encode ++ endMarker
  pixelSum : pixelSum blocks = s.runCnt.toNat + vs.length
  lockstep : ∀ d seen, Lockstep s d seen →
    (ranBlocks blocks d).cache = t.cache ∧ (ranBlocks blocks d).last = t.last ∧ (ranBlocks blocks d).outPix = seen ++ vs

/-- The trailer step writes what is pending. -/
theorem EncodesPixels.trailer {s : State} (h : EncodesPixels [] s) :
    ∃ t, step s = .next t ∧ WroteBlocks [] s t (flushBlocks s.runCnt) := by
  have h0 : s.remain = 0#64 := BitVec.eq_of_toNat_eq h.remain
  have hp : s.phase = .trailer := by rw [h.phase, if_pos h0]
  have hstep : step s = .next (encTrailerStep s) := by rw [step_of_no_agenda h.agenda, coreStep_encTrailer hp h.mode]
  rw [encTrailerStep_eq h.runCnt.le] at hstep
  refine ⟨_, hstep, rfl, flushBlocks_wf h.runCnt, by rw [flushBlocks_encode], flushBlocks_pixelSum _, fun d seen hlock => ?_⟩
  obtain ⟨hc, hl, hseen⟩ := hlock
  obtain ⟨hcache, hlast, hout⟩ := ranBlocks_flushBlocks s.runCnt d
  exact ⟨hcache.trans hc, hlast.trans hl, by rw [hout, hl, hseen, List.append_nil]⟩

/-- A pixel step takes one pixel. -/
theorem EncodesPixels.pixel {s : State} {v : Word} {vs : List Word} (h : EncodesPixels (v :: vs) s) :
    step s = .next (afterPixel v vs s) ∧ EncodesPixels vs (afterPixel v vs s) := by
  have hlen : s.remain.toNat = vs.length + 1 := h.remain
  have h0 : s.remain ≠ 0#64 := by
    intro e
    simp [e] at hlen
  have hp : s.phase = .blocks := by rw [h.phase, if_neg h0]
  have hremain := sub_one_toNat h0
  refine ⟨step_of_pixel h.agenda hp h.mode h.inPix h.runCnt h0, h.mode, h.agenda, nextRunCnt_lt h.runCnt _, rfl, ?_, ?_⟩
  · simp only [afterPixel]
    omega
  · simp only [afterPixel, sub_one_eq_zero_iff h0]

/-- What a pixel step and the rest of the pass write is written by the pass. -/
theorem WroteBlocks.cons {s t : State} {v : Word} {vs : List Word} {blocks : List Instr} (hr : s.runCnt.toNat < Config.maxRun)
    (h : WroteBlocks vs (afterPixel v vs s) t blocks) :
    WroteBlocks (v :: vs) s t (pixelBlocks (fromPacked v) s ++ blocks) where
  phase := h.phase
  wf i hi := (List.mem_append.mp hi).elim (pixelBlocks_wf hr _ i) (h.wf i)
  outByte := by
    have hout : (afterPixel v vs s).outByte = s.outByte ++ pixelBytes (fromPacked v) s := rfl
    rw [h.outByte, hout, List.flatMap_append, pixelBlocks_encode, List.append_assoc s.outByte]
  pixelSum := by
    have hsum := pixelBlocks_pixelSum hr (fromPacked v)
    have hcnt : (afterPixel v vs s).runCnt = nextRunCnt (fromPacked v) s := rfl
    rw [pixelSum_append, h.pixelSum, hcnt, List.length_cons]
    omega
  lockstep d seen hlock := by
    rw [ranBlocks_append, List.append_cons]
    exact h.lockstep _ _ (hlock.pixel hr v vs)

/-- An encode pass writes blocks for all its pixels. -/
theorem EncodesPixels.run {vs : List Word} {s : State} (h : EncodesPixels vs s) :
    ∃ t blocks, SafeRun (vs.length + 1) s t ∧ WroteBlocks vs s t blocks := by
  induction vs generalizing s with
  | nil =>
    obtain ⟨t, hstep, ht⟩ := h.trailer
    exact ⟨t, _, safeRun_one hstep, ht⟩
  | cons v vs ih =>
    obtain ⟨hstep, hnext⟩ := h.pixel
    obtain ⟨t, blocks, hrun, ht⟩ := ih hnext
    exact ⟨t, _, safeRun_cons hstep hrun, ht.cons h.runCnt⟩

/-! ### The decode pass -/

/-- The blocks an earlier step left on IN_BYTE make no difference to a block. -/
theorem ranBlock_setBytes (i : Instr) (s : State) (bs : List Byte) :
    ranBlock i { s with inByte := bs } = { ranBlock i s with inByte := bs } := by
  have hp : blockPixel i { s with inByte := bs } = blockPixel i s := blockPixel_congr rfl rfl i
  simp only [ranBlock, hp]
  cases blockPixel i s <;> rfl

theorem ranBlocks_setBytes (is : List Instr) (s : State) (bs : List Byte) :
    ranBlocks is { s with inByte := bs } = { ranBlocks is s with inByte := bs } := by
  induction is generalizing s with
  | nil => rfl
  | cons i is ih => rw [ranBlocks_cons, ranBlock_setBytes, ih, ranBlocks_cons]

/-- The header that WIDTH, HEIGHT and FORMAT hold. -/
def headerOf (s : State) : HeaderFields := ⟨s.width, s.height, s.channels, s.colorspace⟩

/-- Blocks leave it alone (R223). -/
theorem headerOf_ranBlocks (is : List Instr) (s : State) : headerOf (ranBlocks is s) = headerOf s := by
  induction is generalizing s with
  | nil => rfl
  | cons i is ih =>
    obtain ⟨ps, c, l, -, e⟩ := ranBlock_eq_afterBlock i s
    rw [ranBlocks_cons, ih, e]
    rfl

/-- A decode pass past its header that the host leaves alone. -/
structure DecodesBlocks (s : State) : Prop where
  mode : s.mode = .decode
  agenda : s.agenda = []
  phase : s.phase = if s.remain = 0#64 then (if s.enforceEnd then .trailer else .done) else .blocks

/-- A valid block that REMAIN pays for, at the front of IN_BYTE, is read and run. -/
theorem DecodesBlocks.block {s : State} (h : DecodesBlocks s) {i : Instr} {rest : List Byte} (hw : i.wellFormed = true)
    (hle : pixelTotal i ≤ s.remain.toNat) (hin : s.inByte = encode i ++ rest) :
    step s = .next { ranBlock i s with inByte := rest } ∧ DecodesBlocks { ranBlock i s with inByte := rest } := by
  have hpos := pixelTotal_pos hw
  have h0 : s.remain ≠ 0#64 := by
    intro e
    simp [e] at hle
    omega
  have hp : s.phase = .blocks := by rw [h.phase, if_neg h0]
  have hd : decode s.inByte = .block i rest := by rw [hin, decode_encode hw]
  have hstep := step_of_block (.inl ⟨h.agenda, rfl⟩) hp h.mode hd
  rw [exec_eq_ranBlock (s := { s with inByte := rest }) hw hle, ranBlock_setBytes] at hstep
  obtain ⟨ps, c, l, hl, e⟩ := ranBlock_eq_afterBlock i s
  have hphase := (afterBlock_account c l (List.length_pos_iff.mp (hl ▸ hpos)) (hl ▸ hle) hp).2
  refine ⟨hstep, ?_⟩
  rw [e]
  exact ⟨h.mode, h.agenda, hphase⟩

/-- Valid blocks that REMAIN pays for, at the front of IN_BYTE, are read and run one after the other. -/
theorem DecodesBlocks.run {blocks : List Instr} {s : State} (h : DecodesBlocks s) {more : List Byte}
    (hw : ∀ i ∈ blocks, i.wellFormed = true) (hle : pixelSum blocks ≤ s.remain.toNat)
    (hin : s.inByte = blocks.flatMap encode ++ more) :
    ∃ u, SafeRun blocks.length s u ∧ u = { ranBlocks blocks s with inByte := more } ∧ DecodesBlocks u ∧
      u.remain.toNat = s.remain.toNat - pixelSum blocks := by
  induction blocks generalizing s with
  | nil =>
    have hmore : s.inByte = more := hin
    exact ⟨s, rfl, by rw [ranBlocks_nil, ← hmore], h, by simp⟩
  | cons i is ih =>
    rw [pixelSum_cons] at hle
    have hi : pixelTotal i ≤ s.remain.toNat := by omega
    have hremain := ranBlock_remain hi
    obtain ⟨hstep, hnext⟩ := h.block (hw i List.mem_cons_self) hi (rest := is.flatMap encode ++ more) (by rw [hin]; simp)
    obtain ⟨u, hrun, hu, hd, hr⟩ := ih hnext (fun j hj => hw j (List.mem_cons_of_mem i hj)) (by dsimp only; omega) rfl
    refine ⟨u, safeRun_cons hstep hrun, by rw [hu, ranBlocks_setBytes, ranBlocks_cons], hd, ?_⟩
    rw [pixelSum_cons]
    dsimp only at hr
    omega

/-- With no pixel left to go the pass is in DONE, or takes the marker and is. -/
theorem DecodesBlocks.finish {s : State} (h : DecodesBlocks s) {more : List Byte} (h0 : s.remain = 0#64)
    (hin : s.inByte = endMarker ++ more) :
    ∃ m bs, SafeRun m s { s with phase := .done, inByte := bs } := by
  have hp := h.phase
  rw [if_pos h0] at hp
  by_cases he : s.enforceEnd = true
  · rw [if_pos he] at hp
    have htake : s.inByte.take 8 = [0#8, 0#8, 0#8, 0#8, 0#8, 0#8, 0#8, 1#8] := by rw [hin]; rfl
    have hlen : 8 ≤ s.inByte.length := by rw [hin]; exact Nat.le_add_left 8 more.length
    have hstep := (endMarkerStep s s (.inl ⟨h.agenda, rfl⟩) hp h.mode (.inl hlen)).1 htake
    exact ⟨1, _, safeRun_one hstep⟩
  · rw [if_neg he] at hp
    exact ⟨0, s.inByte, by rw [← hp]; rfl⟩

/-- A header written with legal fields, at the front of IN_BYTE, is accepted (R222). -/
theorem step_of_writtenHeader {d : State} {w h : Word} {ch cs : Byte} {rest : List Byte} (hp : d.phase = .header)
    (hm : d.mode = .decode) (ha : d.agenda = []) (hin : d.inByte = encodeHeader w h ch cs ++ rest)
    (hl : ¬ negative w ∧ ¬ negative h ∧ legalChannels ch ∧ legalColorspace cs) :
    step d = .next (acceptHeader ⟨w, h, ch, cs⟩ { d with inByte := rest }) := by
  obtain ⟨hw, hh, hch, hcs⟩ := hl
  have htake : d.inByte.take 14 = encodeHeader w h ch cs := by rw [hin]; rfl
  have hdrop : d.inByte.drop 14 = rest := by rw [hin]; rfl
  have hlen : 14 ≤ d.inByte.length := by rw [hin]; exact Nat.le_add_left 14 rest.length
  have hstep := step_header_of_no_problem (.inl ⟨ha, rfl⟩) hp hm (.inl hlen)
    (htake ▸ headerProblem_encodeHeader (Int.not_lt.mp hw) (Int.not_lt.mp hh) hch hcs)
  rwa [htake, hdrop, decodeHeader_encodeHeader] at hstep

/-- A decode pass that is given a legal header, valid blocks for all its pixels and the marker ends in DONE with what the blocks
make of the state after the header, `d1`. -/
theorem decodePass_run {d : State} {f : HeaderFields} {blocks : List Instr} {more : List Byte} (hp : d.phase = .header)
    (hm : d.mode = .decode) (ha : d.agenda = [])
    (hf : ¬ negative f.width ∧ ¬ negative f.height ∧ legalChannels f.channels ∧ legalColorspace f.colorspace)
    (hw : ∀ i ∈ blocks, i.wellFormed = true) (hsum : pixelSum blocks = f.width.toNat * f.height.toNat)
    (hin : d.inByte =
      encodeHeader f.width f.height f.channels f.colorspace ++ (blocks.flatMap encode ++ (endMarker ++ more))) :
    ∃ m d1 bs, SafeRun m d { ranBlocks blocks d1 with phase := .done, inByte := bs } ∧
      d1.cache = d.cache ∧ d1.last = d.last ∧ d1.outPix = d.outPix ∧ headerOf d1 = f := by
  have hstep := step_of_writtenHeader hp hm ha hin hf
  obtain ⟨d1, hd1⟩ : ∃ d1, acceptHeader f { d with inByte := blocks.flatMap encode ++ (endMarker ++ more) } = d1 :=
    ⟨_, rfl⟩
  rw [hd1] at hstep
  rw [acceptHeader_eq] at hd1
  have hdecodes : DecodesBlocks d1 := by
    rw [← hd1]
    exact ⟨hm, ha, rfl⟩
  have hcount : d1.remain.toNat = pixelSum blocks := by rw [← hd1, (pixelCount_toNat hf.1 hf.2.1).1, hsum]
  obtain ⟨u, hrun, rfl, hfin, hzero⟩ := hdecodes.run (more := endMarker ++ more) hw hcount.ge (by rw [← hd1])
  obtain ⟨m, bs, hend⟩ := hfin.finish (BitVec.eq_of_toNat_eq (hzero.trans (Nat.sub_eq_zero_of_le hcount.le))) rfl
  exact ⟨_, d1, bs, safeRun_cons hstep (safeRun_trans hrun hend), by rw [← hd1], by rw [← hd1], by rw [← hd1],
    by rw [← hd1]; rfl⟩

/-- The last pixel of an image in an encode pass, and the last run of an image in a decode pass. -/
theorem passRules_witness :
    (∃ t blocks,
      WroteBlocks [7#32] { State.reset with mode := .encode, phase := .blocks, remain := 1#64, inPix := [7#32] } t blocks) ∧
    (∃ u, SafeRun 1 { State.reset with phase := .blocks, remain := 62#64, inByte := [0xFD#8, 9#8] } u ∧ u.inByte = [9#8]) := by
  have henc : EncodesPixels [7#32] { State.reset with mode := .encode, phase := .blocks, remain := 1#64, inPix := [7#32] } :=
    ⟨rfl, rfl, by decide, rfl, rfl, rfl⟩
  have hdec : DecodesBlocks { State.reset with phase := .blocks, remain := 62#64, inByte := [0xFD#8, 9#8] } := ⟨rfl, rfl, rfl⟩
  obtain ⟨t, blocks, -, hwrote⟩ := henc.run
  obtain ⟨u, hrun, rfl, -⟩ := hdec.run (blocks := [.run 62]) (more := [9#8]) (by decide) (by decide) (by decide)
  exact ⟨⟨t, blocks, hwrote⟩, _, hrun, rfl⟩

/-! ### Both passes -/

/-- A fresh encode pass with a legal configuration and the pixels of its image writes its header, blocks for the pixels and the
marker. -/
theorem encodePass_run {s : State} {pixels : List Word} (hs : FreshPass s) (hm : s.mode = .encode) (ha : s.agenda = [])
    (ho : s.outByte = []) (hv : s.inPix = pixels) (hl : legalConfig s)
    (hcount : pixels.length = s.width.toNat * s.height.toNat) :
    ∃ n s1 t blocks, SafeRun n s t ∧ (s1.cache = s.cache ∧ s1.last = s.last ∧ s1.runCnt = 0#6) ∧
      s1.outByte = encodeHeader s.width s.height s.channels s.colorspace ∧ WroteBlocks pixels s1 t blocks := by
  have hstep : step s = .next (encHeaderStep s) := by rw [step_of_no_agenda ha, coreStep_encHeader hs.phase hm]
  obtain ⟨hbad, -⟩ | ⟨-, e⟩ := encHeaderStep_cases s
  · exact absurd hl hbad
  · have hpix : EncodesPixels pixels (encHeaderStep s) := by
      rw [e]
      exact ⟨hm, ha, by simp, hv, by rw [hcount, (pixelCount_toNat hl.1 hl.2.1).1], rfl⟩
    obtain ⟨t, blocks, hrun, hwrote⟩ := hpix.run
    exact ⟨_, _, t, blocks, safeRun_cons hstep hrun, by rw [e]; exact ⟨rfl, rfl, rfl⟩, by rw [e, ho]; rfl, hwrote⟩

/-- Settles O39: the decoder of the encoder's blocks starts in lockstep with it, so it ends with the pixels. -/
theorem decodeOfEncodedImageIsTheImage : Obligations.DecodeOfEncodedImageIsTheImage := by
  unfold Obligations.DecodeOfEncodedImageIsTheImage
  intro s pixels hs hm ha ho hv hl hlen
  have hcount : pixels.length = s.width.toNat * s.height.toNat := by
    rw [s32_eq_toNat (Int.not_lt.mp hl.1), s32_eq_toNat (Int.not_lt.mp hl.2.1), ← Nat.cast_mul] at hlen
    exact Nat.cast_injective hlen
  obtain ⟨n, s1, t, blocks, hrun, ⟨hc1, hl1, hr1⟩, hout1, hwrote⟩ := encodePass_run hs hm ha ho hv hl hcount
  refine ⟨n, t, hrun, hwrote.phase, fun d more hd hdm hda hdo hdin => ?_⟩
  have hsum : pixelSum blocks = s.width.toNat * s.height.toNat := by
    rw [hwrote.pixelSum, hr1, ← hcount]
    exact Nat.zero_add _
  obtain ⟨m, d1, bs, hdrun, hdc, hdl, hdp, hheader⟩ := decodePass_run (f := headerOf s) (more := more) hd.phase hdm hda
    hl hwrote.wf hsum (by rw [hdin, hwrote.outByte, hout1, List.append_assoc, List.append_assoc]; rfl)
  have hlock : Lockstep s1 d1 [] :=
    ⟨by rw [hdc, hd.cache, hc1, hs.cache], by rw [hdl, hd.last, hl1, hs.last], by rw [hdp, hdo, hr1]; rfl⟩
  obtain ⟨hcache, hlast, hpixels⟩ := hwrote.lockstep d1 [] hlock
  have hfields : headerOf (ranBlocks blocks d1) = headerOf s := (headerOf_ranBlocks blocks d1).trans hheader
  obtain ⟨hwidth, hheight, hchannels, hcolorspace⟩ := HeaderFields.mk.inj hfields
  exact ⟨m, _, hdrun, rfl, hpixels, hwidth, hheight, hchannels, hcolorspace, hcache, hlast⟩

end Sys2Proof.Machine
end
